-- ==== Sys2Proof/Word.lean ====
section
/-! DEFINITION. The word types of the CORE (00_scope.md R9, R13, R14): data, bytes, and the fields of
an instruction word. Arithmetic on them is `BitVec`'s own, taken modulo 2^32 (R13). -/

namespace Sys2Proof

/-- Data, registers, addresses while they are computed, and instruction words: 32 bits (R9). -/
abbrev Word := BitVec 32

/-- The unit of memory (10_state.md R46). -/
abbrev Byte := BitVec 8

/-- A register field of an instruction word: 5 bits, so 0 to 31 (R9, 60_exceptions.md R184). -/
abbrev RegIdx := BitVec 5

/-- The literal field of an instruction word: 16 bits (R9). -/
abbrev Literal := BitVec 16

/-- The opcode field, bits [31:26] (R9, 30_encoding.md R72). -/
abbrev Opcode := BitVec 6

/-- `sext_32` of R14: bit 15 repeated 16 times, then the literal. -/
def sext32 (v : Literal) : Word := v.signExtend 32

end Sys2Proof
end

