-- ==== Sys2Proof/Config.lean ====
section
/-! DEFINITION. What is fixed for the machine, and the defaults of the run parameters (00_scope.md
R10). The spec leaves no value free (40_pipeline.md R113), so there is no opaque constant here. -/

namespace Sys2Proof.Config

/-- What a byte that memory does not list holds. DESIGN CHOICE (log 2): unsafe where a claim rests
on the contents of a memory image the caller did not give. -/
def unlistedByte : Byte := 0

/-- `MEM_SIZE` of `State.reset`: every address a 32-bit `pc` or ALU output can name. DESIGN CHOICE
(log 1), unsafe: R10 gives `MEM_SIZE` no default. -/
def resetMemSize : Nat := 2 ^ 32

/-- `MAX_STEP`, default 1000 (R10). -/
def defaultMaxStep : Nat := 1000

/-- `LITTLE_ENDIAN`, default false: big-endian (R10, 20_memory.md R56). -/
def defaultLittleEndian : Bool := false

/-- `INIT_PC`, default 0 (R10). -/
def defaultInitPc : Int := 0

/-- `INIT_REGS`, default 32 zeros (R10). -/
def defaultInitRegs : List Int := List.replicate 32 0

end Sys2Proof.Config
end

