-- ==== Sys2Proof/Syntax.lean ====
section
/-! DEFINITION. The instruction set as syntax (30_encoding.md), the ALU operation tags (41_alu.md
R115), and the control signals with their defaults (10_state.md R36, 40_pipeline.md R98). -/

namespace Sys2Proof

/-- A digit of an `af` or `mf` code (00_scope.md R17): 0 the 16-bit literal, 1 Ra, 2 Rb, 3 Rc. -/
inductive Role where
  | literal | ra | rb | rc
  deriving DecidableEq, Repr

/-- The 35 mnemonics of 30_encoding.md R86, in the order of the opcode map. -/
inductive Op where
  | halt | ld | st | jmp | beq | bne | ldr | add | sub | mul | div | cmpeq | cmplt | cmple |
  and | or | xor | xnor | shl | shr | sra | addc | subc | mulc | divc | cmpeqc | cmpltc |
  cmplec | andc | orc | xorc | xnorc | shlc | shrc | srac
  deriving DecidableEq, Repr

/-- The 35 instructions of 30_encoding.md R86, one constructor a row, operands in the order of the
assembly form. A register operand is a 5-bit field and a literal a 16-bit one, so no operand outside
an encoding's range can be written (60_exceptions.md R184). `ldr` keeps the Ra field the assembly
form does not name, because its value reaches L.RD1 and the zero flag (43_load_store.md R170, log 7). -/
inductive Instr where
  | halt
  | ld (ra : RegIdx) (lit : Literal) (rc : RegIdx)
  | st (rc : RegIdx) (lit : Literal) (ra : RegIdx)
  | jmp (ra rc : RegIdx)
  | beq (ra : RegIdx) (lit : Literal) (rc : RegIdx)
  | bne (ra : RegIdx) (lit : Literal) (rc : RegIdx)
  | ldr (ra : RegIdx) (lit : Literal) (rc : RegIdx)
  | add (ra rb rc : RegIdx)
  | sub (ra rb rc : RegIdx)
  | mul (ra rb rc : RegIdx)
  | div (ra rb rc : RegIdx)
  | cmpeq (ra rb rc : RegIdx)
  | cmplt (ra rb rc : RegIdx)
  | cmple (ra rb rc : RegIdx)
  | and (ra rb rc : RegIdx)
  | or (ra rb rc : RegIdx)
  | xor (ra rb rc : RegIdx)
  | xnor (ra rb rc : RegIdx)
  | shl (ra rb rc : RegIdx)
  | shr (ra rb rc : RegIdx)
  | sra (ra rb rc : RegIdx)
  | addc (ra : RegIdx) (lit : Literal) (rc : RegIdx)
  | subc (ra : RegIdx) (lit : Literal) (rc : RegIdx)
  | mulc (ra : RegIdx) (lit : Literal) (rc : RegIdx)
  | divc (ra : RegIdx) (lit : Literal) (rc : RegIdx)
  | cmpeqc (ra : RegIdx) (lit : Literal) (rc : RegIdx)
  | cmpltc (ra : RegIdx) (lit : Literal) (rc : RegIdx)
  | cmplec (ra : RegIdx) (lit : Literal) (rc : RegIdx)
  | andc (ra : RegIdx) (lit : Literal) (rc : RegIdx)
  | orc (ra : RegIdx) (lit : Literal) (rc : RegIdx)
  | xorc (ra : RegIdx) (lit : Literal) (rc : RegIdx)
  | xnorc (ra : RegIdx) (lit : Literal) (rc : RegIdx)
  | shlc (ra : RegIdx) (lit : Literal) (rc : RegIdx)
  | shrc (ra : RegIdx) (lit : Literal) (rc : RegIdx)
  | srac (ra : RegIdx) (lit : Literal) (rc : RegIdx)
  deriving DecidableEq, Repr

/-- What the decode stage reads from a word (30_encoding.md R76): the literal field and the three
register roles, those absent from `mf` at their defaults (R77). -/
structure Fields where
  lit : Literal
  ra : RegIdx
  rb : RegIdx
  rc : RegIdx
  deriving DecidableEq, Repr

/-- The ALU operation tags (41_alu.md R115). -/
inductive AluOp where
  | add | sub | mul | div | cmpeq | cmplt | cmple | and | or | xor | xnor | nand | nor | shl | shr | sra
  deriving DecidableEq, Repr

/-- PCSEL (10_state.md R36): `pc4` is 0, `aluOut` is 1, `rd1` is 2. -/
inductive PcSel where
  | pc4 | aluOut | rd1
  deriving DecidableEq, Repr

/-- RA2SEL (R36): `rb` is 0, `rc` is 1. -/
inductive Ra2Sel where
  | rb | rc
  deriving DecidableEq, Repr

/-- ASEL (R36): `rd1` is 0, `target` (L.PC4 + 4 * L.LIT) is 1. -/
inductive ASel where
  | rd1 | target
  deriving DecidableEq, Repr

/-- BSEL (R36): `rd2` is 0, `lit` is 1. -/
inductive BSel where
  | rd2 | lit
  deriving DecidableEq, Repr

/-- WDSEL (R36): `pc4` is 0, `aluOut` is 1, `memData` is 2. -/
inductive WdSel where
  | pc4 | aluOut | memData
  deriving DecidableEq, Repr

/-- WASEL (R36): `rc` is 0, `xp` (register 30) is 1. -/
inductive WaSel where
  | rc | xp
  deriving DecidableEq, Repr

/-- PCSEL's default (30_encoding.md R85): one value, or the pair `[p_ne, p_eq]` of a conditional
branch. -/
inductive PcDefault where
  | one (v : PcSel)
  | pair (ne eq : PcSel)
  deriving DecidableEq, Repr

/-- An instruction's defaults for the nine control signals (R85); `none` is the spec's `null`, which
holds the previous value (00_scope.md R16). MWR, MOE and WERF are `true` for 1. -/
structure Control where
  pcSel : Option PcDefault
  ra2Sel : Option Ra2Sel
  aSel : Option ASel
  bSel : Option BSel
  wdSel : Option WdSel
  mwr : Option Bool
  moe : Option Bool
  werf : Option Bool
  waSel : Option WaSel
  deriving DecidableEq, Repr

/-- A row of the instruction table (R85). Its mnemonic is the `Op` it belongs to. -/
structure InstructionSpec where
  opcode : Opcode
  af : List Role
  mf : List Role
  alu : Option AluOp
  control : Control
  deriving DecidableEq, Repr

end Sys2Proof
end

