-- ==== Sys2Proof/WellFormed.lean ====
section
/-! DEFINITION. The checks on terms of the syntax: the load-time validation of an instruction-table row
(30_encoding.md R84), of the table (R81), and of decoded fields (R77). Operand ranges need no check:
the operand types have exactly the encoding's width. The checks on run inputs and on assembly
statements stand beside their types (Machine/Run.lean, Machine/Assembler.lean). -/

namespace Sys2Proof

/-- The width a digit takes from the cursor (30_encoding.md R73). -/
def Role.width : Role → Nat
  | .literal => 16
  | .ra | .rb | .rc => 5

/-- The bits a format's fields take; the cursor starts at 26 and must not pass below 0
(30_encoding.md R73, R94). -/
def mfWidth (mf : List Role) : Nat := (mf.map Role.width).sum

/-- The validation of 30_encoding.md R84: each role at most once in `af` and in `mf`, every argument of
`af` has a field in `mf`, and the fields fit below the opcode. DEDUCED (log 8): a field without an
argument is allowed, because LDR's `mf` has an Ra that its `af` has not (R86, R91). -/
def formatWellFormed (af mf : List Role) : Bool :=
  decide af.Nodup && decide mf.Nodup && af.all (fun d => mf.contains d) && decide (mfWidth mf ≤ 26)

/-- A row of the table passes the validation of R84. -/
def InstructionSpec.wellFormed (s : InstructionSpec) : Bool := formatWellFormed s.af s.mf

/-- The table is a bijection by opcode value (30_encoding.md R81), and each row passes R84. -/
def tableWellFormed (t : List InstructionSpec) : Bool :=
  decide (t.map InstructionSpec.opcode).Nodup && t.all InstructionSpec.wellFormed

/-- What an absent literal and absent roles decode as: 0 and 31 (30_encoding.md R77). -/
def Fields.absent : Fields := { lit := 0, ra := 31, rb := 31, rc := 31 }

/-- The roles a format lacks hold their defaults (30_encoding.md R77). -/
def Fields.wellFormed (mf : List Role) (f : Fields) : Bool :=
  (mf.contains .literal || f.lit == 0) && (mf.contains .ra || f.ra == 31) &&
  (mf.contains .rb || f.rb == 31) && (mf.contains .rc || f.rc == 31)

end Sys2Proof
end

