-- ==== Sys2Proof/Decode.lean ====
section
/-! DEFINITION. The instruction table's opcodes and formats, the decoder and, after it, the encoder
(30_encoding.md R71 to R87, R91), and the byte order of a word (20_memory.md R56 to R58). -/

namespace Sys2Proof

/-- The opcode column of 30_encoding.md R86. -/
def Op.opcode : Op → Opcode
  | .halt => 0x00
  | .ld => 0x18
  | .st => 0x19
  | .jmp => 0x1B
  | .beq => 0x1C
  | .bne => 0x1D
  | .ldr => 0x1F
  | .add => 0x20
  | .sub => 0x21
  | .mul => 0x22
  | .div => 0x23
  | .cmpeq => 0x24
  | .cmplt => 0x25
  | .cmple => 0x26
  | .and => 0x28
  | .or => 0x29
  | .xor => 0x2A
  | .xnor => 0x2B
  | .shl => 0x2C
  | .shr => 0x2D
  | .sra => 0x2E
  | .addc => 0x30
  | .subc => 0x31
  | .mulc => 0x32
  | .divc => 0x33
  | .cmpeqc => 0x34
  | .cmpltc => 0x35
  | .cmplec => 0x36
  | .andc => 0x38
  | .orc => 0x39
  | .xorc => 0x3A
  | .xnorc => 0x3B
  | .shlc => 0x3C
  | .shrc => 0x3D
  | .srac => 0x3E

/-- Every mnemonic, in the order of 30_encoding.md R86. -/
def Op.all : List Op :=
  [.halt, .ld, .st, .jmp, .beq, .bne, .ldr, .add, .sub, .mul, .div, .cmpeq, .cmplt, .cmple,
  .and, .or, .xor, .xnor, .shl, .shr, .sra, .addc, .subc, .mulc, .divc, .cmpeqc, .cmpltc,
  .cmplec, .andc, .orc, .xorc, .xnorc, .shlc, .shrc, .srac]

/-- The micro-format code, `mf`, of each instruction (30_encoding.md R74, R86): OP "312", OPC "310",
JMP "31", NONE "". -/
def Op.mf : Op → List Role
  | .halt => []
  | .jmp => [.rc, .ra]
  | .ld | .st | .beq | .bne | .ldr
  | .addc | .subc | .mulc | .divc | .cmpeqc | .cmpltc | .cmplec
  | .andc | .orc | .xorc | .xnorc | .shlc | .shrc | .srac => [.rc, .ra, .literal]
  | .add | .sub | .mul | .div | .cmpeq | .cmplt | .cmple
  | .and | .or | .xor | .xnor | .shl | .shr | .sra => [.rc, .ra, .rb]

/-- The argument-format code, `af`, of each instruction (30_encoding.md R86): the order of its
arguments in assembly. -/
def Op.af : Op → List Role
  | .halt => []
  | .jmp => [.ra, .rc]
  | .st => [.rc, .literal, .ra]
  | .ldr => [.literal, .rc]
  | .ld | .beq | .bne
  | .addc | .subc | .mulc | .divc | .cmpeqc | .cmpltc | .cmplec
  | .andc | .orc | .xorc | .xnorc | .shlc | .shrc | .srac => [.ra, .literal, .rc]
  | .add | .sub | .mul | .div | .cmpeq | .cmplt | .cmple
  | .and | .or | .xor | .xnor | .shl | .shr | .sra => [.ra, .rb, .rc]

/-- The row of the table an instruction belongs to. -/
def Instr.op : Instr → Op
  | .halt .. => .halt
  | .ld .. => .ld
  | .st .. => .st
  | .jmp .. => .jmp
  | .beq .. => .beq
  | .bne .. => .bne
  | .ldr .. => .ldr
  | .add .. => .add
  | .sub .. => .sub
  | .mul .. => .mul
  | .div .. => .div
  | .cmpeq .. => .cmpeq
  | .cmplt .. => .cmplt
  | .cmple .. => .cmple
  | .and .. => .and
  | .or .. => .or
  | .xor .. => .xor
  | .xnor .. => .xnor
  | .shl .. => .shl
  | .shr .. => .shr
  | .sra .. => .sra
  | .addc .. => .addc
  | .subc .. => .subc
  | .mulc .. => .mulc
  | .divc .. => .divc
  | .cmpeqc .. => .cmpeqc
  | .cmpltc .. => .cmpltc
  | .cmplec .. => .cmplec
  | .andc .. => .andc
  | .orc .. => .orc
  | .xorc .. => .xorc
  | .xnorc .. => .xnorc
  | .shlc .. => .shlc
  | .shrc .. => .shrc
  | .srac .. => .srac

/-- The fields of an instruction: its operands, and the defaults of R77 for the roles its format
does not hold. -/
def Instr.fields : Instr → Fields
  | .halt => Fields.absent
  | .ld ra lit rc => { Fields.absent with lit := lit, ra := ra, rc := rc }
  | .st rc lit ra => { Fields.absent with lit := lit, ra := ra, rc := rc }
  | .jmp ra rc => { Fields.absent with ra := ra, rc := rc }
  | .beq ra lit rc => { Fields.absent with lit := lit, ra := ra, rc := rc }
  | .bne ra lit rc => { Fields.absent with lit := lit, ra := ra, rc := rc }
  | .ldr ra lit rc => { Fields.absent with lit := lit, ra := ra, rc := rc }
  | .add ra rb rc => { Fields.absent with ra := ra, rb := rb, rc := rc }
  | .sub ra rb rc => { Fields.absent with ra := ra, rb := rb, rc := rc }
  | .mul ra rb rc => { Fields.absent with ra := ra, rb := rb, rc := rc }
  | .div ra rb rc => { Fields.absent with ra := ra, rb := rb, rc := rc }
  | .cmpeq ra rb rc => { Fields.absent with ra := ra, rb := rb, rc := rc }
  | .cmplt ra rb rc => { Fields.absent with ra := ra, rb := rb, rc := rc }
  | .cmple ra rb rc => { Fields.absent with ra := ra, rb := rb, rc := rc }
  | .and ra rb rc => { Fields.absent with ra := ra, rb := rb, rc := rc }
  | .or ra rb rc => { Fields.absent with ra := ra, rb := rb, rc := rc }
  | .xor ra rb rc => { Fields.absent with ra := ra, rb := rb, rc := rc }
  | .xnor ra rb rc => { Fields.absent with ra := ra, rb := rb, rc := rc }
  | .shl ra rb rc => { Fields.absent with ra := ra, rb := rb, rc := rc }
  | .shr ra rb rc => { Fields.absent with ra := ra, rb := rb, rc := rc }
  | .sra ra rb rc => { Fields.absent with ra := ra, rb := rb, rc := rc }
  | .addc ra lit rc => { Fields.absent with lit := lit, ra := ra, rc := rc }
  | .subc ra lit rc => { Fields.absent with lit := lit, ra := ra, rc := rc }
  | .mulc ra lit rc => { Fields.absent with lit := lit, ra := ra, rc := rc }
  | .divc ra lit rc => { Fields.absent with lit := lit, ra := ra, rc := rc }
  | .cmpeqc ra lit rc => { Fields.absent with lit := lit, ra := ra, rc := rc }
  | .cmpltc ra lit rc => { Fields.absent with lit := lit, ra := ra, rc := rc }
  | .cmplec ra lit rc => { Fields.absent with lit := lit, ra := ra, rc := rc }
  | .andc ra lit rc => { Fields.absent with lit := lit, ra := ra, rc := rc }
  | .orc ra lit rc => { Fields.absent with lit := lit, ra := ra, rc := rc }
  | .xorc ra lit rc => { Fields.absent with lit := lit, ra := ra, rc := rc }
  | .xnorc ra lit rc => { Fields.absent with lit := lit, ra := ra, rc := rc }
  | .shlc ra lit rc => { Fields.absent with lit := lit, ra := ra, rc := rc }
  | .shrc ra lit rc => { Fields.absent with lit := lit, ra := ra, rc := rc }
  | .srac ra lit rc => { Fields.absent with lit := lit, ra := ra, rc := rc }

/-- The instruction of a table row with the fields decode read for it. -/
def Instr.build (o : Op) (f : Fields) : Instr :=
  match o with
  | .halt => .halt
  | .ld => .ld f.ra f.lit f.rc
  | .st => .st f.rc f.lit f.ra
  | .jmp => .jmp f.ra f.rc
  | .beq => .beq f.ra f.lit f.rc
  | .bne => .bne f.ra f.lit f.rc
  | .ldr => .ldr f.ra f.lit f.rc
  | .add => .add f.ra f.rb f.rc
  | .sub => .sub f.ra f.rb f.rc
  | .mul => .mul f.ra f.rb f.rc
  | .div => .div f.ra f.rb f.rc
  | .cmpeq => .cmpeq f.ra f.rb f.rc
  | .cmplt => .cmplt f.ra f.rb f.rc
  | .cmple => .cmple f.ra f.rb f.rc
  | .and => .and f.ra f.rb f.rc
  | .or => .or f.ra f.rb f.rc
  | .xor => .xor f.ra f.rb f.rc
  | .xnor => .xnor f.ra f.rb f.rc
  | .shl => .shl f.ra f.rb f.rc
  | .shr => .shr f.ra f.rb f.rc
  | .sra => .sra f.ra f.rb f.rc
  | .addc => .addc f.ra f.lit f.rc
  | .subc => .subc f.ra f.lit f.rc
  | .mulc => .mulc f.ra f.lit f.rc
  | .divc => .divc f.ra f.lit f.rc
  | .cmpeqc => .cmpeqc f.ra f.lit f.rc
  | .cmpltc => .cmpltc f.ra f.lit f.rc
  | .cmplec => .cmplec f.ra f.lit f.rc
  | .andc => .andc f.ra f.lit f.rc
  | .orc => .orc f.ra f.lit f.rc
  | .xorc => .xorc f.ra f.lit f.rc
  | .xnorc => .xnorc f.ra f.lit f.rc
  | .shlc => .shlc f.ra f.lit f.rc
  | .shrc => .shrc f.ra f.lit f.rc
  | .srac => .srac f.ra f.lit f.rc

/-- The format checks of 30_encoding.md R84 on the instruction's row, and R77 on its fields. Operands
are bounded by their types, so every instruction passes (Laws/PerInstr.lean); the checks themselves
are refused ill-formed terms in Tests/Slice0.lean. -/
def Instr.wellFormed (i : Instr) : Bool :=
  formatWellFormed i.op.af i.op.mf && i.fields.wellFormed i.op.mf

/-! ### The decoder -/

/-- Why a byte string is no instruction. -/
inductive DecodeError where
  /-- One of the 29 opcodes the table does not list (30_encoding.md R83). -/
  | illegalOpcode (opcode : Opcode)
  /-- Fewer than four bytes are left; every instruction is one word (R71). -/
  | truncated (available : Nat)
  deriving DecidableEq, Repr

/-- Bits [31:26] of a word (30_encoding.md R72). -/
def opcodeField (w : Word) : Opcode := w.extractLsb' 26 6

/-- The lookup by opcode value of 30_encoding.md R81; `none` is an illegal opcode (R83). -/
def Op.ofOpcode (c : Opcode) : Option Op := Op.all.find? (fun o => o.opcode == c)

/-- The walk of 30_encoding.md R76 over `mf`: the cursor is lowered by the field's width, then the
field is read from the cursor up. -/
def extractWalk : List Role → Nat → Word → Fields → Fields
  | [], _, _, f => f
  | .literal :: ds, cur, w, f =>
    extractWalk ds (cur - 16) w { f with lit := w.extractLsb' (cur - 16) 16 }
  | .ra :: ds, cur, w, f => extractWalk ds (cur - 5) w { f with ra := w.extractLsb' (cur - 5) 5 }
  | .rb :: ds, cur, w, f => extractWalk ds (cur - 5) w { f with rb := w.extractLsb' (cur - 5) 5 }
  | .rc :: ds, cur, w, f => extractWalk ds (cur - 5) w { f with rc := w.extractLsb' (cur - 5) 5 }

/-- The fields of a word under a format (30_encoding.md R76, R77). -/
def extractFields (mf : List Role) (w : Word) : Fields := extractWalk mf 26 w Fields.absent

/-- Decode one instruction word: the opcode alone chooses the instruction (30_encoding.md R81), unused
bits are ignored (R75), and an illegal opcode is rejected by name (R83). -/
def decodeWord (w : Word) : Except DecodeError Instr :=
  match Op.ofOpcode (opcodeField w) with
  | some o => .ok (Instr.build o (extractFields o.mf w))
  | none => .error (.illegalOpcode (opcodeField w))

/-! ### Byte order -/

/-- `MemRead`'s composition of a word from the bytes at `a`, `a+1`, `a+2`, `a+3` (20_memory.md R57). -/
def wordOfBytes (littleEndian : Bool) (b0 b1 b2 b3 : Byte) : Word :=
  if littleEndian then b3 ++ b2 ++ b1 ++ b0 else b0 ++ b1 ++ b2 ++ b3

/-- The byte of `v` that lies at offset `k` (0 to 3) of its four bytes (20_memory.md R58). -/
def byteOfWord (littleEndian : Bool) (v : Word) (k : Nat) : Byte :=
  if littleEndian then v.extractLsb' (8 * k) 8 else v.extractLsb' (8 * (3 - k)) 8

/-- The four bytes of a word, lowest address first (20_memory.md R58). -/
def bytesOfWord (littleEndian : Bool) (v : Word) : List Byte :=
  [byteOfWord littleEndian v 0, byteOfWord littleEndian v 1,
   byteOfWord littleEndian v 2, byteOfWord littleEndian v 3]

/-- Decode the first instruction of a byte string in a byte order, with the bytes after it. Total:
it rejects a short string and an illegal opcode by name. -/
def decodeBytes (littleEndian : Bool) : List Byte → Except DecodeError (Instr × List Byte)
  | b0 :: b1 :: b2 :: b3 :: rest =>
    match decodeWord (wordOfBytes littleEndian b0 b1 b2 b3) with
    | .ok i => .ok (i, rest)
    | .error e => .error e
  | bs => .error (.truncated bs.length)

/-- The instruction the decoder reads from the `nbits` low bits of `w`, bits above them 0: the word is
laid out in the default byte order and decoded from its bytes. -/
def decodeTableWord (nbits w : Nat) : Option Instr :=
  let word : Word := BitVec.ofNat 32 (w % 2 ^ nbits)
  match decodeBytes Config.defaultLittleEndian (bytesOfWord Config.defaultLittleEndian word) with
  | .ok (i, _) => some i
  | .error _ => none

/-! ### The encoder -/

/-- The value of a role as a word, a literal as its low 16 bits (30_encoding.md R91). -/
def Fields.value (f : Fields) : Role → Word
  | .literal => f.lit.zeroExtend 32
  | .ra => f.ra.zeroExtend 32
  | .rb => f.rb.zeroExtend 32
  | .rc => f.rc.zeroExtend 32

/-- The packing walk of 30_encoding.md R73 and R91: lower the cursor by the field's width, then OR the
value shifted to the cursor into the word. -/
def encodeWalk : List Role → Nat → Fields → Word → Word
  | [], _, _, w => w
  | d :: ds, cur, f, w =>
    encodeWalk ds (cur - d.width) f (w ||| (f.value d <<< (cur - d.width)))

/-- The word of an opcode row with the given fields: seeded with `opcode << 26` (30_encoding.md R91). -/
def encodeFields (o : Op) (f : Fields) : Word :=
  encodeWalk o.mf 26 f (o.opcode.zeroExtend 32 <<< 26)

/-- The word of an instruction, unused bits 0 (30_encoding.md R75, R91). -/
def encode (i : Instr) : Word := encodeFields i.op i.fields

end Sys2Proof
end

