-- ==== Sys2Proof/Machine/State.lean ====
section
/-! DEFINITION. Every piece of state the spec gives the CORE (10_state.md), the Frame its snapshot latch
captures (R47), the stop statuses (60_exceptions.md R185), and the reset state
(70_reset_and_hazards.md R201). -/

namespace Sys2Proof.Machine

/-- The bytes of memory that differ from `Config.unlistedByte`, by address, in the canonical form of
`Memory.wf` (Machine/Ops.lean). With `RunParams.memSize` it is the byte array of 10_state.md R46. -/
abbrev Memory := List Host.Cell

/-- The five stages (10_state.md R43). -/
inductive Stage where
  | fetch | decode | execute | memory | writeBack
  deriving DecidableEq, Repr

/-- Why a data access is not admitted (20_memory.md R60). -/
inductive AccessKind where
  | misaligned | outOfBounds
  deriving DecidableEq, Repr

/-- How a run ends, with the information each status records (60_exceptions.md R185). -/
inductive Stop where
  /-- Code 0: a HALT word was fetched at `address`. The only clean stop. -/
  | halted (address : Word)
  /-- Code 1: the step counter equalled MAX_STEP before a fetch. -/
  | stepLimit (steps : Nat)
  /-- Code 2: the word fetched at `address` has an illegal opcode. -/
  | illegalOpcode (address word : Word)
  /-- Code 3: a fetch at a misaligned or outside `address`. -/
  | fetchFault (address : Word)
  /-- Code 4: a data access at a misaligned or outside `address`. -/
  | memoryFault (kind : AccessKind) (address : Word)
  deriving DecidableEq, Repr

/-- The run status (10_state.md R45). -/
inductive RunStatus where
  | running
  | stopped (stop : Stop)
  deriving DecidableEq, Repr

/-- A control signal: its value and its dirty bit (10_state.md R36, R37). -/
structure Signal (α : Type) where
  value : α
  dirty : Bool
  deriving DecidableEq, Repr

/-- The control-signal latch (10_state.md R36). MWR, MOE and WERF are `true` for 1. -/
structure Signals where
  pcSel : Signal PcSel
  ra2Sel : Signal Ra2Sel
  aSel : Signal ASel
  bSel : Signal BSel
  wdSel : Signal WdSel
  mwr : Signal Bool
  moe : Signal Bool
  werf : Signal Bool
  waSel : Signal WaSel
  deriving DecidableEq, Repr

/-- The datapath latches (10_state.md R33). -/
structure Latches where
  ir : Word
  pc4 : Word
  lit : Word
  ra : RegIdx
  rb : RegIdx
  rc : RegIdx
  rd1 : Word
  rd2 : Word
  aluOut : Word
  memData : Word
  deriving DecidableEq, Repr

/-- A signal as a Frame shows it (10_state.md R47). -/
structure FrameSignal (α : Type) where
  value : α
  dirty : Bool
  focus : Bool
  deriving DecidableEq, Repr

/-- The nine signals as a Frame shows them (10_state.md R47). -/
structure FrameSignals where
  pcSel : FrameSignal PcSel
  ra2Sel : FrameSignal Ra2Sel
  aSel : FrameSignal ASel
  bSel : FrameSignal BSel
  wdSel : FrameSignal WdSel
  mwr : FrameSignal Bool
  moe : FrameSignal Bool
  werf : FrameSignal Bool
  waSel : FrameSignal WaSel
  deriving DecidableEq, Repr

/-- A Frame: the snapshot latch's value at the end of one stage (10_state.md R47). Titles and
descriptions are out of scope (00_scope.md R6). -/
structure Frame where
  stage : Stage
  pc : Word
  offset : Word
  regs : Vector Word 32
  mem : Memory
  signals : FrameSignals
  zero : Bool
  overflow : Bool
  divideByZero : Bool
  exception : Bool
  exitingDueToException : Bool
  deriving DecidableEq, Repr

/-- The run parameters a step reads, constant for a run (00_scope.md R10). -/
structure RunParams where
  memSize : Nat
  littleEndian : Bool
  maxStep : Nat
  deriving DecidableEq, Repr

/-- The whole state of the CORE. Each field names the rule that gives it. -/
structure State where
  /-- R0 to R31 (10_state.md R21). Slot 31 is read and written only through `State.reg` and
  `State.writeReg`, which make it the hard-wired zero. -/
  regs : Vector Word 32
  /-- The program counter (10_state.md R28). -/
  pc : Word
  /-- Memory (10_state.md R46). -/
  mem : Memory
  /-- The datapath latches (10_state.md R33). -/
  latches : Latches
  /-- The control-signal latch (10_state.md R36). -/
  signals : Signals
  /-- The flag Z (10_state.md R39). -/
  zero : Bool
  /-- The flag V (10_state.md R40). -/
  overflow : Bool
  /-- The flag DZ (10_state.md R41). -/
  divideByZero : Bool
  /-- The stage register (10_state.md R43): the stage that runs next. -/
  stage : Stage
  /-- The step counter (10_state.md R44): retired instructions. -/
  steps : Nat
  /-- The run status (10_state.md R45). -/
  status : RunStatus
  /-- OFF, the address the current instruction was fetched from (40_pipeline.md R101, R108). -/
  offset : Word
  /-- The trace, oldest Frame first (10_state.md R49). -/
  trace : List Frame
  /-- The run parameters (00_scope.md R10). -/
  params : RunParams
  deriving DecidableEq, Repr

/-- Why a step stops outright. -/
inductive Fault where
  /-- Raised by `step` and `tick` alone, in a state whose run has ended with `stop`: nothing runs after
  a stop (60_exceptions.md R200, 40_pipeline.md R111). Safe: no behaviour is claimed past the end of a
  run. DESIGN CHOICE (log 4). -/
  | runEnded (stop : Stop)
  deriving DecidableEq, Repr

/-- Why the model declines. -/
inductive Refusal where
  /-- Raised by an arm of `exec` whose instruction has no meaning yet; no arm is left so. Safe. -/
  | notModelled (mnemonic : String)
  /-- Raised by `State.start`: INIT_REGS does not have exactly 32 entries, so the run is refused as
  70_reset_and_hazards.md R203 asks. Safe. -/
  | badInitRegs (length : Nat)
  /-- Raised by `tick` and `step` in a state whose stage register is past Fetch while L.IR holds no
  instruction that goes past Fetch; no step reaches such a state. Safe (log 5). -/
  | nothingInFlight (ir : Word)
  deriving DecidableEq, Repr

/-- A signal at reset: the given value, not dirty (10_state.md R36). -/
def Signal.clean {α : Type} (v : α) : Signal α := { value := v, dirty := false }

/-- The latches at reset (10_state.md R33). -/
def Latches.reset : Latches :=
  { ir := 0, pc4 := 0, lit := 0, ra := 31, rb := 31, rc := 31, rd1 := 0, rd2 := 0, aluOut := 0,
    memData := 0 }

/-- The control signals at reset: value 0, not dirty (10_state.md R36). -/
def Signals.reset : Signals :=
  { pcSel := .clean .pc4, ra2Sel := .clean .rb, aSel := .clean .rd1, bSel := .clean .rd2,
    wdSel := .clean .pc4, mwr := .clean false, moe := .clean false, werf := .clean false,
    waSel := .clean .rc }

/-- The registers at reset: `wrap32(INIT_REGS[i])`, and 0 in slot 31 (10_state.md R27). -/
def initialRegs (initRegs : List Int) : Vector Word 32 :=
  Vector.ofFn fun i : Fin 32 => if i.val = 31 then 0 else BitVec.ofInt 32 (initRegs.getD i.val 0)

/-- The reset state of a run with the given inputs (70_reset_and_hazards.md R201). OFF starts at 0:
DESIGN CHOICE (log 3). -/
def State.resetWith (mem : Memory) (params : RunParams) (initPc : Int) (initRegs : List Int) : State :=
  { regs := initialRegs initRegs, pc := BitVec.ofInt 32 initPc, mem := mem, latches := .reset,
    signals := .reset, zero := false, overflow := false, divideByZero := false, stage := .fetch,
    steps := 0, status := .running, offset := 0, trace := [], params := params }

/-- The machine right after reset, with the default run inputs of 00_scope.md R10. `MEM` has no
default: nothing is listed (log 2) and MEM_SIZE is `Config.resetMemSize` (log 1). -/
def State.reset : State :=
  State.resetWith []
    { memSize := Config.resetMemSize, littleEndian := Config.defaultLittleEndian,
      maxStep := Config.defaultMaxStep }
    Config.defaultInitPc Config.defaultInitRegs

end Sys2Proof.Machine
end

