-- ==== Sys2Proof/Machine/Ops.lean ====
section
/-! DEFINITION. The named operations over registers, memory, the control-signal latch and the snapshot
latch, and the ways a run stops. Stages and meanings change the state through these alone. -/

namespace Sys2Proof.Machine

/-! ### Memory (20_memory.md) -/

/-- The canonical form: addresses strictly rise, and no entry holds what an unlisted address reads as. -/
def Memory.wf (m : Memory) : Bool :=
  decide (m.Pairwise (fun c d => c.1 < d.1)) && m.all (fun c => c.2 != Config.unlistedByte)

/-- Every listed byte lies in the array of `size` bytes (10_state.md R46). -/
def Memory.within (m : Memory) (size : Nat) : Bool := m.all (fun c => decide (c.1 < size))

/-- The byte at an address. -/
def Memory.readByte : Memory → Nat → Byte
  | [], _ => Config.unlistedByte
  | (k, b) :: rest, a => if k = a then b else Memory.readByte rest a

/-- An entry put before a list whose addresses all lie above it, unless it holds what an unlisted
address reads as. -/
def Memory.put (a : Nat) (b : Byte) (m : Memory) : Memory :=
  if b = Config.unlistedByte then m else (a, b) :: m

/-- Store one byte, keeping the canonical form. -/
def Memory.writeByte : Memory → Nat → Byte → Memory
  | [], a, b => Memory.put a b []
  | (k, c) :: rest, a, b =>
    if a < k then Memory.put a b ((k, c) :: rest)
    else if a = k then Memory.put a b rest
    else (k, c) :: Memory.writeByte rest a b

/-- `MemRead(a, 4)` (20_memory.md R57). -/
def Memory.readWord (littleEndian : Bool) (m : Memory) (a : Nat) : Word :=
  wordOfBytes littleEndian (m.readByte a) (m.readByte (a + 1)) (m.readByte (a + 2)) (m.readByte (a + 3))

/-- `MemWrite(a, 4, v)` (20_memory.md R58). -/
def Memory.writeWord (littleEndian : Bool) (m : Memory) (a : Nat) (v : Word) : Memory :=
  (((m.writeByte a (byteOfWord littleEndian v 0)).writeByte (a + 1) (byteOfWord littleEndian v 1)).writeByte
    (a + 2) (byteOfWord littleEndian v 2)).writeByte (a + 3) (byteOfWord littleEndian v 3)

/-- The memory whose bytes from address `a` up are the given ones. -/
def Memory.bytesFrom : Nat → List Byte → Memory
  | _, [] => []
  | a, b :: bs => Memory.put a b (Memory.bytesFrom (a + 1) bs)

/-- The memory of a byte array (10_state.md R46). -/
def Memory.ofBytes (bs : List Byte) : Memory := Memory.bytesFrom 0 bs

/-- Why a word access at `a` is not admitted, or `none` when it is (20_memory.md R60, R61): unbounded
integers, and Misaligned when both tests fail. -/
def accessFault (memSize a : Nat) : Option AccessKind :=
  if a % 4 ≠ 0 then some .misaligned else if memSize < a + 4 then some .outOfBounds else none

/-! ### Registers (10_state.md R21 to R24) -/

/-- `x[r]`: register 31 reads 0 always (10_state.md R23). -/
def State.reg (s : State) (r : RegIdx) : Word := if r = 31 then 0 else s.regs[r.toNat]'r.isLt

/-- `x[r] <- v`: a write to register 31 changes nothing (10_state.md R24). -/
def State.writeReg (s : State) (r : RegIdx) (v : Word) : State :=
  if r = 31 then s else { s with regs := s.regs.set r.toNat v r.isLt }

/-! ### Control signals (10_state.md R37) -/

/-- Apply an instruction's default for a signal: a value sets it and clears the dirty bit; `null` keeps
the value and sets the dirty bit (10_state.md R37). -/
def Signal.apply {α : Type} (g : Signal α) : Option α → Signal α
  | some v => { value := v, dirty := false }
  | none => { g with dirty := true }

/-- Apply PCSEL's default, resolving a branch pair by Z: equal selects the second element
(40_pipeline.md R103, 44_control_transfer.md R172). -/
def Signal.applyPc (g : Signal PcSel) (z : Bool) : Option PcDefault → Signal PcSel
  | some (.one v) => g.apply (some v)
  | some (.pair ne eq) => g.apply (some (if z then eq else ne))
  | none => g.apply none

/-! ### The snapshot latch (40_pipeline.md R108 to R110) -/

/-- A signal as a Frame shows it, in focus or not. -/
def Signal.inFrame {α : Type} (g : Signal α) (focus : Bool) : FrameSignal α :=
  { value := g.value, dirty := g.dirty, focus := focus }

/-- The signals as a Frame of stage `st` shows them: in focus are those the stage owns
(40_pipeline.md R100, R109). -/
def Signals.inFrame (g : Signals) (st : Stage) : FrameSignals :=
  { pcSel := g.pcSel.inFrame (st == .execute), ra2Sel := g.ra2Sel.inFrame (st == .decode),
    aSel := g.aSel.inFrame (st == .execute), bSel := g.bSel.inFrame (st == .execute),
    wdSel := g.wdSel.inFrame (st == .writeBack), mwr := g.mwr.inFrame (st == .memory),
    moe := g.moe.inFrame (st == .memory), werf := g.werf.inFrame (st == .writeBack),
    waSel := g.waSel.inFrame (st == .writeBack) }

/-- The Frame of stage `st` at this moment (40_pipeline.md R108), its EXC and EXIT both `exc`
(10_state.md R42). Slot 31 shows 0 (10_state.md R27). -/
def State.frame (s : State) (st : Stage) (exc : Bool) : Frame :=
  { stage := st, pc := s.pc, offset := s.offset, regs := s.regs.set 31 0, mem := s.mem,
    signals := s.signals.inFrame st, zero := s.zero, overflow := s.overflow,
    divideByZero := s.divideByZero, exception := exc, exitingDueToException := exc }

/-- `emit(st)`: append one Frame to the trace (40_pipeline.md R108). -/
def State.emit (s : State) (st : Stage) (exc : Bool) : State :=
  { s with trace := s.trace ++ [s.frame st exc] }

/-! ### Single steps of the stage controller -/

/-- `OFF := pc` (40_pipeline.md R101). -/
def State.setOffset (s : State) : State := { s with offset := s.pc }

/-- `L.IR <- w` (40_pipeline.md R101). -/
def State.latchIr (s : State) (w : Word) : State := { s with latches := { s.latches with ir := w } }

/-- `OFF := pc` and `L.PC4 <- pc + 4`, the part of Fetch that does not depend on the word read
(40_pipeline.md R101; the sum wraps, 10_state.md R31). -/
def State.openInstr (s : State) : State :=
  { s with offset := s.pc, latches := { s.latches with pc4 := s.pc + 4 } }

/-- The stage register takes the stage that runs next (10_state.md R43). -/
def State.goto (s : State) (st : Stage) : State := { s with stage := st }

/-! ### Stops (60_exceptions.md R182 to R192) -/

/-- `raise stop`: the run ends with this status and nothing else changes (40_pipeline.md R111,
10_state.md R45). The CORE has no trap entry and no return from one: no register saves the pc or a
status, no mode changes, and no handler is entered (60_exceptions.md R191, R192). -/
def State.raise (s : State) (stop : Stop) : State := { s with status := .stopped stop }

/-- A stop by fault, found in stage `st`: the stage's Frame with EXC and EXIT true, then the stop
(60_exceptions.md R186). This is the CORE's whole taking of an exception. -/
def State.takeFault (s : State) (st : Stage) (stop : Stop) : State := (s.emit st true).raise stop

end Sys2Proof.Machine
end

