-- ==== Sys2Proof/Machine/Flags.lean ====
section
/-! DEFINITION. Every flag computation the spec gives: Z (10_state.md R39), and the ALU's overflow and
divide-by-zero outputs (41_alu.md R118 to R121, R134). -/

namespace Sys2Proof.Machine

/-- Z: the two register-read latches are equal in all 32 bits (10_state.md R39). -/
def zeroFlag (rd1 rd2 : Word) : Bool := rd1 == rd2

/-- V of ADD, by signs: two operands of sign 0 with a negative result, or two negative operands with a
result of sign 0 (41_alu.md R118). -/
def addOverflow (a b r : Word) : Bool :=
  (!a.msb && !b.msb && r.msb) || (a.msb && b.msb && !r.msb)

/-- V of SUB, by signs (41_alu.md R119). -/
def subOverflow (a b r : Word) : Bool :=
  (!a.msb && b.msb && r.msb) || (a.msb && !b.msb && !r.msb)

/-- An exact result lies outside [-2^31, 2^31-1] (41_alu.md R120, R134). -/
def outsideSigned (n : Int) : Bool := decide (n < -2 ^ 31 ∨ 2 ^ 31 ≤ n)

/-- V of MUL: the exact product lies outside the signed range (41_alu.md R120). -/
def mulOverflow (a b : Word) : Bool := outsideSigned (a.toInt * b.toInt)

/-- V of DIV with a divisor that is not 0: the exact quotient is 2^31 (41_alu.md R121). -/
def divOverflow (a b : Word) : Bool := decide (a.toInt.tdiv b.toInt = 2 ^ 31)

/-- DZ of DIV: the divisor is 0 (41_alu.md R121). -/
def divByZero (b : Word) : Bool := decide (b.toInt = 0)

end Sys2Proof.Machine
end

