-- ==== Sys2Proof/Machine/Operands.lean ====
section
/-! DEFINITION. Every operand form and multiplexer of the datapath (30_encoding.md R79, R80, 40_pipeline.md
R102, R103, R105, R106). The addresses of 43_load_store.md R165 and the targets of
44_control_transfer.md R171 are the ALU's sum of two of these inputs. -/

namespace Sys2Proof.Machine

/-- Read port 2: `x[L.RB]` or `x[L.RC]` by RA2SEL (10_state.md R25). -/
def readPort2 (s : State) (sel : Ra2Sel) (f : Fields) : Word :=
  match sel with
  | .rb => s.reg f.rb
  | .rc => s.reg f.rc

/-- The target arithmetic `L.PC4 + 4 * L.LIT`, modulo 2^32: the only place a literal is scaled
(30_encoding.md R79). -/
def relativeTarget (pc4 lit : Word) : Word := pc4 + 4 * lit

/-- The ALU's A input (30_encoding.md R79). -/
def aluInputA (l : Latches) : ASel → Word
  | .rd1 => l.rd1
  | .target => relativeTarget l.pc4 l.lit

/-- The ALU's B input (30_encoding.md R80). -/
def aluInputB (l : Latches) : BSel → Word
  | .rd2 => l.rd2
  | .lit => l.lit

/-- The write-back data (40_pipeline.md R105). -/
def writeBackData (l : Latches) : WdSel → Word
  | .pc4 => l.pc4
  | .aluOut => l.aluOut
  | .memData => l.memData

/-- The register write-back writes: L.RC, or register 30 (40_pipeline.md R105, R107). -/
def writeBackReg (l : Latches) : WaSel → RegIdx
  | .rc => l.rc
  | .xp => 30

/-- The next program counter (40_pipeline.md R105, R106). -/
def nextPc (l : Latches) : PcSel → Word
  | .pc4 => l.pc4
  | .aluOut => l.aluOut
  | .rd1 => l.rd1 &&& 0xFFFFFFFC

end Sys2Proof.Machine
end

