-- ==== Sys2Proof/Machine/Alu.lean ====
section
/-! DEFINITION. The ALU, a pure function (41_alu.md R114). -/

namespace Sys2Proof.Machine

/-- The ALU's outputs: the result, overflow and divide-by-zero (41_alu.md R114). -/
structure AluResult where
  r : Word
  v : Bool
  dz : Bool
  deriving DecidableEq, Repr

/-- A result that sets neither flag (41_alu.md R134). -/
def AluResult.plain (r : Word) : AluResult := { r := r, v := false, dz := false }

/-- A compare's result: 1 or 0 (41_alu.md R122 to R124). -/
def ofTest (b : Bool) : Word := if b then 1 else 0

/-- A shift's amount: `B[4:0]` (41_alu.md R130). -/
def shiftAmount (b : Word) : Nat := (b.extractLsb' 0 5).toNat

/-- DIV (41_alu.md R121): 0 for a zero divisor, otherwise the exact quotient rounded toward zero and
wrapped to 32 bits. -/
def aluDiv (a b : Word) : AluResult :=
  if divByZero b then { r := 0, v := false, dz := true }
  else { r := BitVec.ofInt 32 (a.toInt.tdiv b.toInt), v := divOverflow a b, dz := false }

/-- `ALU(A, B, op)` (41_alu.md R117 to R133). -/
def alu (a b : Word) : AluOp → AluResult
  | .add => { r := a + b, v := addOverflow a b (a + b), dz := false }
  | .sub => { r := a - b, v := subOverflow a b (a - b), dz := false }
  | .mul => { r := BitVec.ofInt 32 (a.toInt * b.toInt), v := mulOverflow a b, dz := false }
  | .div => aluDiv a b
  | .cmpeq => .plain (ofTest (a == b))
  | .cmplt => .plain (ofTest (decide (a.toInt < b.toInt)))
  | .cmple => .plain (ofTest (decide (a.toInt ≤ b.toInt)))
  | .and => .plain (a &&& b)
  | .or => .plain (a ||| b)
  | .xor => .plain (a ^^^ b)
  | .xnor => .plain (~~~(a ^^^ b))
  | .nand => .plain (~~~(a &&& b))
  | .nor => .plain (~~~(a ||| b))
  | .shl => .plain (a <<< shiftAmount b)
  | .shr => .plain (a >>> shiftAmount b)
  | .sra => .plain (a.sshiftRight (shiftAmount b))

end Sys2Proof.Machine
end

