-- ==== Sys2Proof/Machine/Control.lean ====
section
/-! DEFINITION. The control-signal defaults and ALU operation of every instruction (40_pipeline.md R98,
30_encoding.md R86), and the instruction table they complete. -/

namespace Sys2Proof.Machine

/-- The OP row of 40_pipeline.md R98. -/
def rowOp : Control :=
  { pcSel := some (.one .pc4), ra2Sel := some .rb, aSel := some .rd1, bSel := some .rd2,
    wdSel := some .aluOut, mwr := some false, moe := some false, werf := some true,
    waSel := some .rc }

/-- The OPC row of R98. -/
def rowOpc : Control :=
  { pcSel := some (.one .pc4), ra2Sel := none, aSel := some .rd1, bSel := some .lit,
    wdSel := some .aluOut, mwr := some false, moe := some false, werf := some true,
    waSel := some .rc }

/-- The LD row of R98. -/
def rowLd : Control :=
  { pcSel := some (.one .pc4), ra2Sel := none, aSel := some .rd1, bSel := some .lit,
    wdSel := some .memData, mwr := some false, moe := some true, werf := some true,
    waSel := some .rc }

/-- The ST row of R98. -/
def rowSt : Control :=
  { pcSel := some (.one .pc4), ra2Sel := some .rc, aSel := some .rd1, bSel := some .lit,
    wdSel := none, mwr := some true, moe := some false, werf := some false, waSel := none }

/-- The JMP row of R98. -/
def rowJmp : Control :=
  { pcSel := some (.one .rd1), ra2Sel := none, aSel := none, bSel := none, wdSel := some .pc4,
    mwr := some false, moe := some false, werf := some true, waSel := some .rc }

/-- The BEQ row of R98: PCSEL [0, 1]. -/
def rowBeq : Control :=
  { pcSel := some (.pair .pc4 .aluOut), ra2Sel := some .rb, aSel := some .target, bSel := some .rd2,
    wdSel := some .pc4, mwr := some false, moe := some false, werf := some true, waSel := some .rc }

/-- The BNE row of R98: PCSEL [1, 0]. -/
def rowBne : Control :=
  { pcSel := some (.pair .aluOut .pc4), ra2Sel := some .rb, aSel := some .target, bSel := some .rd2,
    wdSel := some .pc4, mwr := some false, moe := some false, werf := some true, waSel := some .rc }

/-- The LDR row of R98. -/
def rowLdr : Control :=
  { pcSel := some (.one .pc4), ra2Sel := some .rb, aSel := some .target, bSel := some .rd2,
    wdSel := some .memData, mwr := some false, moe := some true, werf := some true,
    waSel := some .rc }

/-- The HALT row of R98: all `null`, and never applied (45_halt.md R179). -/
def rowHalt : Control :=
  { pcSel := none, ra2Sel := none, aSel := none, bSel := none, wdSel := none, mwr := none,
    moe := none, werf := none, waSel := none }

/-- The control-signal defaults of each instruction (R98). -/
def opControl : Op → Control
  | .halt => rowHalt
  | .ld => rowLd
  | .st => rowSt
  | .jmp => rowJmp
  | .beq => rowBeq
  | .bne => rowBne
  | .ldr => rowLdr
  | .add | .sub | .mul | .div | .cmpeq | .cmplt | .cmple
  | .and | .or | .xor | .xnor | .shl | .shr | .sra => rowOp
  | .addc | .subc | .mulc | .divc | .cmpeqc | .cmpltc | .cmplec
  | .andc | .orc | .xorc | .xnorc | .shlc | .shrc | .srac => rowOpc

/-- The ALU operation of each instruction, `none` for `null` (30_encoding.md R86). -/
def opAlu : Op → Option AluOp
  | .halt | .jmp => none
  | .ld | .st | .beq | .bne | .ldr | .add | .addc => some .add
  | .sub | .subc => some .sub
  | .mul | .mulc => some .mul
  | .div | .divc => some .div
  | .cmpeq | .cmpeqc => some .cmpeq
  | .cmplt | .cmpltc => some .cmplt
  | .cmple | .cmplec => some .cmple
  | .and | .andc => some .and
  | .or | .orc => some .or
  | .xor | .xorc => some .xor
  | .xnor | .xnorc => some .xnor
  | .shl | .shlc => some .shl
  | .shr | .shrc => some .shr
  | .sra | .srac => some .sra

/-- A row of the instruction table (30_encoding.md R85). -/
def opSpec (o : Op) : InstructionSpec :=
  { opcode := o.opcode, af := o.af, mf := o.mf, alu := opAlu o, control := opControl o }

/-- The instruction table (30_encoding.md R86). -/
def instructionTable : List InstructionSpec := Op.all.map opSpec

end Sys2Proof.Machine
end

