-- ==== Sys2Proof/Machine/Stages.lean ====
section
/-! DEFINITION. The five stages of the stage controller (40_pipeline.md R101 to R105), the sequence every
instruction goes through, and the controller one stage at a time. -/

namespace Sys2Proof.Machine

/-- What Fetch comes to (40_pipeline.md R101): the run has stopped, or an instruction was read and its
word latched. -/
inductive Fetched where
  | stopped (s : State)
  | instr (i : Instr) (s : State)
  deriving DecidableEq, Repr

/-- The test before a fetch and the reading part of Fetch (40_pipeline.md R111, R101), in the order of
60_exceptions.md R189: StepLimit, FetchFault, then the classification of the word. A HALT is an
instruction here; its stop is its meaning. -/
def fetchInstr (s : State) : Fetched :=
  if s.steps = s.params.maxStep then .stopped (s.raise (.stepLimit s.steps))
  else match accessFault s.params.memSize s.pc.toNat with
    | some _ => .stopped (s.setOffset.takeFault .fetch (.fetchFault s.pc))
    | none =>
      let w := s.mem.readWord s.params.littleEndian s.pc.toNat
      match decodeWord w with
      | .ok i => .instr i (s.latchIr w)
      | .error _ => .stopped ((s.latchIr w).openInstr.takeFault .fetch (.illegalOpcode s.pc w))

/-- The rest of Fetch for an instruction that goes past it: OFF and L.PC4, then the Frame
(40_pipeline.md R101). -/
def fetchStage (s : State) : State := (s.openInstr.emit .fetch false).goto .decode

/-- HALT in Fetch (45_halt.md R179): OFF and L.PC4, then the clean stop; no Frame. -/
def haltStage (s : State) : State := s.openInstr.raise (.halted s.pc)

/-- Decode's updates before its Frame (40_pipeline.md R102): L.RD2 is written only when RA2SEL's
default is not `null` (10_state.md R34). -/
def decodeUpdate (c : Control) (f : Fields) (s : State) : State :=
  let ra2 := s.signals.ra2Sel.apply c.ra2Sel
  { s with
    latches := { s.latches with
      lit := sext32 f.lit, ra := f.ra, rb := f.rb, rc := f.rc, rd1 := s.reg f.ra,
      rd2 := if c.ra2Sel.isSome then readPort2 s ra2.value f else s.latches.rd2 }
    signals := { s.signals with ra2Sel := ra2 } }

/-- Decode (40_pipeline.md R102). -/
def decodeStage (c : Control) (f : Fields) (s : State) : State :=
  ((decodeUpdate c f s).emit .decode false).goto .execute

/-- The ALU in Execute: with a `null` operation L.ALUOUT keeps its value and V and DZ are false
(40_pipeline.md R103, 10_state.md R40, R41). -/
def runAlu (op : Option AluOp) (a b held : Word) : AluResult :=
  match op with
  | some o => alu a b o
  | none => AluResult.plain held

/-- Execute's updates before its Frame (40_pipeline.md R103). -/
def executeUpdate (c : Control) (op : Option AluOp) (s : State) : State :=
  let aSel := s.signals.aSel.apply c.aSel
  let bSel := s.signals.bSel.apply c.bSel
  let z := zeroFlag s.latches.rd1 s.latches.rd2
  let out := runAlu op (aluInputA s.latches aSel.value) (aluInputB s.latches bSel.value) s.latches.aluOut
  { s with
    latches := { s.latches with aluOut := out.r }
    signals := { s.signals with
      aSel := aSel, bSel := bSel, pcSel := s.signals.pcSel.applyPc z c.pcSel }
    zero := z
    overflow := out.v
    divideByZero := out.dz }

/-- Execute (40_pipeline.md R103). -/
def executeStage (c : Control) (op : Option AluOp) (s : State) : State :=
  ((executeUpdate c op s).emit .execute false).goto .memory

/-- The data access of Memory (40_pipeline.md R104): the read comes first, and sees memory before the
write. -/
def memoryAccess (mwr moe : Bool) (s : State) : State :=
  let a := s.latches.aluOut.toNat
  { s with
    latches := { s.latches with
      memData := if moe then s.mem.readWord s.params.littleEndian a else s.latches.memData }
    mem := if mwr then s.mem.writeWord s.params.littleEndian a s.latches.rd2 else s.mem }

/-- Memory's signals, applied before the access (40_pipeline.md R104). -/
def memorySignals (c : Control) (s : State) : State :=
  { s with signals := { s.signals with
      mwr := s.signals.mwr.apply c.mwr, moe := s.signals.moe.apply c.moe } }

/-- What Memory comes to: the run has stopped by a MemoryFault, or the instruction goes on. -/
inductive MemoryOutcome where
  | stopped (s : State)
  | done (s : State)
  deriving DecidableEq, Repr

/-- Memory (40_pipeline.md R104): an access that is not admitted is not performed and stops the run
with a MemoryFault (20_memory.md R60, 60_exceptions.md R188). -/
def memoryStage (c : Control) (s : State) : MemoryOutcome :=
  let t := memorySignals c s
  let mwr := t.signals.mwr.value
  let moe := t.signals.moe.value
  if mwr || moe then
    match accessFault t.params.memSize t.latches.aluOut.toNat with
    | some kind => .stopped (t.takeFault .memory (.memoryFault kind t.latches.aluOut))
    | none => .done (((memoryAccess mwr moe t).emit .memory false).goto .writeBack)
  else .done ((t.emit .memory false).goto .writeBack)

/-- WriteBack's signals (40_pipeline.md R105). -/
def writeBackSignals (c : Control) (s : State) : State :=
  { s with signals := { s.signals with
      wdSel := s.signals.wdSel.apply c.wdSel, werf := s.signals.werf.apply c.werf,
      waSel := s.signals.waSel.apply c.waSel } }

/-- The register write of WriteBack, the only one of the CORE (40_pipeline.md R105, 10_state.md R24). -/
def registerWrite (s : State) : State :=
  if s.signals.werf.value then
    s.writeReg (writeBackReg s.latches s.signals.waSel.value)
      (writeBackData s.latches s.signals.wdSel.value)
  else s

/-- The program counter takes the next-PC value (40_pipeline.md R105, R106). -/
def advancePc (s : State) : State := { s with pc := nextPc s.latches s.signals.pcSel.value }

/-- One more instruction has retired (10_state.md R44). -/
def countStep (s : State) : State := { s with steps := s.steps + 1 }

/-- WriteBack (40_pipeline.md R105). -/
def writeBackStage (c : Control) (s : State) : State :=
  (countStep ((advancePc (registerWrite (writeBackSignals c s))).emit .writeBack false)).goto .fetch

/-- Memory, then WriteBack unless the run has stopped. -/
def finishInstr (c : Control) (s : State) : State :=
  match memoryStage c s with
  | .stopped t => t
  | .done t => writeBackStage c t

/-- All that follows the reading of an instruction's word: the rest of Fetch, Decode, Execute, Memory
and WriteBack (40_pipeline.md R111), under the instruction's defaults, ALU operation and fields. -/
def runStages (c : Control) (op : Option AluOp) (f : Fields) (s : State) : State :=
  finishInstr c (executeStage c op (decodeStage c f (fetchStage s)))

/-! ### The controller one stage at a time -/

/-- The instruction in flight, the one L.IR holds (40_pipeline.md R97). HALT never goes past Fetch, so it
is never in flight; neither is an illegal word. -/
def inFlight (s : State) : Option Instr :=
  match decodeWord s.latches.ir with
  | .ok i => if i.op = .halt then none else some i
  | .error _ => none

/-- Run the stage the stage register names (10_state.md R43) for the instruction in flight. -/
def runStage (i : Instr) (s : State) : State :=
  match s.stage with
  | .fetch => fetchStage s
  | .decode => decodeStage (opControl i.op) i.fields s
  | .execute => executeStage (opControl i.op) (opAlu i.op) s
  | .memory =>
    match memoryStage (opControl i.op) s with
    | .stopped t => t
    | .done t => t
  | .writeBack => writeBackStage (opControl i.op) s

/-- The Fetch stage (40_pipeline.md R101). -/
def fetchTick (s : State) : State :=
  match fetchInstr s with
  | .stopped t => t
  | .instr i t => if i.op = .halt then haltStage t else fetchStage t

/-- One stage of the stage controller (10_state.md R43). -/
def tick (s : State) : Host.Outcome State Fault Refusal :=
  match s.status with
  | .stopped stop => .fault (.runEnded stop)
  | .running =>
    if s.stage = .fetch then .next (fetchTick s)
    else match inFlight s with
      | some i => .next (runStage i s)
      | none => .refused (.nothingInFlight s.latches.ir)

/-- Run stages until the stage register is back at Fetch or the run has stopped, at most `n` of them. -/
def ticks : Nat → State → Host.Outcome State Fault Refusal
  | 0, s => .next s
  | n + 1, s =>
    match tick s with
    | .next t => if t.stage = .fetch ∨ t.status ≠ .running then .next t else ticks n t
    | .fault e => .fault e
    | .refused e => .refused e

end Sys2Proof.Machine
end

