-- ==== Sys2Proof/Machine/ControlTransfer.lean ====
section
/-! DEFINITION. The control-transfer instructions (44_control_transfer.md R171 to R178) and HALT
(45_halt.md R179). -/

namespace Sys2Proof.Machine

/-- BEQ(Ra, literal, Rc), branch if `x[Ra]` is zero, linking `pc + 4` in Rc (R176). -/
def execBeq (ra : RegIdx) (lit : Literal) (rc : RegIdx) (s : State) : Host.Outcome State Fault Refusal :=
  .next (runStages rowBeq (some .add) { lit := lit, ra := ra, rb := 31, rc := rc } s)

/-- BNE(Ra, literal, Rc), branch if `x[Ra]` is not zero, linking `pc + 4` in Rc (R177). -/
def execBne (ra : RegIdx) (lit : Literal) (rc : RegIdx) (s : State) : Host.Outcome State Fault Refusal :=
  .next (runStages rowBne (some .add) { lit := lit, ra := ra, rb := 31, rc := rc } s)

/-- JMP(Ra, Rc), jump to `x[Ra] & 0xFFFFFFFC`, linking `pc + 4` in Rc (R178). -/
def execJmp (ra rc : RegIdx) (s : State) : Host.Outcome State Fault Refusal :=
  .next (runStages rowJmp none { lit := 0, ra := ra, rb := 31, rc := rc } s)

/-- HALT(), the clean stop: no stage after Fetch runs (R179). -/
def execHalt (s : State) : Host.Outcome State Fault Refusal := .next (haltStage s)

end Sys2Proof.Machine
end

