-- ==== Sys2Proof/Machine/LoadStore.lean ====
section
/-! DEFINITION. The load and store instructions (43_load_store.md R165 to R170). -/

namespace Sys2Proof.Machine

/-- LD(Ra, literal, Rc), load word (R168). -/
def execLd (ra : RegIdx) (lit : Literal) (rc : RegIdx) (s : State) : Host.Outcome State Fault Refusal :=
  .next (runStages rowLd (some .add) { lit := lit, ra := ra, rb := 31, rc := rc } s)

/-- ST(Rc, literal, Ra), store word: Rc is the data register, Ra the base (R169). -/
def execSt (rc : RegIdx) (lit : Literal) (ra : RegIdx) (s : State) : Host.Outcome State Fault Refusal :=
  .next (runStages rowSt (some .add) { lit := lit, ra := ra, rb := 31, rc := rc } s)

/-- LDR(literal, Rc), load word PC-relative (R170). The Ra field reaches L.RD1 and Z only. -/
def execLdr (ra : RegIdx) (lit : Literal) (rc : RegIdx) (s : State) : Host.Outcome State Fault Refusal :=
  .next (runStages rowLdr (some .add) { lit := lit, ra := ra, rb := 31, rc := rc } s)

end Sys2Proof.Machine
end

