-- ==== Sys2Proof/Machine/OperateLit.lean ====
section
/-! DEFINITION. The operate instructions of OPC format (42_operate.md R136, R151 to R164). -/

namespace Sys2Proof.Machine

/-- An OPC-format instruction (42_operate.md R136): `x[Rc] <- f(x[Ra], sext_32(literal))`,
`pc <- pc + 4`; L.RD2 and RA2SEL are held. -/
def operateLit (op : AluOp) (ra : RegIdx) (lit : Literal) (rc : RegIdx) (s : State) :
    Host.Outcome State Fault Refusal :=
  .next (runStages rowOpc (some op) { lit := lit, ra := ra, rb := 31, rc := rc } s)

/-- ADDC(Ra, literal, Rc), two's-complement addition with a literal (R151). -/
def execAddc (ra : RegIdx) (lit : Literal) (rc : RegIdx) (s : State) :
    Host.Outcome State Fault Refusal :=
  operateLit .add ra lit rc s

/-- SUBC(Ra, literal, Rc), two's-complement subtraction with a literal (R152). -/
def execSubc (ra : RegIdx) (lit : Literal) (rc : RegIdx) (s : State) :
    Host.Outcome State Fault Refusal :=
  operateLit .sub ra lit rc s

/-- MULC(Ra, literal, Rc), the low 32 bits of the product with a literal (R153). -/
def execMulc (ra : RegIdx) (lit : Literal) (rc : RegIdx) (s : State) :
    Host.Outcome State Fault Refusal :=
  operateLit .mul ra lit rc s

/-- DIVC(Ra, literal, Rc), signed division truncated toward zero with a literal (R154). -/
def execDivc (ra : RegIdx) (lit : Literal) (rc : RegIdx) (s : State) :
    Host.Outcome State Fault Refusal :=
  operateLit .div ra lit rc s

/-- CMPEQC(Ra, literal, Rc), compare equal with a literal (R155). -/
def execCmpeqc (ra : RegIdx) (lit : Literal) (rc : RegIdx) (s : State) :
    Host.Outcome State Fault Refusal :=
  operateLit .cmpeq ra lit rc s

/-- CMPLTC(Ra, literal, Rc), signed compare less than with a literal (R156). -/
def execCmpltc (ra : RegIdx) (lit : Literal) (rc : RegIdx) (s : State) :
    Host.Outcome State Fault Refusal :=
  operateLit .cmplt ra lit rc s

/-- CMPLEC(Ra, literal, Rc), signed compare less than or equal with a literal (R157). -/
def execCmplec (ra : RegIdx) (lit : Literal) (rc : RegIdx) (s : State) :
    Host.Outcome State Fault Refusal :=
  operateLit .cmple ra lit rc s

/-- ANDC(Ra, literal, Rc), bitwise AND with a literal (R158). -/
def execAndc (ra : RegIdx) (lit : Literal) (rc : RegIdx) (s : State) :
    Host.Outcome State Fault Refusal :=
  operateLit .and ra lit rc s

/-- ORC(Ra, literal, Rc), bitwise OR with a literal (R159). -/
def execOrc (ra : RegIdx) (lit : Literal) (rc : RegIdx) (s : State) :
    Host.Outcome State Fault Refusal :=
  operateLit .or ra lit rc s

/-- XORC(Ra, literal, Rc), bitwise exclusive OR with a literal (R160). -/
def execXorc (ra : RegIdx) (lit : Literal) (rc : RegIdx) (s : State) :
    Host.Outcome State Fault Refusal :=
  operateLit .xor ra lit rc s

/-- XNORC(Ra, literal, Rc), bitwise exclusive NOR with a literal (R161). -/
def execXnorc (ra : RegIdx) (lit : Literal) (rc : RegIdx) (s : State) :
    Host.Outcome State Fault Refusal :=
  operateLit .xnor ra lit rc s

/-- SHLC(Ra, literal, Rc), shift left logical with a literal (R162). -/
def execShlc (ra : RegIdx) (lit : Literal) (rc : RegIdx) (s : State) :
    Host.Outcome State Fault Refusal :=
  operateLit .shl ra lit rc s

/-- SHRC(Ra, literal, Rc), shift right logical with a literal (R163). -/
def execShrc (ra : RegIdx) (lit : Literal) (rc : RegIdx) (s : State) :
    Host.Outcome State Fault Refusal :=
  operateLit .shr ra lit rc s

/-- SRAC(Ra, literal, Rc), shift right arithmetic with a literal (R164). -/
def execSrac (ra : RegIdx) (lit : Literal) (rc : RegIdx) (s : State) :
    Host.Outcome State Fault Refusal :=
  operateLit .sra ra lit rc s

end Sys2Proof.Machine
end

