-- ==== Sys2Proof/Machine/OperateReg.lean ====
section
/-! DEFINITION. The operate instructions of OP format (42_operate.md R135, R137 to R150). -/

namespace Sys2Proof.Machine

/-- An OP-format instruction (42_operate.md R135): `x[Rc] <- f(x[Ra], x[Rb])`, `pc <- pc + 4`. -/
def operateReg (op : AluOp) (ra rb rc : RegIdx) (s : State) : Host.Outcome State Fault Refusal :=
  .next (runStages rowOp (some op) { lit := 0, ra := ra, rb := rb, rc := rc } s)

/-- ADD(Ra, Rb, Rc), two's-complement addition (R137). -/
def execAdd (ra rb rc : RegIdx) (s : State) : Host.Outcome State Fault Refusal :=
  operateReg .add ra rb rc s

/-- SUB(Ra, Rb, Rc), two's-complement subtraction (R138). -/
def execSub (ra rb rc : RegIdx) (s : State) : Host.Outcome State Fault Refusal :=
  operateReg .sub ra rb rc s

/-- MUL(Ra, Rb, Rc), the low 32 bits of the product (R139). -/
def execMul (ra rb rc : RegIdx) (s : State) : Host.Outcome State Fault Refusal :=
  operateReg .mul ra rb rc s

/-- DIV(Ra, Rb, Rc), signed division truncated toward zero (R140). -/
def execDiv (ra rb rc : RegIdx) (s : State) : Host.Outcome State Fault Refusal :=
  operateReg .div ra rb rc s

/-- CMPEQ(Ra, Rb, Rc), compare equal (R141). -/
def execCmpeq (ra rb rc : RegIdx) (s : State) : Host.Outcome State Fault Refusal :=
  operateReg .cmpeq ra rb rc s

/-- CMPLT(Ra, Rb, Rc), signed compare less than (R142). -/
def execCmplt (ra rb rc : RegIdx) (s : State) : Host.Outcome State Fault Refusal :=
  operateReg .cmplt ra rb rc s

/-- CMPLE(Ra, Rb, Rc), signed compare less than or equal (R143). -/
def execCmple (ra rb rc : RegIdx) (s : State) : Host.Outcome State Fault Refusal :=
  operateReg .cmple ra rb rc s

/-- AND(Ra, Rb, Rc), bitwise AND (R144). -/
def execAnd (ra rb rc : RegIdx) (s : State) : Host.Outcome State Fault Refusal :=
  operateReg .and ra rb rc s

/-- OR(Ra, Rb, Rc), bitwise OR (R145). -/
def execOr (ra rb rc : RegIdx) (s : State) : Host.Outcome State Fault Refusal :=
  operateReg .or ra rb rc s

/-- XOR(Ra, Rb, Rc), bitwise exclusive OR (R146). -/
def execXor (ra rb rc : RegIdx) (s : State) : Host.Outcome State Fault Refusal :=
  operateReg .xor ra rb rc s

/-- XNOR(Ra, Rb, Rc), bitwise exclusive NOR (R147). -/
def execXnor (ra rb rc : RegIdx) (s : State) : Host.Outcome State Fault Refusal :=
  operateReg .xnor ra rb rc s

/-- SHL(Ra, Rb, Rc), shift left logical (R148). -/
def execShl (ra rb rc : RegIdx) (s : State) : Host.Outcome State Fault Refusal :=
  operateReg .shl ra rb rc s

/-- SHR(Ra, Rb, Rc), shift right logical (R149). -/
def execShr (ra rb rc : RegIdx) (s : State) : Host.Outcome State Fault Refusal :=
  operateReg .shr ra rb rc s

/-- SRA(Ra, Rb, Rc), shift right arithmetic (R150). -/
def execSra (ra rb rc : RegIdx) (s : State) : Host.Outcome State Fault Refusal :=
  operateReg .sra ra rb rc s

end Sys2Proof.Machine
end

