-- ==== Sys2Proof/Machine/Dispatch.lean ====
section
/-! DEFINITION. The meaning of every instruction, one arm a constructor of `Instr`. -/

namespace Sys2Proof.Machine

def exec (i : Instr) (s : State) : Host.Outcome State Fault Refusal :=
  match i with
  | .halt => Sys2Proof.Machine.execHalt s
  | .ld ra lit rc => Sys2Proof.Machine.execLd ra lit rc s
  | .st rc lit ra => Sys2Proof.Machine.execSt rc lit ra s
  | .jmp ra rc => Sys2Proof.Machine.execJmp ra rc s
  | .beq ra lit rc => Sys2Proof.Machine.execBeq ra lit rc s
  | .bne ra lit rc => Sys2Proof.Machine.execBne ra lit rc s
  | .ldr ra lit rc => Sys2Proof.Machine.execLdr ra lit rc s
  | .add ra rb rc => Sys2Proof.Machine.execAdd ra rb rc s
  | .sub ra rb rc => Sys2Proof.Machine.execSub ra rb rc s
  | .mul ra rb rc => Sys2Proof.Machine.execMul ra rb rc s
  | .div ra rb rc => Sys2Proof.Machine.execDiv ra rb rc s
  | .cmpeq ra rb rc => Sys2Proof.Machine.execCmpeq ra rb rc s
  | .cmplt ra rb rc => Sys2Proof.Machine.execCmplt ra rb rc s
  | .cmple ra rb rc => Sys2Proof.Machine.execCmple ra rb rc s
  | .and ra rb rc => Sys2Proof.Machine.execAnd ra rb rc s
  | .or ra rb rc => Sys2Proof.Machine.execOr ra rb rc s
  | .xor ra rb rc => Sys2Proof.Machine.execXor ra rb rc s
  | .xnor ra rb rc => Sys2Proof.Machine.execXnor ra rb rc s
  | .shl ra rb rc => Sys2Proof.Machine.execShl ra rb rc s
  | .shr ra rb rc => Sys2Proof.Machine.execShr ra rb rc s
  | .sra ra rb rc => Sys2Proof.Machine.execSra ra rb rc s
  | .addc ra lit rc => Sys2Proof.Machine.execAddc ra lit rc s
  | .subc ra lit rc => Sys2Proof.Machine.execSubc ra lit rc s
  | .mulc ra lit rc => Sys2Proof.Machine.execMulc ra lit rc s
  | .divc ra lit rc => Sys2Proof.Machine.execDivc ra lit rc s
  | .cmpeqc ra lit rc => Sys2Proof.Machine.execCmpeqc ra lit rc s
  | .cmpltc ra lit rc => Sys2Proof.Machine.execCmpltc ra lit rc s
  | .cmplec ra lit rc => Sys2Proof.Machine.execCmplec ra lit rc s
  | .andc ra lit rc => Sys2Proof.Machine.execAndc ra lit rc s
  | .orc ra lit rc => Sys2Proof.Machine.execOrc ra lit rc s
  | .xorc ra lit rc => Sys2Proof.Machine.execXorc ra lit rc s
  | .xnorc ra lit rc => Sys2Proof.Machine.execXnorc ra lit rc s
  | .shlc ra lit rc => Sys2Proof.Machine.execShlc ra lit rc s
  | .shrc ra lit rc => Sys2Proof.Machine.execShrc ra lit rc s
  | .srac ra lit rc => Sys2Proof.Machine.execSrac ra lit rc s

end Sys2Proof.Machine
end

