-- ==== Sys2Proof/Machine/Step.lean ====
section
/-! DEFINITION. One step of the machine: one pass of the run loop (40_pipeline.md R111). -/

namespace Sys2Proof.Machine

/-- One step. While the run goes on and the stage register is at Fetch, it is one pass of the loop of
40_pipeline.md R111: the step-limit test, the fetch, and the meaning of the instruction read. In a
state whose stage register is past Fetch, which no step leaves behind while the run goes on, it
finishes the instruction in flight (log 5). After a stop nothing runs (log 4). -/
def step (s : State) : Host.Outcome State Fault Refusal :=
  match s.status with
  | .stopped stop => .fault (.runEnded stop)
  | .running =>
    if s.stage = .fetch then
      match fetchInstr s with
      | .stopped t => .next t
      | .instr i t => exec i t
    else ticks 4 s

/-- `s` with the `nbits` low bits of `w` stored as the instruction word at `pc`, in the run's byte
order: the caller's placing of a program in memory (70_reset_and_hazards.md R205, log 6). -/
def State.withFetchWord (s : State) (nbits w : Nat) : State :=
  { s with mem := s.mem.writeWord s.params.littleEndian s.pc.toNat (BitVec.ofNat 32 (w % 2 ^ nbits)) }

end Sys2Proof.Machine
end

