-- ==== Sys2Proof/Machine/Run.lean ====
section
/-! DEFINITION. The run interface (40_pipeline.md R96): the inputs of a run, its start, and the loop of
R111 to its stop. -/

namespace Sys2Proof.Machine

/-- The inputs of a run, with the defaults of 00_scope.md R10. `mem` is the byte array; MEM_SIZE is its
length. INIT_REGS and INIT_PC are integers, reduced modulo 2^32 (70_reset_and_hazards.md R203). -/
structure RunInputs where
  mem : List Byte
  littleEndian : Bool := Config.defaultLittleEndian
  initPc : Int := Config.defaultInitPc
  initRegs : List Int := Config.defaultInitRegs
  maxStep : Nat := Config.defaultMaxStep
  deriving DecidableEq, Repr

/-- INIT_REGS has exactly 32 entries (70_reset_and_hazards.md R203). -/
def RunInputs.wellFormed (i : RunInputs) : Bool := i.initRegs.length == 32

/-- The reset state of a run (70_reset_and_hazards.md R201), or the refusal R203 asks for. -/
def State.start (i : RunInputs) : Host.Outcome State Fault Refusal :=
  if i.wellFormed then
    .next (State.resetWith (Memory.ofBytes i.mem)
      { memSize := i.mem.length, littleEndian := i.littleEndian, maxStep := i.maxStep }
      i.initPc i.initRegs)
  else .refused (.badInitRegs i.initRegs.length)

/-- At most `n` steps, ending at the first state whose run has stopped (40_pipeline.md R111). -/
def runLoop : Nat → State → Host.Outcome State Fault Refusal
  | 0, s => .next s
  | n + 1, s =>
    match s.status with
    | .stopped _ => .next s
    | .running =>
      match step s with
      | .next t => runLoop n t
      | .fault e => .fault e
      | .refused e => .refused e

/-- `simulate` (40_pipeline.md R96): the final state of a run, whose `trace` and `status` are the
CORE's outputs. MAX_STEP + 1 passes of the loop are enough: at most MAX_STEP instructions retire
(R111), and one pass more stops. -/
def simulate (i : RunInputs) : Host.Outcome State Fault Refusal :=
  match State.start i with
  | .next s => runLoop (i.maxStep + 1) s
  | .fault e => .fault e
  | .refused e => .refused e

end Sys2Proof.Machine
end

