-- ==== Sys2Proof/Machine/Assembler.lean ====
section
/-! DEFINITION. The assembler, as far as the spec defines it (30_encoding.md R88 to R95): from statements
to a memory image. It is software around the CORE (00_scope.md R5). Reading text into statements is
out of scope (R6, log 12). -/

namespace Sys2Proof.Machine

/-- An argument: a signed decimal integer or a register symbol (30_encoding.md R88). -/
inductive Arg where
  | int (n : Int)
  | reg (symbol : String)
  deriving DecidableEq, Repr

/-- A statement `MNEMONIC(arg1, arg2, ...)` (30_encoding.md R88). -/
structure Statement where
  mnemonic : String
  args : List Arg
  deriving DecidableEq, Repr

/-- The seven kinds of assembler error (30_encoding.md R94). -/
inductive AsmErrorKind where
  | unknownInstruction
  | arityError
  | operandTypeError
  | rangeError
  | internalEncodingError
  | bufferBoundsError
  | missingHaltError
  deriving DecidableEq, Repr

/-- An assembler error: its kind, and the mnemonic and argument index that each error names
(30_encoding.md R94). DESIGN CHOICE (log 12): the index counts from 0, the first argument being 0, and
it is 0 where no single argument is at fault; the mnemonic is spelled as the statement spells it. -/
structure AsmError where
  kind : AsmErrorKind
  mnemonic : String
  argument : Nat
  deriving DecidableEq, Repr

/-- The mnemonics of 30_encoding.md R86. -/
def opMnemonic : Op → String
  | .halt => "HALT"
  | .ld => "LD"
  | .st => "ST"
  | .jmp => "JMP"
  | .beq => "BEQ"
  | .bne => "BNE"
  | .ldr => "LDR"
  | .add => "ADD"
  | .sub => "SUB"
  | .mul => "MUL"
  | .div => "DIV"
  | .cmpeq => "CMPEQ"
  | .cmplt => "CMPLT"
  | .cmple => "CMPLE"
  | .and => "AND"
  | .or => "OR"
  | .xor => "XOR"
  | .xnor => "XNOR"
  | .shl => "SHL"
  | .shr => "SHR"
  | .sra => "SRA"
  | .addc => "ADDC"
  | .subc => "SUBC"
  | .mulc => "MULC"
  | .divc => "DIVC"
  | .cmpeqc => "CMPEQC"
  | .cmpltc => "CMPLTC"
  | .cmplec => "CMPLEC"
  | .andc => "ANDC"
  | .orc => "ORC"
  | .xorc => "XORC"
  | .xnorc => "XNORC"
  | .shlc => "SHLC"
  | .shrc => "SHRC"
  | .srac => "SRAC"

/-- A spelling with case set aside (30_encoding.md R89). -/
def foldCase (s : String) : List Char := s.toList.map Char.toUpper

/-- The lookup by mnemonic, case-insensitive (30_encoding.md R89); the 35 mnemonics alone (R95). -/
def opOfMnemonic (m : String) : Option Op :=
  Op.all.find? (fun o => (opMnemonic o).toList == foldCase m)

/-- R0 to R31 and the aliases BP, LP, SP and XP (30_encoding.md R88, 10_state.md R22). -/
def registerSymbols : List (List Char × RegIdx) :=
  (List.range 32).map (fun n => ('R' :: Nat.toDigits 10 n, BitVec.ofNat 5 n)) ++
  [("BP".toList, 27), ("LP".toList, 28), ("SP".toList, 29), ("XP".toList, 30)]

/-- The register a symbol names, case-insensitive (30_encoding.md R89). -/
def registerOfSymbol (s : String) : Option RegIdx :=
  (registerSymbols.find? (fun e => e.1 == foldCase s)).map Prod.snd

/-- `p[d] := value` for a register role (30_encoding.md R91). -/
def setRegister (f : Fields) (r : RegIdx) : Role → Fields
  | .literal => f
  | .ra => { f with ra := r }
  | .rb => { f with rb := r }
  | .rc => { f with rc := r }

/-- Check argument `k` against its `af` digit and put its value in the parameter array
(30_encoding.md R90, R91). The literal is kept as its low 16 bits. DESIGN CHOICE (log 12): a symbol that
names no register is an OperandTypeError. -/
def bindArg (m : String) (k : Nat) (d : Role) (a : Arg) (f : Fields) : Except AsmError Fields :=
  match d, a with
  | .literal, .int n =>
    if -32768 ≤ n ∧ n ≤ 32767 then .ok { f with lit := BitVec.ofInt 16 n }
    else .error ⟨.rangeError, m, k⟩
  | .literal, .reg _ => .error ⟨.operandTypeError, m, k⟩
  | .ra, .int _ | .rb, .int _ | .rc, .int _ => .error ⟨.operandTypeError, m, k⟩
  | d, .reg s =>
    match registerOfSymbol s with
    | some r => .ok (setRegister f r d)
    | none => .error ⟨.operandTypeError, m, k⟩

/-- Check the arguments from index `k` on, left to right. DESIGN CHOICE (log 12): the order, and that an index
counts from 0. -/
def bindArgs (m : String) : Nat → List Role → List Arg → Fields → Except AsmError Fields
  | _, [], [], f => .ok f
  | k, d :: ds, a :: as, f =>
    match bindArg m k d a f with
    | .ok g => bindArgs m (k + 1) ds as g
    | .error e => .error e
  | k, _, _, _ => .error ⟨.arityError, m, k⟩

/-- The parameter array of a statement of instruction `o`: the number of arguments first, then each
(30_encoding.md R90, R91); a role no argument gives keeps its default (R91). DESIGN CHOICE (log 12): the
first argument has index 0, and an ArityError names the smaller of the number of arguments and the number
of `af` digits, the index of the first argument that is missing or too many. -/
def statementFields (o : Op) (st : Statement) : Except AsmError Fields :=
  if st.args.length = o.af.length then bindArgs st.mnemonic 0 o.af st.args Fields.absent
  else .error ⟨.arityError, st.mnemonic, min st.args.length o.af.length⟩

/-- The word of a statement (30_encoding.md R90, R91), or the error that names it (R94). DESIGN CHOICE
(log 12): UnknownInstruction and InternalEncodingError are at fault in no single argument and name index
0. -/
def encodeStatement (st : Statement) : Except AsmError Word :=
  match opOfMnemonic st.mnemonic with
  | none => .error ⟨.unknownInstruction, st.mnemonic, 0⟩
  | some o =>
    match statementFields o st with
    | .error e => .error e
    | .ok f =>
      if mfWidth o.mf ≤ 26 then .ok (encodeFields o f)
      else .error ⟨.internalEncodingError, st.mnemonic, 0⟩

/-- The words of a program's statements; the first error aborts (30_encoding.md R94). -/
def encodeProgram : List Statement → Except AsmError (List Word)
  | [] => .ok []
  | st :: rest =>
    match encodeStatement st with
    | .error e => .error e
    | .ok w =>
      match encodeProgram rest with
      | .error e => .error e
      | .ok ws => .ok (w :: ws)

/-- The HALT word (30_encoding.md R92). -/
def haltWord : Word := 0

/-- A HALT at the end of the words (30_encoding.md R92). DESIGN CHOICE (log 12): MissingHaltError names the
mnemonic that is missing, HALT, and index 0. -/
def ensureHalt (auto : Bool) (ws : List Word) : Except AsmError (List Word) :=
  if ws.getLast? = some haltWord then .ok ws
  else if auto then .ok (ws ++ [haltWord])
  else .error ⟨.missingHaltError, opMnemonic .halt, 0⟩

/-- Replace the bytes of a buffer from `pos` on. -/
def overwrite (buffer : List Byte) (pos : Nat) (bs : List Byte) : List Byte :=
  buffer.take pos ++ bs ++ buffer.drop (pos + bs.length)

/-- The mnemonic of the first word that does not fit a buffer of `size` bytes from `offset` on: its
statement's, or HALT's for the HALT word the assembler appends. DESIGN CHOICE (log 12): it is the one a
BufferBoundsError names. -/
def misfitMnemonic (source : List Statement) (size : Nat) (offset : Int) : String :=
  let fitting := if offset < 0 then 0 else (size - offset.toNat) / 4
  ((source.map Statement.mnemonic)[fitting]?).getD (opMnemonic .halt)

/-- `assemble(source, buffer, offset, ensureHaltAtEnd, littleEndian)` (30_encoding.md R88): the buffer
with word `i` at byte `offset + 4*i`, or an error before anything is written (R93). -/
def assemble (source : List Statement) (buffer : List Byte) (offset : Int := 0)
    (ensureHaltAtEnd : Bool := true) (littleEndian : Bool := false) : Except AsmError (List Byte) :=
  match encodeProgram source with
  | .error e => .error e
  | .ok ws =>
    match ensureHalt ensureHaltAtEnd ws with
    | .error e => .error e
    | .ok ws' =>
      if 0 ≤ offset ∧ offset + 4 * ws'.length ≤ buffer.length then
        .ok (overwrite buffer offset.toNat (ws'.flatMap (bytesOfWord littleEndian)))
      else .error ⟨.bufferBoundsError, misfitMnemonic source buffer.length offset, 0⟩

end Sys2Proof.Machine
end

