-- ==== Sys2Proof/Safety.lean ====
section
/-! DEFINITION. The terms claims use: kinds of stop, how many Frames a stop adds, and the invariants of
the machine. -/

namespace Sys2Proof.Machine

/-- The code of a stop status (60_exceptions.md R185). -/
def Stop.code : Stop → Nat
  | .halted _ => 0
  | .stepLimit _ => 1
  | .illegalOpcode .. => 2
  | .fetchFault _ => 3
  | .memoryFault .. => 4

/-- Statuses 2 to 4 are faults (60_exceptions.md R185). -/
def Stop.isFault (s : Stop) : Bool := decide (2 ≤ s.code)

/-- The Frames of the stopping instruction (60_exceptions.md R185, 40_pipeline.md R112). -/
def Stop.frames : Stop → Nat
  | .halted _ | .stepLimit _ => 0
  | .illegalOpcode .. | .fetchFault _ => 1
  | .memoryFault .. => 4

/-- The Frames a run's status adds to five a retired instruction (40_pipeline.md R112). -/
def RunStatus.frames : RunStatus → Nat
  | .running => 0
  | .stopped stop => stop.frames

/-- Memory is in canonical form and lists only bytes of the array (10_state.md R46). -/
def State.memoryOk (s : State) : Prop :=
  s.mem.wf = true ∧ s.mem.within s.params.memSize = true

/-- Slot 31 of the register file holds 0 (10_state.md R21, R27). -/
def State.zeroSlotOk (s : State) : Prop := s.regs[31] = 0

/-- The program counter is a multiple of 4 (10_state.md R32). -/
def State.pcAligned (s : State) : Prop := s.pc.toNat % 4 = 0

/-- The counts of a run between instructions (10_state.md R43, R44, 40_pipeline.md R111, R112): while
it goes on, the stage register is at Fetch and at most MAX_STEP instructions have retired; the trace
has five Frames a retired instruction and those of the stop. -/
def State.countsOk (s : State) : Prop :=
  (s.status = .running → s.stage = .fetch) ∧ s.steps ≤ s.params.maxStep ∧
  s.trace.length = 5 * s.steps + s.status.frames

/-- WASEL selects Rc, never XP (40_pipeline.md R107). -/
def State.waSelOk (s : State) : Prop := s.signals.waSel.value = .rc

/-- The invariant of the machine between instructions, less pc alignment, which INIT_PC decides
(10_state.md R32). -/
structure State.Inv (s : State) : Prop where
  memory : s.memoryOk
  zeroSlot : s.zeroSlotOk
  counts : s.countsOk
  waSel : s.waSelOk

/-- A run's end that is no fault: HALT, or the caller's step limit (60_exceptions.md R185). -/
def State.endedWithoutFault (s : State) : Prop :=
  ∃ stop, s.status = .stopped stop ∧ stop.isFault = false

end Sys2Proof.Machine
end

