-- ==== Sys2Proof/Certificates/Slice0/Obligations.lean ====
section
/-! DEFINITION. The statements for the provers. First the terms they share, then one definition a
statement. A statement's docstring names the rules of spec/ it formalises; where a rule rests on a
decision the spec marks as its own, the decision is named. -/

namespace Sys2Proof.Claims

open Sys2Proof.Machine

/-! ### What a state keeps -/

/-- Register `rc` takes `v`, unless it is R31, whose write is discarded; every other register reads as
before. -/
def Writes (s t : State) (rc : RegIdx) (v : Word) : Prop :=
  ∀ r, t.reg r = if r = rc ∧ r ≠ 31 then v else s.reg r

/-- Every register reads as before. -/
def SameRegs (s t : State) : Prop := ∀ r, t.reg r = s.reg r

/-- Every byte of memory reads as before. -/
def SameMemory (s t : State) : Prop := ∀ a, t.mem.readByte a = s.mem.readByte a

/-- Every byte outside the four from `a` up reads as before. -/
def SameMemoryOutside (s t : State) (a : Nat) : Prop :=
  ∀ b, (b < a ∨ a + 4 ≤ b) → t.mem.readByte b = s.mem.readByte b

/-- What every instruction that retires does besides its effect: one step is counted, the controller is
back at Fetch, the run status and the run parameters are kept, and OFF holds the instruction's
address. -/
def Retired (s t : State) : Prop :=
  t.steps = s.steps + 1 ∧ t.stage = .fetch ∧ t.status = s.status ∧ t.params = s.params ∧
  t.offset = s.pc

/-- A signal an instruction sets (10_state.md R37). -/
def driven {α : Type} (v : α) : Signal α := { value := v, dirty := false }

/-- A signal an instruction holds (10_state.md R37). -/
def held {α : Type} (g : Signal α) : Signal α := { value := g.value, dirty := true }

/-- An exact result lies outside [-2^31, 2^31-1]. -/
def outside32 (n : Int) : Bool := decide (n < -2147483648 ∨ 2147483647 < n)

/-- A flag that is never set. -/
def never (_ _ : Word) : Bool := false

/-- A word access at `a` is admitted (20_memory.md R60). -/
def Admitted (s : State) (a : Word) : Prop := a.toNat % 4 = 0 ∧ a.toNat + 4 ≤ s.params.memSize

/-- The word at `a` in the run's byte order (20_memory.md R57). -/
def wordAt (s : State) (a : Nat) : Word :=
  if s.params.littleEndian then
    s.mem.readByte (a + 3) ++ s.mem.readByte (a + 2) ++ s.mem.readByte (a + 1) ++ s.mem.readByte a
  else
    s.mem.readByte a ++ s.mem.readByte (a + 1) ++ s.mem.readByte (a + 2) ++ s.mem.readByte (a + 3)

/-- The run goes on and the controller is at Fetch. -/
def AtFetch (s : State) : Prop := s.status = .running ∧ s.stage = .fetch

/-! ### Operate instructions -/

/-- All that an OP-format instruction with result `r` and flags `v`, `dz` does (42_operate.md R135). -/
def OperatesReg (s t : State) (ra rb rc : RegIdx) (r : Word) (v dz : Bool) : Prop :=
  Writes s t rc r ∧ SameMemory s t ∧ t.pc = s.pc + 4 ∧ Retired s t ∧
  t.zero = decide (s.reg ra = s.reg rb) ∧ t.overflow = v ∧ t.divideByZero = dz ∧
  t.latches = { s.latches with
    pc4 := s.pc + 4, lit := 0, ra := ra, rb := rb, rc := rc, rd1 := s.reg ra, rd2 := s.reg rb,
    aluOut := r } ∧
  t.signals =
    { pcSel := driven .pc4, ra2Sel := driven .rb, aSel := driven .rd1, bSel := driven .rd2,
      wdSel := driven .aluOut, mwr := driven false, moe := driven false, werf := driven true,
      waSel := driven .rc }

/-- All that an OPC-format instruction with result `r` and flags `v`, `dz` does (42_operate.md R136):
L.RD2 and RA2SEL are held, and Z compares with the held L.RD2. -/
def OperatesLit (s t : State) (ra : RegIdx) (lit : Literal) (rc : RegIdx) (r : Word) (v dz : Bool) :
    Prop :=
  Writes s t rc r ∧ SameMemory s t ∧ t.pc = s.pc + 4 ∧ Retired s t ∧
  t.zero = decide (s.reg ra = s.latches.rd2) ∧ t.overflow = v ∧ t.divideByZero = dz ∧
  t.latches = { s.latches with
    pc4 := s.pc + 4, lit := lit.signExtend 32, ra := ra, rb := 31, rc := rc, rd1 := s.reg ra,
    aluOut := r } ∧
  t.signals =
    { pcSel := driven .pc4, ra2Sel := held s.signals.ra2Sel, aSel := driven .rd1,
      bSel := driven .lit, wdSel := driven .aluOut, mwr := driven false, moe := driven false,
      werf := driven true, waSel := driven .rc }

/-- An OP-format instruction completes, from every state and for all operands, with result `f`,
overflow `v` and divide-by-zero `dz` of its two source registers. -/
def RegForm (i : RegIdx → RegIdx → RegIdx → Instr) (f : Word → Word → Word)
    (v dz : Word → Word → Bool) : Prop :=
  ∀ s ra rb rc, ∃ t, exec (i ra rb rc) s = .next t ∧
    OperatesReg s t ra rb rc (f (s.reg ra) (s.reg rb)) (v (s.reg ra) (s.reg rb))
      (dz (s.reg ra) (s.reg rb))

/-- The same of an OPC-format instruction and its register and sign-extended literal. -/
def LitForm (i : RegIdx → Literal → RegIdx → Instr) (f : Word → Word → Word)
    (v dz : Word → Word → Bool) : Prop :=
  ∀ s ra lit rc, ∃ t, exec (i ra lit rc) s = .next t ∧
    OperatesLit s t ra lit rc (f (s.reg ra) (lit.signExtend 32)) (v (s.reg ra) (lit.signExtend 32))
      (dz (s.reg ra) (lit.signExtend 32))

/-- The quotient rounded toward zero, and 0 for a zero divisor (41_alu.md R121). -/
def quotient (a b : Word) : Word := if b = 0 then 0 else BitVec.ofInt 32 (a.toInt.tdiv b.toInt)

/-- 1 or 0. -/
def bit (p : Prop) [Decidable p] : Word := if p then 1 else 0

/-! ### Loads, stores and control transfer -/

/-- All that a load from `ea` does to registers, memory, pc and DZ: Rc takes the word at `ea`, and nothing
else changes. -/
def Loads (s t : State) (rc : RegIdx) (ea : Word) : Prop :=
  Writes s t rc (wordAt s ea.toNat) ∧ SameMemory s t ∧ t.pc = s.pc + 4 ∧ Retired s t ∧
  t.divideByZero = false

/-- The byte of `v` that a store puts at offset `k` of the four (20_memory.md R58). -/
def storedByte (s : State) (v : Word) (k : Nat) : Byte :=
  if s.params.littleEndian then v.extractLsb' (8 * k) 8 else v.extractLsb' (24 - 8 * k) 8

/-- All that a control transfer has in common: Rc takes the link `pc + 4`, memory is kept, V and DZ are
false, and the next pc is `target`. -/
def Transfers (s t : State) (rc : RegIdx) (target : Word) : Prop :=
  Writes s t rc (s.pc + 4) ∧ SameMemory s t ∧ t.pc = target ∧ Retired s t ∧
  t.overflow = false ∧ t.divideByZero = false

/-- A conditional branch completes, from every state and for all operands: it goes to
`pc + 4 + 4 * literal` when `taken` holds of `x[Ra]`, and to `pc + 4` otherwise; Z is `x[Ra] = 0`. -/
def BranchForm (i : RegIdx → Literal → RegIdx → Instr) (taken : Word → Bool) : Prop :=
  ∀ s ra lit rc, ∃ t, exec (i ra lit rc) s = .next t ∧
    Transfers s t rc
      (if taken (s.reg ra) then s.pc + 4 + 4 * lit.signExtend 32 else s.pc + 4) ∧
    t.zero = decide (s.reg ra = 0) ∧
    t.latches = { s.latches with
      pc4 := s.pc + 4, lit := lit.signExtend 32, ra := ra, rb := 31, rc := rc, rd1 := s.reg ra,
      rd2 := 0, aluOut := s.pc + 4 + 4 * lit.signExtend 32 } ∧
    t.signals =
      { pcSel := driven (if taken (s.reg ra) then .aluOut else .pc4), ra2Sel := driven .rb,
        aSel := driven .target, bSel := driven .rd2, wdSel := driven .pc4, mwr := driven false,
        moe := driven false, werf := driven true, waSel := driven .rc }

/-- The kind of a data access that is not admitted: Misaligned when both tests fail (20_memory.md R60). -/
def faultKind (ea : Word) : AccessKind := if ea.toNat % 4 ≠ 0 then .misaligned else .outOfBounds

/-! ### Frames -/

/-- The nine focus bits of a Frame, in the order of 10_state.md R36. -/
def focusBits (f : Frame) : List Bool :=
  [f.signals.pcSel.focus, f.signals.ra2Sel.focus, f.signals.aSel.focus, f.signals.bSel.focus,
   f.signals.wdSel.focus, f.signals.mwr.focus, f.signals.moe.focus, f.signals.werf.focus,
   f.signals.waSel.focus]

/-- A Frame's signals without their focus bits. -/
def shown (f : Frame) : Signals :=
  { pcSel := ⟨f.signals.pcSel.value, f.signals.pcSel.dirty⟩,
    ra2Sel := ⟨f.signals.ra2Sel.value, f.signals.ra2Sel.dirty⟩,
    aSel := ⟨f.signals.aSel.value, f.signals.aSel.dirty⟩,
    bSel := ⟨f.signals.bSel.value, f.signals.bSel.dirty⟩,
    wdSel := ⟨f.signals.wdSel.value, f.signals.wdSel.dirty⟩,
    mwr := ⟨f.signals.mwr.value, f.signals.mwr.dirty⟩,
    moe := ⟨f.signals.moe.value, f.signals.moe.dirty⟩,
    werf := ⟨f.signals.werf.value, f.signals.werf.dirty⟩,
    waSel := ⟨f.signals.waSel.value, f.signals.waSel.dirty⟩ }

/-- A Frame's registers are those of a state, slot 31 shown as 0. -/
def ShowsRegs (f : Frame) (s : State) : Prop :=
  ∀ r : RegIdx, f.regs[r.toNat]'r.isLt = s.reg r

/-- The five Frames of an instruction that takes `s` to `t`: their stages, pc, offset, registers, memory,
flags, signals and focus bits (40_pipeline.md R108, R109, R100, R112, 10_state.md R29). -/
def FiveFrames (s t : State) (f1 f2 f3 f4 f5 : Frame) : Prop :=
  [f1.stage, f2.stage, f3.stage, f4.stage, f5.stage] =
    [.fetch, .decode, .execute, .memory, .writeBack] ∧
  [f1.pc, f2.pc, f3.pc, f4.pc, f5.pc] = [s.pc, s.pc, s.pc, s.pc, t.pc] ∧
  [f1.offset, f2.offset, f3.offset, f4.offset, f5.offset] = [s.pc, s.pc, s.pc, s.pc, s.pc] ∧
  (ShowsRegs f1 s ∧ ShowsRegs f2 s ∧ ShowsRegs f3 s ∧ ShowsRegs f4 s ∧ ShowsRegs f5 t) ∧
  [f1.mem, f2.mem, f3.mem, f4.mem, f5.mem] = [s.mem, s.mem, s.mem, t.mem, t.mem] ∧
  [f1.zero, f2.zero, f3.zero, f4.zero, f5.zero] = [s.zero, s.zero, t.zero, t.zero, t.zero] ∧
  [f1.overflow, f2.overflow, f3.overflow, f4.overflow, f5.overflow] =
    [s.overflow, s.overflow, t.overflow, t.overflow, t.overflow] ∧
  [f1.divideByZero, f2.divideByZero, f3.divideByZero, f4.divideByZero, f5.divideByZero] =
    [s.divideByZero, s.divideByZero, t.divideByZero, t.divideByZero, t.divideByZero] ∧
  (∀ f ∈ [f1, f2, f3, f4, f5], f.exception = false ∧ f.exitingDueToException = false) ∧
  shown f1 = s.signals ∧ shown f2 = { s.signals with ra2Sel := t.signals.ra2Sel } ∧
  shown f3 = { t.signals with
    mwr := s.signals.mwr, moe := s.signals.moe, wdSel := s.signals.wdSel,
    werf := s.signals.werf, waSel := s.signals.waSel } ∧
  shown f4 = { t.signals with
    wdSel := s.signals.wdSel, werf := s.signals.werf, waSel := s.signals.waSel } ∧
  shown f5 = t.signals ∧
  focusBits f1 = [false, false, false, false, false, false, false, false, false] ∧
  focusBits f2 = [false, true, false, false, false, false, false, false, false] ∧
  focusBits f3 = [true, false, true, true, false, false, false, false, false] ∧
  focusBits f4 = [false, false, false, false, false, true, true, false, false] ∧
  focusBits f5 = [false, false, false, false, true, false, false, true, true]

/-- The four Frames of an instruction that a MemoryFault stops, taking `s` to `t`: their stages, pc, offset,
registers, memory, flags, signals and focus bits. The last is the marked one, and it shows the state before
the access (60_exceptions.md R185, R186, 40_pipeline.md R100, R108, R109). -/
def FaultFrames (s t : State) (f1 f2 f3 f4 : Frame) : Prop :=
  [f1.stage, f2.stage, f3.stage, f4.stage] = [.fetch, .decode, .execute, .memory] ∧
  [f1.exception, f2.exception, f3.exception, f4.exception] = [false, false, false, true] ∧
  [f1.exitingDueToException, f2.exitingDueToException, f3.exitingDueToException,
    f4.exitingDueToException] = [false, false, false, true] ∧
  (∀ f ∈ [f1, f2, f3, f4],
    f.pc = s.pc ∧ f.offset = s.pc ∧ ShowsRegs f s ∧ f.mem = s.mem) ∧
  [f1.zero, f2.zero, f3.zero, f4.zero] = [s.zero, s.zero, t.zero, t.zero] ∧
  [f1.overflow, f2.overflow, f3.overflow, f4.overflow] =
    [s.overflow, s.overflow, t.overflow, t.overflow] ∧
  [f1.divideByZero, f2.divideByZero, f3.divideByZero, f4.divideByZero] =
    [s.divideByZero, s.divideByZero, t.divideByZero, t.divideByZero] ∧
  shown f1 = s.signals ∧ shown f2 = { s.signals with ra2Sel := t.signals.ra2Sel } ∧
  shown f3 = { t.signals with mwr := s.signals.mwr, moe := s.signals.moe } ∧
  shown f4 = t.signals ∧
  focusBits f1 = [false, false, false, false, false, false, false, false, false] ∧
  focusBits f2 = [false, true, false, false, false, false, false, false, false] ∧
  focusBits f3 = [true, false, true, true, false, false, false, false, false] ∧
  focusBits f4 = [false, false, false, false, false, true, true, false, false]

/-- All that a MemoryFault does (60_exceptions.md R188, R186, R189), where `l` and `g` are the latches and the
signals before the access and `v` is V: the run stops with the kind and the address, which is L.ALUOUT; no
register, no byte of memory, not pc and not the step count changes; the flags are those of Execute, and the
trace grows by the four Frames. -/
def MemoryFaults (s t : State) (l : Latches) (g : Signals) (v : Bool) : Prop :=
  t.status = .stopped (.memoryFault (faultKind l.aluOut) l.aluOut) ∧ SameRegs s t ∧ SameMemory s t ∧
  t.pc = s.pc ∧ t.offset = s.pc ∧ t.steps = s.steps ∧ t.params = s.params ∧ t.latches = l ∧
  t.signals = g ∧ t.zero = decide (l.rd1 = l.rd2) ∧ t.overflow = v ∧ t.divideByZero = false ∧
  ∃ f1 f2 f3 f4 : Frame, t.trace = s.trace ++ [f1, f2, f3, f4] ∧ FaultFrames s t f1 f2 f3 f4

/-! ### Comparing two runs -/

/-- Two states agree on all that a program can see: registers, pc, memory, the step count, the run
status, the stage register and the run parameters. Held latches, control signals, flags, OFF and
the trace may differ. -/
def AgreeForPrograms (s t : State) : Prop :=
  (∀ r, s.reg r = t.reg r) ∧ s.pc = t.pc ∧ s.mem = t.mem ∧ s.steps = t.steps ∧
  s.status = t.status ∧ s.stage = t.stage ∧ s.params = t.params

/-- The bits of a word an instruction's format uses (30_encoding.md R74). -/
def usedBits : Op → Word
  | .halt => 0xFC000000
  | .jmp => 0xFFFF0000
  | .add | .sub | .mul | .div | .cmpeq | .cmplt | .cmple
  | .and | .or | .xor | .xnor | .shl | .shr | .sra => 0xFFFFF800
  | .ld | .st | .beq | .bne | .ldr
  | .addc | .subc | .mulc | .divc | .cmpeqc | .cmpltc | .cmplec
  | .andc | .orc | .xorc | .xnorc | .shlc | .shrc | .srac => 0xFFFFFFFF

/-- A signal after its default is applied (10_state.md R37). -/
def afterDefault {α : Type} (d : Option α) (g : Signal α) : Signal α :=
  match d with
  | some v => { value := v, dirty := false }
  | none => { value := g.value, dirty := true }

/-! ### Assembly -/

/-- The 35 mnemonics (30_encoding.md R86, R95). -/
def mnemonics : List (String × Op) :=
  [("HALT", .halt), ("LD", .ld), ("ST", .st), ("JMP", .jmp), ("BEQ", .beq), ("BNE", .bne),
   ("LDR", .ldr), ("ADD", .add), ("SUB", .sub), ("MUL", .mul), ("DIV", .div), ("CMPEQ", .cmpeq),
   ("CMPLT", .cmplt), ("CMPLE", .cmple), ("AND", .and), ("OR", .or), ("XOR", .xor), ("XNOR", .xnor),
   ("SHL", .shl), ("SHR", .shr), ("SRA", .sra), ("ADDC", .addc), ("SUBC", .subc), ("MULC", .mulc),
   ("DIVC", .divc), ("CMPEQC", .cmpeqc), ("CMPLTC", .cmpltc), ("CMPLEC", .cmplec), ("ANDC", .andc),
   ("ORC", .orc), ("XORC", .xorc), ("XNORC", .xnorc), ("SHLC", .shlc), ("SHRC", .shrc),
   ("SRAC", .srac)]

/-- Two spellings agree, case aside (30_encoding.md R89). -/
def SameSpelling (a b : String) : Prop := a.toList.map Char.toUpper = b.toList.map Char.toUpper

/-- A mnemonic names the instruction `o`, case aside (30_encoding.md R89). -/
def Names (m : String) (o : Op) : Prop := ∃ e ∈ mnemonics, SameSpelling m e.1 ∧ e.2 = o

/-- A symbol spells register `r`: `R0` to `R31` in decimal, or an alias (30_encoding.md R88, R89; D33). -/
def Spells (symbol : String) (r : RegIdx) : Prop :=
  symbol.toList.map Char.toUpper = 'R' :: Nat.toDigits 10 r.toNat ∨
  (SameSpelling symbol "BP" ∧ r = 27) ∨ (SameSpelling symbol "LP" ∧ r = 28) ∨
  (SameSpelling symbol "SP" ∧ r = 29) ∨ (SameSpelling symbol "XP" ∧ r = 30)

/-- An integer is no literal: it lies outside -32768..32767 (30_encoding.md R90). -/
def OutOfRange (d : Role) (a : Arg) : Prop :=
  d = .literal ∧ ∃ n, a = .int n ∧ (n < -32768 ∨ 32767 < n)

/-- An argument is of the wrong type for its `af` digit: a register where a literal is required, or an integer
or a symbol that names no register where a register is (30_encoding.md R90; log 12). -/
def WrongType (d : Role) (a : Arg) : Prop :=
  match a with
  | .reg symbol => d = .literal ∨ ∀ r, ¬ Spells symbol r
  | .int _ => d ≠ .literal

/-- A statement is at fault: its mnemonic is none of the 35, or the number of its arguments is wrong, or an
argument is of the wrong type or a literal out of range (30_encoding.md R90, R94, R95). -/
def AtFault (st : Statement) : Prop :=
  (∀ o, ¬ Names st.mnemonic o) ∨
  ∃ o, Names st.mnemonic o ∧
    (st.args.length ≠ o.af.length ∨
      ∃ (k : Nat) (d : Role) (a : Arg),
        o.af[k]? = some d ∧ st.args[k]? = some a ∧ (OutOfRange d a ∨ WrongType d a))

/-- An error names a statement's fault: its mnemonic, and of an argument at fault the index
(30_encoding.md R94; log 12). -/
def NamesFault (st : Statement) (e : AsmError) : Prop :=
  e.mnemonic = st.mnemonic ∧
  ((e.kind = .unknownInstruction ∧ ∀ o, ¬ Names st.mnemonic o) ∨
    ∃ o, Names st.mnemonic o ∧
      ((e.kind = .arityError ∧ st.args.length ≠ o.af.length) ∨
        (st.args.length = o.af.length ∧
          ∃ (d : Role) (a : Arg), o.af[e.argument]? = some d ∧ st.args[e.argument]? = some a ∧
            ((e.kind = .rangeError ∧ OutOfRange d a) ∨
              (e.kind = .operandTypeError ∧ WrongType d a)))))

/-- Role `d` of the fields holds the argument: the register it names, or the low 16 bits of the literal
(30_encoding.md R91). -/
def Holds (f : Fields) (d : Role) (a : Arg) : Prop :=
  match d, a with
  | .literal, .int n => f.lit = BitVec.ofInt 16 n
  | .ra, .reg symbol => Spells symbol f.ra
  | .rb, .reg symbol => Spells symbol f.rb
  | .rc, .reg symbol => Spells symbol f.rc
  | _, _ => False

end Sys2Proof.Claims

open Sys2Proof Sys2Proof.Machine Sys2Proof.Claims

/-! ### Encoding -/

/-- Decoding an instruction's word gives the instruction back, every operand at every value
(30_encoding.md R76, R91; the formats are D2's, the opcodes D1's). -/
def Obligations.DecodeOfEncode : Prop := ∀ i : Instr, decodeWord (encode i) = .ok i

/-- Encoding a decoded word gives the word back with its unused bits 0: the decoder ignores exactly the
bits no field covers (30_encoding.md R74, R75, D2). -/
def Obligations.EncodeOfDecodeClearsUnusedBits : Prop :=
  ∀ w i, decodeWord w = .ok i → encode i = w &&& usedBits i.op

/-- In both byte orders, the bytes of an instruction's word, followed by any bytes, decode to the
instruction and leave those bytes (30_encoding.md R71, 20_memory.md R57, R58). -/
def Obligations.DecodeBytesOfEncodedWord : Prop :=
  ∀ (le : Bool) (i : Instr) (rest : List Byte),
    decodeBytes le (bytesOfWord le (encode i) ++ rest) = .ok (i, rest)

/-- The decoder rejects a word, naming its opcode, exactly when bits [31:26] are one of the 29 illegal
opcodes 0x01 to 0x17, 0x1A, 0x1E, 0x27, 0x2F, 0x37 and 0x3F (30_encoding.md R83, D1). -/
def Obligations.IllegalOpcodesAreThe29 : Prop :=
  ∀ w : Word,
    (decodeWord w = .error (.illegalOpcode (w.extractLsb' 26 6)) ↔
      let o := w.toNat / 2 ^ 26
      (1 ≤ o ∧ o ≤ 0x17) ∨ o = 0x1A ∨ o = 0x1E ∨ o = 0x27 ∨ o = 0x2F ∨ o = 0x37 ∨ o = 0x3F) ∧
    ∀ e, decodeWord w = .error e → e = .illegalOpcode (w.extractLsb' 26 6)

/-- A word is HALT exactly when bits [31:26] are 0, whatever bits [25:0] hold (30_encoding.md R82, D3). -/
def Obligations.HaltIsOpcodeZero : Prop := ∀ w : Word, decodeWord w = .ok .halt ↔ w.toNat < 2 ^ 26

/-- An instruction's word holds its opcode in bits [31:26] and each field its format has where the format puts
it: Rc in [25:21], Ra in [20:16], Rb in [15:11] and the literal in [15:0] (30_encoding.md R72, R73, R74;
the formats are D2's). -/
def Obligations.EncodingPlacesFields : Prop :=
  ∀ i : Instr,
    (encode i).extractLsb' 26 6 = i.op.opcode ∧
    (Role.rc ∈ i.op.mf → (encode i).extractLsb' 21 5 = i.fields.rc) ∧
    (Role.ra ∈ i.op.mf → (encode i).extractLsb' 16 5 = i.fields.ra) ∧
    (Role.rb ∈ i.op.mf → (encode i).extractLsb' 11 5 = i.fields.rb) ∧
    (Role.literal ∈ i.op.mf → (encode i).extractLsb' 0 16 = i.fields.lit)

/-- The opcode alone chooses the instruction: two words with the same bits [31:26] decode to the same
mnemonic or both to none, and no two mnemonics share an opcode (30_encoding.md R81). -/
def Obligations.OpcodeLookupIsABijection : Prop :=
  (∀ o p : Op, o.opcode = p.opcode → o = p) ∧
  ∀ (w w' : Word) (i : Instr), w.extractLsb' 26 6 = w'.extractLsb' 26 6 → decodeWord w = .ok i →
    ∃ j, decodeWord w' = .ok j ∧ j.op = i.op ∧ w.extractLsb' 26 6 = i.op.opcode

/-- Words of the spec's own encodings decode to what they stand for, one a format and a corner each
(95_test_vectors.md V1, V2). -/
def Obligations.KnownWordsDecode : Prop :=
  decodeWord 0x80611000 = .ok (.add 1 2 3) ∧ decodeWord 0x8061101F = .ok (.add 1 2 3) ∧
  decodeWord 0xC041FFFF = .ok (.addc 1 0xFFFF 2) ∧ decodeWord 0x60410008 = .ok (.ld 1 8 2) ∧
  decodeWord 0x6441000C = .ok (.st 2 12 1) ∧ decodeWord 0x7CBF0002 = .ok (.ldr 31 2 5) ∧
  decodeWord 0x77E1FFFE = .ok (.bne 1 0xFFFE 31) ∧ decodeWord 0x6C83FFFF = .ok (.jmp 3 4) ∧
  decodeWord 0x03FFFFFF = .ok .halt ∧ decodeWord 0x68000000 = .error (.illegalOpcode 0x1A)

/-! ### The ALU -/

/-- ADD and SUB: the wrapped sum and difference; V by the sign tests of the rules, which holds exactly
when the exact result lies outside [-2^31, 2^31-1]; DZ false (41_alu.md R118, R119, D13). -/
def Obligations.AluAddSubtract : Prop :=
  ∀ a b : Word,
    (alu a b .add).r = a + b ∧ (alu a b .sub).r = a - b ∧
    ((alu a b .add).v = true ↔
      (0 ≤ a.toInt ∧ 0 ≤ b.toInt ∧ (a + b).toInt < 0) ∨ (a.toInt < 0 ∧ b.toInt < 0 ∧ 0 ≤ (a + b).toInt)) ∧
    ((alu a b .sub).v = true ↔
      (0 ≤ a.toInt ∧ b.toInt < 0 ∧ (a - b).toInt < 0) ∨ (a.toInt < 0 ∧ 0 ≤ b.toInt ∧ 0 ≤ (a - b).toInt)) ∧
    (alu a b .add).v = outside32 (a.toInt + b.toInt) ∧
    (alu a b .sub).v = outside32 (a.toInt - b.toInt) ∧
    (alu a b .add).dz = false ∧ (alu a b .sub).dz = false

/-- MUL: the low 32 bits of the exact product, the same for a signed and an unsigned reading; V exactly
when the exact signed product lies outside the range (41_alu.md R120, D13, D14). -/
def Obligations.AluMultiply : Prop :=
  ∀ a b : Word,
    (alu a b .mul).r = BitVec.ofInt 32 (a.toInt * b.toInt) ∧
    (alu a b .mul).r = BitVec.ofNat 32 (a.toNat * b.toNat) ∧
    (alu a b .mul).v = outside32 (a.toInt * b.toInt) ∧ (alu a b .mul).dz = false

/-- DIV: by 0, the result is 0 with DZ and without V; otherwise the quotient rounded toward zero, wrapped,
DZ false, and V only for -2^31 by -1, whose result is 0x80000000 (41_alu.md R121, D13, D16). -/
def Obligations.AluDivide : Prop :=
  ∀ a b : Word,
    (b = 0 → alu a b .div = { r := 0, v := false, dz := true }) ∧
    (b ≠ 0 →
      (alu a b .div).r = BitVec.ofInt 32 (a.toInt.tdiv b.toInt) ∧ (alu a b .div).dz = false ∧
      ((alu a b .div).v = true ↔ a.toInt.tdiv b.toInt = 2 ^ 31) ∧
      ((alu a b .div).v = true ↔ a = 0x80000000 ∧ b = 0xFFFFFFFF)) ∧
    alu 0x80000000 0xFFFFFFFF .div = { r := 0x80000000, v := true, dz := false }

/-- CMPEQ, CMPLT and CMPLE give 1 or 0 by the signed compare of the patterns (41_alu.md R122 to R124, D1). -/
def Obligations.AluCompare : Prop :=
  ∀ a b : Word,
    alu a b .cmpeq = { r := if a = b then 1 else 0, v := false, dz := false } ∧
    alu a b .cmplt = { r := if a.toInt < b.toInt then 1 else 0, v := false, dz := false } ∧
    alu a b .cmple = { r := if a.toInt ≤ b.toInt then 1 else 0, v := false, dz := false }

/-- AND, OR and XOR, bit by bit (41_alu.md R125, R126, R127). -/
def Obligations.AluAndOrXor : Prop :=
  ∀ (a b : Word) (k : Nat),
    (alu a b .and).r.getLsbD k = (a.getLsbD k && b.getLsbD k) ∧
    (alu a b .or).r.getLsbD k = (a.getLsbD k || b.getLsbD k) ∧
    (alu a b .xor).r.getLsbD k = (a.getLsbD k != b.getLsbD k)

/-- XNOR, NAND and NOR complement XOR, AND and OR in each of the 32 bits (41_alu.md R128, R129; D31, D32).
NAND and NOR have no opcode. -/
def Obligations.AluComplementedBitwise : Prop :=
  ∀ (a b : Word) (k : Nat), k < 32 →
    (alu a b .xnor).r.getLsbD k = (a.getLsbD k == b.getLsbD k) ∧
    (alu a b .nand).r.getLsbD k = !(a.getLsbD k && b.getLsbD k) ∧
    (alu a b .nor).r.getLsbD k = !(a.getLsbD k || b.getLsbD k) ∧
    ∀ o : Op, opAlu o ≠ some .nand ∧ opAlu o ≠ some .nor

/-- The shifts by `n = B[4:0]`: SHL multiplies by 2^n modulo 2^32, SHR divides the unsigned value by 2^n,
SRA divides the signed value by 2^n rounding down, so copies of the sign bit come in; bits [31:5] of B
are ignored (41_alu.md R130 to R133, D15). -/
def Obligations.AluShift : Prop :=
  ∀ a b : Word,
    (alu a b .shl).r.toNat = a.toNat * 2 ^ (b.toNat % 32) % 2 ^ 32 ∧
    (alu a b .shr).r.toNat = a.toNat / 2 ^ (b.toNat % 32) ∧
    (alu a b .sra).r.toInt = a.toInt / 2 ^ (b.toNat % 32) ∧
    ∀ c : Word, b.toNat % 32 = c.toNat % 32 → ∀ op ∈ [AluOp.shl, .shr, .sra], alu a b op = alu a c op

/-- V is true only for ADD, SUB, MUL and DIV, and DZ exactly for DIV with a zero divisor (41_alu.md R134,
D13). -/
def Obligations.AluFlagsSummary : Prop :=
  ∀ (a b : Word) (op : AluOp),
    ((alu a b op).v = true ↔
      (op = .add ∧ outside32 (a.toInt + b.toInt) = true) ∨
      (op = .sub ∧ outside32 (a.toInt - b.toInt) = true) ∨
      (op = .mul ∧ outside32 (a.toInt * b.toInt) = true) ∨
      (op = .div ∧ a = 0x80000000 ∧ b = 0xFFFFFFFF)) ∧
    ((alu a b op).dz = true ↔ op = .div ∧ b = 0)

/-! ### The operate instructions -/

/-- ADD, SUB, ADDC, SUBC complete from every state: result, flags, latches, signals and frame
(42_operate.md R135 to R138, R151, R152; D6, D13). -/
def Obligations.AddSubtractInstructions : Prop :=
  RegForm .add (fun a b => a + b) (fun a b => outside32 (a.toInt + b.toInt)) never ∧
  RegForm .sub (fun a b => a - b) (fun a b => outside32 (a.toInt - b.toInt)) never ∧
  LitForm .addc (fun a b => a + b) (fun a b => outside32 (a.toInt + b.toInt)) never ∧
  LitForm .subc (fun a b => a - b) (fun a b => outside32 (a.toInt - b.toInt)) never

/-- MUL, DIV, MULC, DIVC complete from every state, a zero divisor and -2^31 by -1 included: result,
flags, latches, signals and frame (42_operate.md R135, R136, R139, R140, R153, R154; D6, D13, D16). -/
def Obligations.MultiplyDivideInstructions : Prop :=
  RegForm .mul (fun a b => BitVec.ofInt 32 (a.toInt * b.toInt))
    (fun a b => outside32 (a.toInt * b.toInt)) never ∧
  RegForm .div quotient (fun a b => decide (a = 0x80000000 ∧ b = 0xFFFFFFFF))
    (fun _ b => decide (b = 0)) ∧
  LitForm .mulc (fun a b => BitVec.ofInt 32 (a.toInt * b.toInt))
    (fun a b => outside32 (a.toInt * b.toInt)) never ∧
  LitForm .divc quotient (fun a b => decide (a = 0x80000000 ∧ b = 0xFFFFFFFF))
    (fun _ b => decide (b = 0))

/-- CMPEQ, CMPLT, CMPLE and their C forms complete from every state: result, flags, latches, signals and
frame (42_operate.md R135, R136, R141 to R143, R155 to R157; D1, D6). -/
def Obligations.CompareInstructions : Prop :=
  RegForm .cmpeq (fun a b => bit (a = b)) never never ∧
  RegForm .cmplt (fun a b => bit (a.toInt < b.toInt)) never never ∧
  RegForm .cmple (fun a b => bit (a.toInt ≤ b.toInt)) never never ∧
  LitForm .cmpeqc (fun a b => bit (a = b)) never never ∧
  LitForm .cmpltc (fun a b => bit (a.toInt < b.toInt)) never never ∧
  LitForm .cmplec (fun a b => bit (a.toInt ≤ b.toInt)) never never

/-- AND, OR, XOR, XNOR and their C forms complete from every state: result, flags, latches, signals and
frame (42_operate.md R135, R136, R144 to R147, R158 to R161; D6, D32). -/
def Obligations.BitwiseInstructions : Prop :=
  RegForm .and (fun a b => a &&& b) never never ∧ RegForm .or (fun a b => a ||| b) never never ∧
  RegForm .xor (fun a b => a ^^^ b) never never ∧
  RegForm .xnor (fun a b => ~~~(a ^^^ b)) never never ∧
  LitForm .andc (fun a b => a &&& b) never never ∧ LitForm .orc (fun a b => a ||| b) never never ∧
  LitForm .xorc (fun a b => a ^^^ b) never never ∧
  LitForm .xnorc (fun a b => ~~~(a ^^^ b)) never never

/-- SHL, SHR, SRA and their C forms complete from every state and for every amount: result, flags,
latches, signals and frame (42_operate.md R135, R136, R148 to R150, R162 to R164; D6, D15). -/
def Obligations.ShiftInstructions : Prop :=
  RegForm .shl (fun a b => a <<< (b.toNat % 32)) never never ∧
  RegForm .shr (fun a b => a >>> (b.toNat % 32)) never never ∧
  RegForm .sra (fun a b => a.sshiftRight (b.toNat % 32)) never never ∧
  LitForm .shlc (fun a b => a <<< (b.toNat % 32)) never never ∧
  LitForm .shrc (fun a b => a >>> (b.toNat % 32)) never never ∧
  LitForm .srac (fun a b => a.sshiftRight (b.toNat % 32)) never never

/-! ### Loads and stores -/

/-- LD at an admitted address completes: Rc takes the word at `x[Ra] + literal`, V is the sum's overflow,
Z compares with the held L.RD2 (43_load_store.md R165, R168; D6, D9). -/
def Obligations.LoadWordCompletes : Prop :=
  ∀ (s : State) (ra : RegIdx) (lit : Literal) (rc : RegIdx),
    let ea := s.reg ra + lit.signExtend 32
    Admitted s ea →
    ∃ t, exec (.ld ra lit rc) s = .next t ∧ Loads s t rc ea ∧
      t.overflow = outside32 ((s.reg ra).toInt + lit.toInt) ∧
      t.zero = decide (s.reg ra = s.latches.rd2) ∧
      t.latches = { s.latches with
        pc4 := s.pc + 4, lit := lit.signExtend 32, ra := ra, rb := 31, rc := rc, rd1 := s.reg ra,
        aluOut := ea, memData := wordAt s ea.toNat } ∧
      t.signals =
        { pcSel := driven .pc4, ra2Sel := held s.signals.ra2Sel, aSel := driven .rd1,
          bSel := driven .lit, wdSel := driven .memData, mwr := driven false, moe := driven true,
          werf := driven true, waSel := driven .rc }

/-- LDR at an admitted address completes: Rc takes the word at `pc + 4 + 4 * literal`; V is false, and the
Ra field shows in L.RD1 and Z alone (43_load_store.md R165, R170; D4, D6, log 7). -/
def Obligations.LoadRelativeCompletes : Prop :=
  ∀ (s : State) (ra : RegIdx) (lit : Literal) (rc : RegIdx),
    let ea := s.pc + 4 + 4 * lit.signExtend 32
    Admitted s ea →
    ∃ t, exec (.ldr ra lit rc) s = .next t ∧ Loads s t rc ea ∧
      t.overflow = false ∧ t.zero = decide (s.reg ra = 0) ∧
      t.latches = { s.latches with
        pc4 := s.pc + 4, lit := lit.signExtend 32, ra := ra, rb := 31, rc := rc, rd1 := s.reg ra,
        rd2 := 0, aluOut := ea, memData := wordAt s ea.toNat } ∧
      t.signals =
        { pcSel := driven .pc4, ra2Sel := driven .rb, aSel := driven .target,
          bSel := driven .rd2, wdSel := driven .memData, mwr := driven false, moe := driven true,
          werf := driven true, waSel := driven .rc }

/-- ST at an admitted address completes: the four bytes from `x[Ra] + literal` up take `x[Rc]` in the run's
byte order, every other byte and every register reads as before, and WDSEL and WASEL are held
(43_load_store.md R165, R169, 20_memory.md R58; D6, D9). -/
def Obligations.StoreWordCompletes : Prop :=
  ∀ (s : State) (rc : RegIdx) (lit : Literal) (ra : RegIdx),
    let ea := s.reg ra + lit.signExtend 32
    s.mem.wf = true → Admitted s ea →
    ∃ t, exec (.st rc lit ra) s = .next t ∧
      (∀ k, k < 4 → t.mem.readByte (ea.toNat + k) = storedByte s (s.reg rc) k) ∧
      SameMemoryOutside s t ea.toNat ∧ SameRegs s t ∧ t.pc = s.pc + 4 ∧ Retired s t ∧
      t.overflow = outside32 ((s.reg ra).toInt + lit.toInt) ∧ t.divideByZero = false ∧
      t.zero = decide (s.reg ra = s.reg rc) ∧
      t.latches = { s.latches with
        pc4 := s.pc + 4, lit := lit.signExtend 32, ra := ra, rb := 31, rc := rc, rd1 := s.reg ra,
        rd2 := s.reg rc, aluOut := ea } ∧
      t.signals =
        { pcSel := driven .pc4, ra2Sel := driven .rc, aSel := driven .rd1, bSel := driven .lit,
          wdSel := held s.signals.wdSel, mwr := driven true, moe := driven false,
          werf := driven false, waSel := held s.signals.waSel }

/-- LD, ST and LDR at an address that is not admitted stop the run with a MemoryFault of the kind and
address, and change no register, no byte of memory and not pc; L.MEMDATA and the signals of WriteBack keep
their values, and each of the four Frames shows the state at the end of its stage, the marked one the state
before the access (20_memory.md R60, 43_load_store.md R167, 60_exceptions.md R186, R188, R189,
40_pipeline.md R108, R109; D6, D8, D9, D18, D19). That the stop is a next state with this status is the
model's choice (log 4). -/
def Obligations.UnadmittedAccessFaults : Prop :=
  ∀ (s : State) (ra : RegIdx) (lit : Literal) (rc : RegIdx),
    let latched := { s.latches with
      pc4 := s.pc + 4, lit := lit.signExtend 32, ra := ra, rb := 31, rc := rc, rd1 := s.reg ra }
    let selected := { s.signals with pcSel := driven .pc4 }
    (let ea := s.reg ra + lit.signExtend 32
     let v := outside32 ((s.reg ra).toInt + lit.toInt)
     ¬ Admitted s ea →
     (∃ t, exec (.ld ra lit rc) s = .next t ∧
       MemoryFaults s t { latched with aluOut := ea }
         { selected with
           ra2Sel := held s.signals.ra2Sel, aSel := driven .rd1, bSel := driven .lit,
           mwr := driven false, moe := driven true } v) ∧
     ∃ t, exec (.st rc lit ra) s = .next t ∧
       MemoryFaults s t { latched with rd2 := s.reg rc, aluOut := ea }
         { selected with
           ra2Sel := driven .rc, aSel := driven .rd1, bSel := driven .lit, mwr := driven true,
           moe := driven false } v) ∧
    (let ea := s.pc + 4 + 4 * lit.signExtend 32
     ¬ Admitted s ea →
     ∃ t, exec (.ldr ra lit rc) s = .next t ∧
       MemoryFaults s t { latched with rd2 := 0, aluOut := ea }
         { selected with
           ra2Sel := driven .rb, aSel := driven .target, bSel := driven .rd2, mwr := driven false,
           moe := driven true } false)

/-- Writing a word and reading it at the same address gives it back in either byte order, and reversed in
the other; each of its four bytes lies where the order puts it, and no other byte changes
(20_memory.md R57, R58; the formulas are the spec's own statement of the two orders). -/
def Obligations.WordWriteThenRead : Prop :=
  ∀ (le : Bool) (m : Memory) (a : Nat) (v : Word), m.wf = true →
    (m.writeWord le a v).readWord le a = v ∧
    (m.writeWord (!le) a v).readWord le a =
      v.extractLsb' 0 8 ++ v.extractLsb' 8 8 ++ v.extractLsb' 16 8 ++ v.extractLsb' 24 8 ∧
    (∀ k, k < 4 → (m.writeWord false a v).readByte (a + k) = v.extractLsb' (24 - 8 * k) 8) ∧
    (∀ k, k < 4 → (m.writeWord true a v).readByte (a + k) = v.extractLsb' (8 * k) 8) ∧
    ∀ b, (b < a ∨ a + 4 ≤ b) → (m.writeWord le a v).readByte b = m.readByte b

/-- A word stored over the very next instruction is the one the next step runs: no fence is needed
(the spec's own inference, 20_memory.md R69, 70_reset_and_hazards.md R207). -/
def Obligations.StoredWordIsFetchedNext : Prop :=
  ∀ (s : State) (rc : RegIdx) (lit : Literal) (ra : RegIdx) (i : Instr),
    let ea := s.reg ra + lit.signExtend 32
    s.mem.wf = true → AtFetch s → Admitted s ea → ea = s.pc + 4 →
    s.steps + 1 ≠ s.params.maxStep → decodeWord (s.reg rc) = .ok i →
    ∃ t, exec (.st rc lit ra) s = .next t ∧ step t = exec i (t.latchIr (s.reg rc))

/-! ### Control transfer and HALT -/

/-- BEQ branches when `x[Ra]` is 0 and BNE when it is not; both link `pc + 4` in Rc, branch or not, and Ra
is read before Rc is written (44_control_transfer.md R171 to R173, R176, R177; D1, D4, D6). -/
def Obligations.ConditionalBranches : Prop :=
  BranchForm .beq (fun a => decide (a = 0)) ∧ BranchForm .bne (fun a => decide (a ≠ 0))

/-- JMP goes to `x[Ra]` with bits [1:0] cleared and links `pc + 4` in Rc; V and DZ are false, L.ALUOUT,
L.RD2, RA2SEL, ASEL and BSEL are held, and Z compares with the held L.RD2 (44_control_transfer.md R173,
R178; D1, D6, D7). -/
def Obligations.JumpCompletes : Prop :=
  ∀ (s : State) (ra rc : RegIdx), ∃ t, exec (.jmp ra rc) s = .next t ∧
    Transfers s t rc (BitVec.ofNat 32 ((s.reg ra).toNat / 4 * 4)) ∧
    t.zero = decide (s.reg ra = s.latches.rd2) ∧
    t.latches = { s.latches with
      pc4 := s.pc + 4, lit := 0, ra := ra, rb := 31, rc := rc, rd1 := s.reg ra } ∧
    t.signals =
      { pcSel := driven .rd1, ra2Sel := held s.signals.ra2Sel, aSel := held s.signals.aSel,
        bSel := held s.signals.bSel, wdSel := driven .pc4, mwr := driven false,
        moe := driven false, werf := driven true, waSel := driven .rc }

/-- HALT completes by its own effect, the clean stop: the status is Halted with the HALT's address, OFF
and L.PC4 are written, and no Frame, step, register, byte, pc, flag, signal or other latch changes (45_halt.md
R179, D21). That the stop is a next state with this status is the model's choice (log 4), and that the
stage register keeps its value is the model's deduction (log 5), which R179 does not list. -/
def Obligations.HaltStopsTheRun : Prop :=
  ∀ s : State, ∃ t, exec .halt s = .next t ∧ t.status = .stopped (.halted s.pc) ∧ SameRegs s t ∧
    SameMemory s t ∧ t.pc = s.pc ∧ t.trace = s.trace ∧ t.steps = s.steps ∧ t.signals = s.signals ∧
    t.zero = s.zero ∧ t.overflow = s.overflow ∧ t.divideByZero = s.divideByZero ∧
    t.stage = s.stage ∧ t.params = s.params ∧ t.offset = s.pc ∧
    t.latches = { s.latches with pc4 := s.pc + 4 }

/-! ### What holds of every instruction -/

/-- An instruction writes no register but its Rc, so register 30 (XP) changes only as an ordinary Rc of 30
(40_pipeline.md R107, D11), and R31 always reads 0 (10_state.md R21). WASEL is rc or held, so a state
whose WASEL selects Rc is the premise; `InvariantKept` states it of every step. -/
def Obligations.OnlyRcIsWritten : Prop :=
  ∀ (i : Instr) (s t : State), exec i s = .next t → s.signals.waSel.value = .rc →
    (∀ r, r ≠ i.fields.rc → t.reg r = s.reg r) ∧ t.reg 31 = 0 ∧ t.signals.waSel.value = .rc

/-- No instruction but ST changes a byte of memory (43_load_store.md R169, 40_pipeline.md R98, R104; the rows are
D6's). -/
def Obligations.OnlyStoreWritesMemory : Prop :=
  ∀ (i : Instr) (s t : State), exec i s = .next t → i.op ≠ .st → t.mem = s.mem

/-- Every instruction that goes past Fetch latches its literal sign-extended from 16 to 32 bits, the
logical ones and the shifts included, a value in -32768..32767 (30_encoding.md R78). -/
def Obligations.LiteralIsAlwaysSignExtended : Prop :=
  ∀ (i : Instr) (s : State), i ≠ .halt →
    ∃ t, exec i s = .next t ∧ t.latches.lit.toInt = i.fields.lit.toInt ∧
      -32768 ≤ t.latches.lit.toInt ∧ t.latches.lit.toInt ≤ 32767

/-- An instruction that retires appends exactly five Frames, and each shows the state at the end of its
stage (40_pipeline.md R100, R108, R109, R112, 10_state.md R29; D19, D21, D36). -/
def Obligations.RetiringInstructionFrames : Prop :=
  ∀ (i : Instr) (s t : State), exec i s = .next t → t.steps = s.steps + 1 →
    ∃ f1 f2 f3 f4 f5, t.trace = s.trace ++ [f1, f2, f3, f4, f5] ∧ FiveFrames s t f1 f2 f3 f4 f5

/-- When RA2SEL's default is null, Decode does not write L.RD2; no other stage writes it, so it keeps the
value of the last instruction that wrote it (10_state.md R34). -/
def Obligations.HeldRd2 : Prop :=
  ∀ (c : Control) (op : Option AluOp) (f : Fields) (s : State),
    (c.ra2Sel = none → (decodeStage c f s).latches.rd2 = s.latches.rd2) ∧
    (∀ sel, c.ra2Sel = some sel →
      (decodeStage c f s).latches.rd2 = match sel with | .rb => s.reg f.rb | .rc => s.reg f.rc) ∧
    (fetchStage s).latches.rd2 = s.latches.rd2 ∧
    (executeStage c op s).latches.rd2 = s.latches.rd2 ∧
    (∀ t, memoryStage c s = .done t ∨ memoryStage c s = .stopped t → t.latches.rd2 = s.latches.rd2) ∧
    (writeBackStage c s).latches.rd2 = s.latches.rd2

/-- A non-null default sets a signal and clears its dirty bit, a null default keeps the value and sets the
dirty bit, and no other stage touches the signal (10_state.md R37). PCSEL's branch pair and the owning
stages are D6's and D19's (40_pipeline.md R100, R103). -/
def Obligations.SignalsChangeInTheirStageAlone : Prop :=
  ∀ (c : Control) (op : Option AluOp) (f : Fields) (s : State),
    (fetchStage s).signals = s.signals ∧
    (decodeStage c f s).signals =
      { s.signals with ra2Sel := afterDefault c.ra2Sel s.signals.ra2Sel } ∧
    (executeStage c op s).signals = { s.signals with
      aSel := afterDefault c.aSel s.signals.aSel
      bSel := afterDefault c.bSel s.signals.bSel
      pcSel := afterDefault
        (match c.pcSel with
          | some (.one v) => some v
          | some (.pair ne eq) => some (if s.latches.rd1 = s.latches.rd2 then eq else ne)
          | none => none)
        s.signals.pcSel } ∧
    (∀ t, memoryStage c s = .done t ∨ memoryStage c s = .stopped t →
      t.signals = { s.signals with
        mwr := afterDefault c.mwr s.signals.mwr, moe := afterDefault c.moe s.signals.moe }) ∧
    (writeBackStage c s).signals = { s.signals with
      wdSel := afterDefault c.wdSel s.signals.wdSel, werf := afterDefault c.werf s.signals.werf,
      waSel := afterDefault c.waSel s.signals.waSel }

/-- A register write sets R0 to R30 to the value and leaves R31 alone, and no stage but WriteBack writes a
register (10_state.md R24). -/
def Obligations.RegistersAreWrittenInWriteBackAlone : Prop :=
  (∀ (s : State) (d : RegIdx) (v : Word), Writes s (s.writeReg d v) d v ∧ (s.writeReg 31 v) = s) ∧
  ∀ (c : Control) (op : Option AluOp) (f : Fields) (s : State),
    SameRegs s (fetchStage s) ∧ SameRegs s (decodeStage c f s) ∧ SameRegs s (executeStage c op s) ∧
    (∀ t, memoryStage c s = .done t ∨ memoryStage c s = .stopped t → SameRegs s t) ∧
    (∀ t i, fetchInstr s = .stopped t ∨ fetchInstr s = .instr i t → SameRegs s t) ∧
    SameRegs s (haltStage s)

/-- WriteBack: the value WDSEL selects goes to Rc, or to register 30 when WASEL is 1, if WERF is 1, and
nowhere if that register is 31; pc takes the value PCSEL selects; one Frame is appended, which shows the
new registers and pc; one step is counted; nothing else changes but the three signals
(40_pipeline.md R105). -/
def Obligations.WriteBackStageWrites : Prop :=
  ∀ (c : Control) (s : State),
    let t := writeBackStage c s
    let wd := (match t.signals.wdSel.value with
      | .pc4 => s.latches.pc4
      | .aluOut => s.latches.aluOut
      | .memData => s.latches.memData)
    let dst := (match t.signals.waSel.value with
      | .rc => s.latches.rc
      | .xp => 30)
    (if t.signals.werf.value then Writes s t dst wd else SameRegs s t) ∧
    t.pc = (match s.signals.pcSel.value with
      | .pc4 => s.latches.pc4
      | .aluOut => s.latches.aluOut
      | .rd1 => s.latches.rd1 &&& 0xFFFFFFFC) ∧
    t.signals = { s.signals with
      wdSel := afterDefault c.wdSel s.signals.wdSel, werf := afterDefault c.werf s.signals.werf,
      waSel := afterDefault c.waSel s.signals.waSel } ∧
    (∃ f, t.trace = s.trace ++ [f] ∧ f.stage = .writeBack ∧ f.pc = t.pc ∧ ShowsRegs f t ∧
      shown f = t.signals) ∧
    t.steps = s.steps + 1 ∧ t.mem = s.mem ∧ t.latches = s.latches ∧ t.zero = s.zero ∧
    t.overflow = s.overflow ∧ t.divideByZero = s.divideByZero ∧ t.status = s.status ∧
    t.offset = s.offset ∧ t.params = s.params

/-- The stage register goes Fetch, Decode, Execute, Memory, WriteBack and back to Fetch, and holds Fetch at
reset (10_state.md R43). -/
def Obligations.StageRegisterCycles : Prop :=
  State.reset.stage = .fetch ∧
  ∀ (c : Control) (op : Option AluOp) (f : Fields) (s : State),
    (fetchStage s).stage = .decode ∧ (decodeStage c f s).stage = .execute ∧
    (executeStage c op s).stage = .memory ∧
    (∀ t, memoryStage c s = .done t → t.stage = .writeBack) ∧ (writeBackStage c s).stage = .fetch

/-! ### Steps -/

/-- A step of a run at Fetch, below its step limit and with an admitted fetch, latches the word at pc and
runs the instruction it decodes to (40_pipeline.md R101, R111; D10, D22). -/
def Obligations.StepRunsDecodedInstruction : Prop :=
  ∀ (s : State) (i : Instr),
    AtFetch s → s.steps ≠ s.params.maxStep → Admitted s s.pc →
    decodeWord (wordAt s s.pc.toNat) = .ok i →
    step s = exec i { s with latches := { s.latches with ir := wordAt s s.pc.toNat } }

/-- Before a fetch the step limit is tested first: at MAX_STEP the run stops with StepLimit, and no Frame is
taken (40_pipeline.md R111, 60_exceptions.md R189, D22). That the stop is a next state with this status is
the model's choice (log 4); that nothing else changes, the stage register among it, is the model's deduction
from `raise` ending the loop at once (log 5). -/
def Obligations.StepLimitStops : Prop :=
  ∀ s : State, AtFetch s → s.steps = s.params.maxStep →
    step s = .next { s with status := .stopped (.stepLimit s.steps) }

/-- A fetch that is not admitted reads nothing and stops the run with FetchFault after one marked Fetch
Frame whose offset and pc are the faulting address; L.IR and L.PC4 keep their values (20_memory.md R61,
60_exceptions.md R186, R187; D10; log 4). -/
def Obligations.FetchFaultStops : Prop :=
  ∀ s : State, AtFetch s → s.steps ≠ s.params.maxStep → ¬ Admitted s s.pc →
    ∃ t f, step s = .next t ∧ t.status = .stopped (.fetchFault s.pc) ∧ t.trace = s.trace ++ [f] ∧
      f.stage = .fetch ∧ f.pc = s.pc ∧ f.offset = s.pc ∧ f.exception = true ∧
      f.exitingDueToException = true ∧ ShowsRegs f s ∧ f.mem = s.mem ∧ SameRegs s t ∧
      SameMemory s t ∧ t.pc = s.pc ∧ t.latches = s.latches ∧ t.signals = s.signals ∧
      t.zero = s.zero ∧ t.overflow = s.overflow ∧ t.divideByZero = s.divideByZero ∧
      t.steps = s.steps ∧ t.params = s.params

/-- A word with an illegal opcode stops the run with IllegalOpcode, naming the address and the word, after
one marked Fetch Frame with no focused signal; L.IR and L.PC4 are latched, and no register, byte, pc or
step changes (45_halt.md R180, 60_exceptions.md R186; D8; log 4). -/
def Obligations.IllegalOpcodeStops : Prop :=
  ∀ (s : State) (e : DecodeError), AtFetch s → s.steps ≠ s.params.maxStep → Admitted s s.pc →
    decodeWord (wordAt s s.pc.toNat) = .error e →
    ∃ t f, step s = .next t ∧
      t.status = .stopped (.illegalOpcode s.pc (wordAt s s.pc.toNat)) ∧ t.trace = s.trace ++ [f] ∧
      f.stage = .fetch ∧ f.pc = s.pc ∧ f.offset = s.pc ∧ f.exception = true ∧
      f.exitingDueToException = true ∧ focusBits f = List.replicate 9 false ∧ shown f = s.signals ∧
      ShowsRegs f s ∧ f.mem = s.mem ∧ SameRegs s t ∧ SameMemory s t ∧ t.pc = s.pc ∧
      t.latches = { s.latches with ir := wordAt s s.pc.toNat, pc4 := s.pc + 4 } ∧
      t.signals = s.signals ∧ t.zero = s.zero ∧ t.overflow = s.overflow ∧
      t.divideByZero = s.divideByZero ∧ t.steps = s.steps ∧ t.params = s.params

/-- After a stop nothing runs: a step of a stopped run is the fault that names the stop, whatever else the
state holds (60_exceptions.md R200, 10_state.md R45). The fault is the model's choice (log 4). -/
def Obligations.StoppedRunStaysStopped : Prop :=
  ∀ (s : State) (stop : Stop), s.status = .stopped stop →
    step s = .fault (.runEnded stop) ∧ tick s = .fault (.runEnded stop)

/-- Every stop is precise: a step that stops the run has changed no register, no byte of memory, not pc and
not the step count (the spec's own inference, 60_exceptions.md R190). -/
def Obligations.StopsArePrecise : Prop :=
  ∀ (s t : State) (stop : Stop), AtFetch s → step s = .next t → t.status = .stopped stop →
    SameRegs s t ∧ t.mem = s.mem ∧ t.pc = s.pc ∧ t.steps = s.steps ∧
    t.trace.length = s.trace.length + stop.frames

/-- No step changes an earlier Frame, and none changes a run parameter, the byte order among them
(10_state.md R48, 20_memory.md R56, 40_pipeline.md R110). -/
def Obligations.StepsKeepTraceAndParameters : Prop :=
  ∀ s t : State, step s = .next t → (∃ fs, t.trace = s.trace ++ fs) ∧ t.params = s.params

/-! ### Invariants -/

/-- `State.Inv` holds right after reset. -/
def Obligations.InvariantAtReset : Prop := State.reset.Inv ∧ State.reset.pcAligned

/-- Every step keeps `State.Inv`: memory stays canonical and inside MEM_SIZE, slot 31 stays 0, the
controller is at Fetch between instructions, at most MAX_STEP instructions retire, the trace has five
Frames a retired instruction and those of the stop, and WASEL never selects XP (10_state.md R21, R43,
R44, 40_pipeline.md R107, R111, R112). -/
def Obligations.InvariantKept : Prop := ∀ s t : State, s.Inv → step s = .next t → t.Inv

/-- Every step keeps pc a multiple of 4: each next-PC source yields one (the spec's own
inference, 10_state.md R32, D7, D10). -/
def Obligations.PcStaysAligned : Prop :=
  ∀ s t : State, s.Inv → s.pcAligned → step s = .next t → t.pcAligned

/-! ### Runs -/

/-- The reset state of the default inputs (70_reset_and_hazards.md R201; D20, D23). Its memory contents,
MEM_SIZE and OFF are the model's choice (logs 1, 2, 3) and are not stated here. -/
def Obligations.ResetValues : Prop :=
  (∀ r, State.reset.reg r = 0) ∧ State.reset.regs[31] = 0 ∧ State.reset.pc = 0 ∧
  State.reset.latches =
    { ir := 0, pc4 := 0, lit := 0, ra := 31, rb := 31, rc := 31, rd1 := 0, rd2 := 0, aluOut := 0,
      memData := 0 } ∧
  State.reset.signals =
    { pcSel := driven .pc4, ra2Sel := driven .rb, aSel := driven .rd1, bSel := driven .rd2,
      wdSel := driven .pc4, mwr := driven false, moe := driven false, werf := driven false,
      waSel := driven .rc } ∧
  State.reset.zero = false ∧ State.reset.overflow = false ∧ State.reset.divideByZero = false ∧
  State.reset.stage = .fetch ∧ State.reset.steps = 0 ∧ State.reset.status = .running ∧
  State.reset.trace = [] ∧ State.reset.params.maxStep = 1000 ∧
  State.reset.params.littleEndian = false

/-- A run starts with its inputs: registers and pc reduced modulo 2^32, R31 zero whatever INIT_REGS[31] is,
memory the byte array and MEM_SIZE its length, everything else as `State.reset` has it, and the
invariant holds; an INIT_REGS of another length than 32 is refused (70_reset_and_hazards.md R201, R203,
10_state.md R27, R28, R46; D20, D23, D37). -/
def Obligations.StartOfARun : Prop :=
  ∀ inp : RunInputs,
    (inp.initRegs.length ≠ 32 → State.start inp = .refused (.badInitRegs inp.initRegs.length)) ∧
    (inp.initRegs.length = 32 → ∃ s, State.start inp = .next s ∧
      (∀ r : RegIdx, s.reg r =
        if r = 31 then 0 else BitVec.ofInt 32 (inp.initRegs.getD r.toNat 0)) ∧
      s.pc = BitVec.ofInt 32 inp.initPc ∧
      (∀ (a : Nat) (h : a < inp.mem.length), s.mem.readByte a = inp.mem[a]) ∧
      s.params.memSize = inp.mem.length ∧ s.params.littleEndian = inp.littleEndian ∧
      s.params.maxStep = inp.maxStep ∧
      s.latches = State.reset.latches ∧ s.signals = State.reset.signals ∧ s.zero = false ∧
      s.overflow = false ∧ s.divideByZero = false ∧ s.stage = .fetch ∧ s.steps = 0 ∧
      s.status = .running ∧ s.trace = [] ∧ s.Inv)

/-- Every run ends with a stop status: from any state of the invariant whose run goes on, at most
MAX_STEP - steps + 1 passes of the loop stop it (40_pipeline.md R111, 10_state.md R44, 60_exceptions.md
R185; D22). -/
def Obligations.EveryRunStops : Prop :=
  ∀ s : State, s.Inv →
    ∃ t stop, runLoop (s.params.maxStep - s.steps + 1) s = .next t ∧ t.status = .stopped stop ∧
      t.Inv ∧ t.steps ≤ s.params.maxStep

/-- `simulate` is total on inputs with 32 registers: it ends with a stop status, and the trace has five
Frames a retired instruction and those of the stop (40_pipeline.md R96, R111, R112, R113; D21, D22). -/
def Obligations.SimulateEndsWithItsTrace : Prop :=
  ∀ inp : RunInputs, inp.initRegs.length = 32 →
    ∃ t stop, simulate inp = .next t ∧ t.status = .stopped stop ∧ t.steps ≤ inp.maxStep ∧
      t.trace.length = 5 * t.steps + stop.frames

/-- The stage controller run one stage at a time, by its stage register, does in at most five stages what a
step does at once (10_state.md R43, 40_pipeline.md R101 to R105, R111). -/
def Obligations.StagesRefineSteps : Prop := ∀ s : State, AtFetch s → ticks 5 s = step s

/-- No held latch, control signal, flag or earlier Frame reaches a register, memory, pc, the step count or
the run status: two states that agree on what a program can see still do after a step
(the spec's own inference, 10_state.md R35, 70_reset_and_hazards.md R208). -/
def Obligations.HeldValuesAreInvisible : Prop :=
  ∀ s s' : State, s.stage = .fetch → AgreeForPrograms s s' →
    (∀ t, step s = .next t → ∃ t', step s' = .next t' ∧ AgreeForPrograms t t') ∧
    ∀ e, step s = .fault e → step s' = .fault e

/-! ### The assembler -/

/-- A statement that is not at fault assembles to a word that decodes to the row of its mnemonic, and bits
[31:26] of the word are that row's opcode. The fields are those its arguments give: for each `af` digit, the
register of the argument or the low 16 bits of the literal; a role no argument gives is 31, and an absent
literal is 0 (30_encoding.md R76, R81, R88 to R91; D2, D4, D5, D33). -/
def Obligations.AssembledStatementDecodes : Prop :=
  ∀ (st : Statement) (o : Op), Names st.mnemonic o → ¬ AtFault st →
    ∃ w f, encodeStatement st = .ok w ∧ w.extractLsb' 26 6 = o.opcode ∧
      decodeWord w = .ok (Instr.build o f) ∧
      (∀ (k : Nat) (d : Role) (a : Arg),
        o.af[k]? = some d → st.args[k]? = some a → Holds f d a) ∧
      (Role.literal ∉ o.af → f.lit = 0) ∧ (Role.ra ∉ o.af → f.ra = 31) ∧
      (Role.rb ∉ o.af → f.rb = 31) ∧ (Role.rc ∉ o.af → f.rc = 31)

/-- When the last word encoded is not HALT, `assemble` appends the HALT word 0x00000000 if it is asked to and
fails with MissingHaltError if it is not; an empty program becomes the one HALT word
(30_encoding.md R92). What is assembled is shown where the buffer has room. -/
def Obligations.AssembleEndsInHalt : Prop :=
  ∀ (src : List Statement) (buffer : List Byte) (offset : Int) (le : Bool) (ws : List Word),
    encodeProgram src = .ok ws →
    (ws.getLast? ≠ some 0 → ∃ e, assemble src buffer offset false le = .error e ∧ e.kind = .missingHaltError) ∧
    (0 ≤ offset → offset + 4 * (ws.length + 1) ≤ buffer.length →
      (ws.getLast? = some 0 → ∀ auto, assemble src buffer offset auto le =
        .ok (buffer.take offset.toNat ++ ws.flatMap (bytesOfWord le) ++
          buffer.drop (offset.toNat + 4 * ws.length))) ∧
      (ws.getLast? ≠ some 0 → assemble src buffer offset true le =
        .ok (buffer.take offset.toNat ++ (ws.flatMap (bytesOfWord le) ++ [0, 0, 0, 0]) ++
          buffer.drop (offset.toNat + 4 * ws.length + 4))) ∧
      (src = [] → assemble src buffer offset true le =
        .ok (buffer.take offset.toNat ++ [0, 0, 0, 0] ++ buffer.drop (offset.toNat + 4))))

/-- `assemble` writes word `i` at `offset + 4 * i` and changes no other byte; a program that does not fit
the buffer, or a negative offset, is BufferBoundsError (30_encoding.md R93). -/
def Obligations.AssembleWritesWordsAtOffset : Prop :=
  ∀ (src : List Statement) (buffer : List Byte) (offset : Int) (auto le : Bool) (ws : List Word),
    (match encodeProgram src with
      | .ok ws => ensureHalt auto ws
      | .error e => .error e) = .ok ws →
    ((offset < 0 ∨ (buffer.length : Int) < offset + 4 * ws.length) →
      ∃ e, assemble src buffer offset auto le = .error e ∧ e.kind = .bufferBoundsError) ∧
    (0 ≤ offset → offset + 4 * ws.length ≤ buffer.length →
      ∃ out, assemble src buffer offset auto le = .ok out ∧ out.length = buffer.length ∧
        (∀ k : Nat, (k < offset.toNat ∨ offset.toNat + 4 * ws.length ≤ k) → out[k]? = buffer[k]?) ∧
        ∀ (i : Nat) (h : i < ws.length) (k : Nat), k < 4 →
          out[offset.toNat + 4 * i + k]? = some (byteOfWord le ws[i] k))

/-- A program with a statement at fault does not assemble, and the first such statement aborts the assembly with
an error that names it; nothing else makes encoding fail. A mnemonic that is none of the 35 is an
UnknownInstruction, a wrong number of arguments an ArityError, a literal outside -32768..32767 a RangeError,
and an argument of the wrong type an OperandTypeError (30_encoding.md R90, R94, R95; D26, D27, D33). The
model's choices (log 12): an index counts from 0, the number of arguments is checked first, the mnemonic is
spelled as the statement spells it, and a symbol naming no register is of the wrong type. -/
def Obligations.AssemblerErrorsNameTheirStatement : Prop :=
  (∀ (src : List Statement) (e : AsmError), encodeProgram src = .error e →
    ∃ before st rest, src = before ++ st :: rest ∧ (∀ p ∈ before, ¬ AtFault p) ∧ AtFault st ∧
      NamesFault st e) ∧
  ∀ (before : List Statement) (st : Statement) (rest : List Statement),
    (∀ p ∈ before, ¬ AtFault p) → AtFault st →
    ∃ e, encodeProgram (before ++ st :: rest) = .error e ∧ NamesFault st e ∧
      ∀ (buffer : List Byte) (offset : Int) (auto le : Bool),
        assemble (before ++ st :: rest) buffer offset auto le = .error e

/-- A program encodes exactly when each of its statements does, to one word a statement, in their order
(30_encoding.md R91, R93). -/
def Obligations.ProgramEncodesEachStatement : Prop :=
  ∀ (src : List Statement) (ws : List Word),
    encodeProgram src = .ok ws ↔
      ws.length = src.length ∧
        ∀ (i : Nat) (h : i < src.length) (h' : i < ws.length), encodeStatement src[i] = .ok ws[i]
end

