-- ==== Sys2Proof/Laws/Decode.lean ====
section
/-! SUPPORT. The encoding (30_encoding.md): what a field placed at a cursor gives back, the opcode lookup, and
the bytes of a word. -/

namespace Sys2Proof

/-- A field placed at a cursor is read back there. -/
theorem extract_placed_same {n : Nat} (v : BitVec n) (c : Nat) (h : c + n ≤ 32) :
    BitVec.extractLsb' c n (v.zeroExtend 32 <<< c) = v := by
  apply BitVec.eq_of_getLsbD_eq
  intro k hk
  simp only [BitVec.getLsbD_extractLsb', BitVec.getLsbD_shiftLeft, BitVec.truncate_eq_setWidth,
    BitVec.getLsbD_setWidth]
  simp [hk, show c + k < 32 by omega]
  omega

/-- A field placed at a cursor leaves the bits of every other place 0. -/
theorem extract_placed_apart {m : Nat} (v : BitVec m) (c s n : Nat) (h : s + n ≤ c ∨ c + m ≤ s) :
    BitVec.extractLsb' s n (v.zeroExtend 32 <<< c) = 0#n := by
  apply BitVec.eq_of_getLsbD_eq
  intro k hk
  simp only [BitVec.getLsbD_extractLsb', BitVec.getLsbD_shiftLeft, BitVec.truncate_eq_setWidth,
    BitVec.getLsbD_setWidth]
  rcases h with h | h
  · simp [show s + k < c by omega]
  · have : v.getLsbD (s + k - c) = false := BitVec.getLsbD_of_ge _ _ (by omega)
    simp [this]

/-- A field read from a word and placed back is the word's bits of that field. -/
theorem placed_extract (w : Word) (c n : Nat) :
    (w.extractLsb' c n).zeroExtend 32 <<< c =
      w &&& (BitVec.allOnes n).zeroExtend 32 <<< c := by
  apply BitVec.eq_of_getLsbD_eq
  intro k hk
  by_cases h1 : k < c
  · simp [h1]
  · by_cases h2 : k - c < n
    · simp [hk, h1, h2, show c + (k - c) = k by omega]
    · simp [hk, h1, h2]

/-- The lookup finds each row by its opcode. -/
theorem Op.ofOpcode_opcode (o : Op) : Op.ofOpcode o.opcode = some o := by cases o <;> decide

/-- A row the lookup finds has the opcode looked up. -/
theorem Op.opcode_of_ofOpcode {c : Opcode} {o : Op} (h : Op.ofOpcode c = some o) : o.opcode = c := by
  simpa using List.find?_some h

@[simp] theorem Instr.op_build (o : Op) (f : Fields) : (Instr.build o f).op = o := by cases o <;> rfl

theorem Instr.eq_halt_of_op {i : Instr} (h : i.op = .halt) : i = .halt := by
  cases i <;> first | rfl | cases h

/-- The opcode field as a number. -/
theorem opcodeField_toNat (w : Word) : (opcodeField w).toNat = w.toNat / 2 ^ 26 := by
  have := w.isLt
  simp only [opcodeField, BitVec.extractLsb'_toNat, Nat.shiftRight_eq_div_pow]
  omega

/-- Everything decoding a word can come to. -/
theorem decodeWord_cases (w : Word) :
    (∃ o, Op.ofOpcode (opcodeField w) = some o ∧
      decodeWord w = .ok (Instr.build o (extractFields o.mf w))) ∨
    (Op.ofOpcode (opcodeField w) = none ∧ decodeWord w = .error (.illegalOpcode (opcodeField w))) := by
  cases h : Op.ofOpcode (opcodeField w) with
  | some o => exact .inl ⟨o, rfl, by simp [decodeWord, h]⟩
  | none => exact .inr ⟨rfl, by simp [decodeWord, h]⟩

/-- A word is composed of its own four bytes, in either byte order. -/
theorem wordOfBytes_byteOfWord (le : Bool) (w : Word) :
    wordOfBytes le (byteOfWord le w 0) (byteOfWord le w 1) (byteOfWord le w 2) (byteOfWord le w 3) =
      w := by
  have key : ∀ v : Word,
      v.extractLsb' 24 8 ++ v.extractLsb' 16 8 ++ v.extractLsb' 8 8 ++ v.extractLsb' 0 8 = v := by
    intro v
    rw [BitVec.extractLsb'_append_extractLsb'_eq_extractLsb' (by decide),
      BitVec.extractLsb'_append_extractLsb'_eq_extractLsb' (by decide),
      BitVec.extractLsb'_append_extractLsb'_eq_extractLsb' (by decide)]
    simp
  cases le <;> simpa [wordOfBytes, byteOfWord] using key w

end Sys2Proof
end

