-- ==== Sys2Proof/Laws/Assembler.lean ====
section
/-! SUPPORT. The assembler: the bytes of a list of words, as `assemble` writes them (30_encoding.md R93), what
the lookups of mnemonics and registers find (R89), and all that each of its steps can come to (R90 to R94). -/

namespace Sys2Proof.Machine

theorem wordsBytes_length (le : Bool) (ws : List Word) :
    (ws.flatMap (bytesOfWord le)).length = 4 * ws.length := by
  induction ws with
  | nil => rfl
  | cons w ws ih =>
    simp only [List.flatMap_cons, List.length_append, ih, List.length_cons]
    simp [bytesOfWord]
    omega

/-- Byte `4 * i + k` of the words' bytes is byte `k` of word `i`. -/
theorem wordsBytes_get (le : Bool) (ws : List Word) (i : Nat) (h : i < ws.length) (k : Nat)
    (hk : k < 4) :
    (ws.flatMap (bytesOfWord le))[4 * i + k]? = some (byteOfWord le ws[i] k) := by
  induction ws generalizing i with
  | nil => simp at h
  | cons w ws ih =>
    rw [List.flatMap_cons]
    cases i with
    | zero =>
      simp only [bytesOfWord]
      interval_cases k <;> rfl
    | succ i =>
      have hl : (bytesOfWord le w).length = 4 := rfl
      rw [List.getElem?_append_right (by omega), hl, show 4 * (i + 1) + k - 4 = 4 * i + k by omega]
      simpa using ih i (by simpa using h)

/-- Every format of the table fits the word, so no statement of it raises InternalEncodingError. -/
theorem mfWidth_le (o : Op) : mfWidth o.mf ≤ 26 := by cases o <;> decide

/-! ### Spellings -/

/-- A mnemonic of the table is in upper case. -/
theorem foldCase_opMnemonic (o : Op) : foldCase (opMnemonic o) = (opMnemonic o).toList := by
  cases o <;> decide

/-- No two rows share a mnemonic. -/
theorem opMnemonic_injective {o p : Op} (h : opMnemonic o = opMnemonic p) : o = p := by
  have inverse : ∀ q : Op, Op.all.find? (fun r => opMnemonic r == opMnemonic q) = some q := by
    intro q
    cases q <;> decide
  have ho := inverse o
  rw [h, inverse p] at ho
  exact (Option.some.inj ho).symm

theorem mem_all (o : Op) : o ∈ Op.all := by cases o <;> decide

/-- The lookup finds the row whose mnemonic is spelled so, case aside, and no other. -/
theorem opOfMnemonic_eq_some {m : String} {o : Op} :
    opOfMnemonic m = some o ↔ foldCase m = foldCase (opMnemonic o) := by
  constructor
  · intro h
    have := List.find?_some h
    rw [foldCase_opMnemonic]
    simpa using (beq_iff_eq.1 this).symm
  · intro h
    rw [foldCase_opMnemonic] at h
    cases hf : opOfMnemonic m with
    | none =>
      have := List.find?_eq_none.1 hf o (mem_all o)
      simp [h] at this
    | some p =>
      have := List.find?_some hf
      have hp := beq_iff_eq.1 this
      rw [h] at hp
      rw [opMnemonic_injective (String.toList_inj.1 hp)]

/-- The lookup of a register finds the one entry of the table of symbols spelled so, case aside. -/
theorem registerOfSymbol_eq_some {s : String} {r : RegIdx} :
    registerOfSymbol s = some r ↔ (foldCase s, r) ∈ registerSymbols := by
  have unique : (registerSymbols.map Prod.fst).Nodup := by decide
  simp only [registerOfSymbol, Option.map_eq_some_iff]
  constructor
  · rintro ⟨⟨cs, r'⟩, hf, rfl⟩
    have := List.find?_some hf
    rw [← beq_iff_eq.1 this]
    exact List.mem_of_find?_eq_some hf
  · intro h
    cases hf : registerSymbols.find? (fun e => e.1 == foldCase s) with
    | none => simpa using List.find?_eq_none.1 hf _ h
    | some e =>
      refine ⟨e, rfl, ?_⟩
      have := List.find?_some hf
      rw [List.inj_on_of_nodup_map unique (List.mem_of_find?_eq_some hf) h (beq_iff_eq.1 this)]

/-! ### What the assembler can come to -/

/-- Why binding one argument fails: a literal out of range, or an argument of the wrong type. The error names the
mnemonic and the index it was given. -/
theorem bindArg_error {m : String} {k : Nat} {d : Role} {a : Arg} {f : Fields} {e : AsmError}
    (h : bindArg m k d a f = .error e) :
    e.mnemonic = m ∧ e.argument = k ∧
      ((e.kind = .rangeError ∧ d = .literal ∧ ∃ n, a = .int n ∧ (n < -32768 ∨ 32767 < n)) ∨
        (e.kind = .operandTypeError ∧
          ((d = .literal ∧ ∃ s, a = .reg s) ∨ (d ≠ .literal ∧ ∃ n, a = .int n) ∨
            ∃ s, a = .reg s ∧ registerOfSymbol s = none))) := by
  cases a with
  | int n =>
    cases d
    case literal =>
      simp only [bindArg] at h
      split at h
      · cases h
      · next hn =>
        cases h
        exact ⟨rfl, rfl, .inl ⟨rfl, rfl, n, rfl, by omega⟩⟩
    all_goals
      cases h
      exact ⟨rfl, rfl, .inr ⟨rfl, .inr (.inl ⟨by decide, n, rfl⟩)⟩⟩
  | reg s =>
    cases d
    case literal =>
      cases h
      exact ⟨rfl, rfl, .inr ⟨rfl, .inl ⟨rfl, s, rfl⟩⟩⟩
    all_goals
      simp only [bindArg] at h
      split at h
      · cases h
      · next hs =>
        cases h
        exact ⟨rfl, rfl, .inr ⟨rfl, .inr (.inr ⟨s, rfl, hs⟩)⟩⟩

/-- Role `d` of the fields is what argument `a` gives it: the low 16 bits of a literal in range, or the register
a symbol names. -/
def Gives (f : Fields) (d : Role) (a : Arg) : Prop :=
  (d = .literal ∧ ∃ n, a = .int n ∧ -32768 ≤ n ∧ n ≤ 32767 ∧
    f.value d = (BitVec.ofInt 16 n).zeroExtend 32) ∨
  (d ≠ .literal ∧ ∃ s r, a = .reg s ∧ registerOfSymbol s = some r ∧ f.value d = r.zeroExtend 32)

/-- Binding one argument gives its role what the argument says and keeps every other role. -/
theorem bindArg_ok {m : String} {k : Nat} {d : Role} {a : Arg} {f g : Fields}
    (h : bindArg m k d a f = .ok g) : Gives g d a ∧ ∀ d', d' ≠ d → g.value d' = f.value d' := by
  cases a with
  | int n =>
    cases d
    case literal =>
      simp only [bindArg] at h
      split at h
      · next hn =>
        cases h
        refine ⟨.inl ⟨rfl, n, rfl, hn.1, hn.2, rfl⟩, fun d' hd => ?_⟩
        cases d' <;> first | rfl | exact absurd rfl hd
      · cases h
    all_goals cases h
  | reg s =>
    cases d
    case literal => cases h
    all_goals
      simp only [bindArg] at h
      split at h
      · next r hr =>
        cases h
        refine ⟨.inr ⟨by decide, s, r, rfl, hr, rfl⟩, fun d' hd => ?_⟩
        cases d' <;> first | rfl | exact absurd rfl hd
      · cases h

/-- Binding the arguments gives each role of the digits what its argument says and keeps every other role. -/
theorem bindArgs_ok {m : String} {k : Nat} {ds : List Role} {as : List Arg} {f g : Fields}
    (hn : ds.Nodup) (h : bindArgs m k ds as f = .ok g) :
    (∀ (j : Nat) (d : Role) (a : Arg), ds[j]? = some d → as[j]? = some a → Gives g d a) ∧
    ∀ d ∉ ds, g.value d = f.value d := by
  induction ds generalizing k as f with
  | nil =>
    cases as with
    | nil =>
      cases h
      exact ⟨by simp, fun _ _ => rfl⟩
    | cons a as => cases h
  | cons d ds ih =>
    cases as with
    | nil => cases h
    | cons a as =>
      rw [List.nodup_cons] at hn
      simp only [bindArgs] at h
      split at h
      · next g' hg =>
        obtain ⟨hgive, hkeep⟩ := bindArg_ok hg
        obtain ⟨hrest, hother⟩ := ih hn.2 h
        refine ⟨fun j d' a' hd ha => ?_, fun d' hd => ?_⟩
        · cases j with
          | zero =>
            cases hd
            cases ha
            simpa only [Gives, hother d hn.1] using hgive
          | succ j => exact hrest j d' a' hd ha
        · rw [List.mem_cons, not_or] at hd
          rw [hother d' hd.2, hkeep d' hd.1]
      · cases h

/-- When as many arguments as digits are bound from index `k` on, a failure is that of one argument, and its index
is the one named. -/
theorem bindArgs_error {m : String} {k : Nat} {ds : List Role} {as : List Arg} {f : Fields}
    {e : AsmError} (hl : as.length = ds.length) (h : bindArgs m k ds as f = .error e) :
    ∃ j d a g, ds[j]? = some d ∧ as[j]? = some a ∧ bindArg m (k + j) d a g = .error e := by
  induction ds generalizing k as f with
  | nil =>
    cases as with
    | nil => cases h
    | cons a as => cases hl
  | cons d ds ih =>
    cases as with
    | nil => cases hl
    | cons a as =>
      simp only [bindArgs] at h
      split at h
      · obtain ⟨j, d', a', g, h1, h2, h3⟩ := ih (by simpa using hl) h
        exact ⟨j + 1, d', a', g, h1, h2, by rwa [show k + (j + 1) = k + 1 + j by omega]⟩
      · next e' he =>
        cases h
        exact ⟨0, d, a, f, rfl, rfl, he⟩

/-- Every row's `af` names a role at most once. -/
theorem af_nodup (o : Op) : o.af.Nodup := by cases o <;> decide

/-- Everything the fields of a statement can come to: what its arguments give with every other role at its
default, or the error of its number of arguments or of one argument. -/
theorem statementFields_cases (o : Op) (st : Statement) :
    (∃ f, statementFields o st = .ok f ∧ st.args.length = o.af.length ∧
      (∀ (k : Nat) (d : Role) (a : Arg), o.af[k]? = some d → st.args[k]? = some a → Gives f d a) ∧
      ∀ d ∉ o.af, f.value d = Fields.absent.value d) ∨
    (st.args.length ≠ o.af.length ∧ ∃ e, statementFields o st = .error e ∧ e.kind = .arityError ∧
      e.mnemonic = st.mnemonic) ∨
    (st.args.length = o.af.length ∧ ∃ e k d a f, statementFields o st = .error e ∧
      o.af[k]? = some d ∧ st.args[k]? = some a ∧ bindArg st.mnemonic k d a f = .error e) := by
  by_cases hl : st.args.length = o.af.length
  · have hs : statementFields o st = bindArgs st.mnemonic 0 o.af st.args Fields.absent := by
      rw [statementFields, if_pos hl]
    cases h : statementFields o st with
    | ok f =>
      obtain ⟨hgive, hkeep⟩ := bindArgs_ok (af_nodup o) (hs.symm.trans h)
      exact .inl ⟨f, rfl, hl, hgive, hkeep⟩
    | error e =>
      obtain ⟨k, d, a, f, hd, ha, hb⟩ := bindArgs_error hl (hs.symm.trans h)
      rw [Nat.zero_add] at hb
      exact .inr (.inr ⟨hl, e, k, d, a, f, rfl, hd, ha, hb⟩)
  · exact .inr (.inl ⟨hl, _, by rw [statementFields, if_neg hl], rfl, rfl⟩)

/-- Everything a statement can come to: the word of its fields, or the error of its mnemonic or of its
arguments. InternalEncodingError is not among them. -/
theorem encodeStatement_cases (st : Statement) :
    (opOfMnemonic st.mnemonic = none ∧
      encodeStatement st = .error ⟨.unknownInstruction, st.mnemonic, 0⟩) ∨
    ∃ o, opOfMnemonic st.mnemonic = some o ∧
      ((∃ f, statementFields o st = .ok f ∧ encodeStatement st = .ok (encodeFields o f)) ∨
        ∃ e, statementFields o st = .error e ∧ encodeStatement st = .error e) := by
  cases ho : opOfMnemonic st.mnemonic with
  | none => exact .inl ⟨rfl, by simp only [encodeStatement, ho]⟩
  | some o =>
    refine .inr ⟨o, rfl, ?_⟩
    cases hf : statementFields o st with
    | ok f => exact .inl ⟨f, rfl, by simp only [encodeStatement, ho, hf, if_pos (mfWidth_le o)]⟩
    | error e => exact .inr ⟨e, rfl, by simp only [encodeStatement, ho, hf]⟩

/-- Everything encoding a program can come to: one word a statement, or the error of the first statement that
has one. -/
theorem encodeProgram_cases (src : List Statement) :
    (∃ ws, encodeProgram src = .ok ws ∧ ws.length = src.length) ∨
    ∃ e before st rest, encodeProgram src = .error e ∧ src = before ++ st :: rest ∧
      (∀ p ∈ before, ∃ w, encodeStatement p = .ok w) ∧ encodeStatement st = .error e := by
  induction src with
  | nil => exact .inl ⟨[], rfl, rfl⟩
  | cons st src ih =>
    cases hst : encodeStatement st with
    | error e => exact .inr ⟨e, [], st, src, by simp [encodeProgram, hst], rfl, by simp, hst⟩
    | ok w =>
      rcases ih with ⟨ws, h, hl⟩ | ⟨e, before, st', rest, h, hs, hb, he⟩
      · exact .inl ⟨w :: ws, by simp [encodeProgram, hst, h], by simp [hl]⟩
      · refine .inr ⟨e, st :: before, st', rest, by simp [encodeProgram, hst, h], by simp [hs], ?_, he⟩
        intro p hp
        rcases List.mem_cons.1 hp with rfl | hp
        · exact ⟨w, hst⟩
        · exact hb p hp

/-- Everything the HALT at the end can come to. -/
theorem ensureHalt_cases (auto : Bool) (ws : List Word) :
    (ws.getLast? = some haltWord ∧ ensureHalt auto ws = .ok ws) ∨
    (ws.getLast? ≠ some haltWord ∧ auto = true ∧ ensureHalt auto ws = .ok (ws ++ [haltWord])) ∨
    (ws.getLast? ≠ some haltWord ∧ auto = false ∧
      ensureHalt auto ws = .error ⟨.missingHaltError, opMnemonic .halt, 0⟩) := by
  by_cases h : ws.getLast? = some haltWord
  · exact .inl ⟨h, by rw [ensureHalt, if_pos h]⟩
  · cases auto
    · exact .inr (.inr ⟨h, rfl, by rw [ensureHalt, if_neg h]; rfl⟩)
    · exact .inr (.inl ⟨h, rfl, by rw [ensureHalt, if_neg h]; rfl⟩)

/-- An error of the statements is the error of the assembly. -/
theorem assemble_error {src : List Statement} {e : AsmError} (h : encodeProgram src = .error e)
    (buffer : List Byte) (offset : Int) (auto le : Bool) :
    assemble src buffer offset auto le = .error e := by
  simp only [assemble, h]

/-- What assembling does with the words of a program and its HALT: they are written when they fit, and otherwise
the error is BufferBoundsError. -/
theorem assemble_words {src : List Statement} {ws ws' : List Word} {auto : Bool}
    (h : encodeProgram src = .ok ws) (h' : ensureHalt auto ws = .ok ws') (buffer : List Byte)
    (offset : Int) (le : Bool) :
    assemble src buffer offset auto le =
      if 0 ≤ offset ∧ offset + 4 * ws'.length ≤ buffer.length then
        .ok (overwrite buffer offset.toNat (ws'.flatMap (bytesOfWord le)))
      else .error ⟨.bufferBoundsError, misfitMnemonic src buffer.length offset, 0⟩ := by
  simp only [assemble, h, h']

end Sys2Proof.Machine
end

