-- ==== Sys2Proof/Laws/State.lean ====
section
/-! SUPPORT. One lemma per field of `State` for each named update of the stage controller: what the field
holds after the update. Later proofs rewrite with these and do not unfold a record update. -/

namespace Sys2Proof.Machine

/-- The ALU's outputs in Execute (40_pipeline.md R103). -/
def executeOut (c : Control) (op : Option AluOp) (s : State) : AluResult :=
  runAlu op (aluInputA s.latches (s.signals.aSel.apply c.aSel).value)
    (aluInputB s.latches (s.signals.bSel.apply c.bSel).value) s.latches.aluOut

/-! ### State.emit -/

@[simp] theorem State.emit_regs (s : State) (st : Stage) (exc : Bool) :
    (s.emit st exc).regs = s.regs := rfl
@[simp] theorem State.emit_pc (s : State) (st : Stage) (exc : Bool) :
    (s.emit st exc).pc = s.pc := rfl
@[simp] theorem State.emit_mem (s : State) (st : Stage) (exc : Bool) :
    (s.emit st exc).mem = s.mem := rfl
@[simp] theorem State.emit_latches (s : State) (st : Stage) (exc : Bool) :
    (s.emit st exc).latches = s.latches := rfl
@[simp] theorem State.emit_signals (s : State) (st : Stage) (exc : Bool) :
    (s.emit st exc).signals = s.signals := rfl
@[simp] theorem State.emit_zero (s : State) (st : Stage) (exc : Bool) :
    (s.emit st exc).zero = s.zero := rfl
@[simp] theorem State.emit_overflow (s : State) (st : Stage) (exc : Bool) :
    (s.emit st exc).overflow = s.overflow := rfl
@[simp] theorem State.emit_divideByZero (s : State) (st : Stage) (exc : Bool) :
    (s.emit st exc).divideByZero = s.divideByZero := rfl
@[simp] theorem State.emit_stage (s : State) (st : Stage) (exc : Bool) :
    (s.emit st exc).stage = s.stage := rfl
@[simp] theorem State.emit_steps (s : State) (st : Stage) (exc : Bool) :
    (s.emit st exc).steps = s.steps := rfl
@[simp] theorem State.emit_status (s : State) (st : Stage) (exc : Bool) :
    (s.emit st exc).status = s.status := rfl
@[simp] theorem State.emit_offset (s : State) (st : Stage) (exc : Bool) :
    (s.emit st exc).offset = s.offset := rfl
@[simp] theorem State.emit_trace (s : State) (st : Stage) (exc : Bool) :
    (s.emit st exc).trace = s.trace ++ [s.frame st exc] := rfl
@[simp] theorem State.emit_params (s : State) (st : Stage) (exc : Bool) :
    (s.emit st exc).params = s.params := rfl

/-! ### State.setOffset -/

@[simp] theorem State.setOffset_regs (s : State) : s.setOffset.regs = s.regs := rfl
@[simp] theorem State.setOffset_pc (s : State) : s.setOffset.pc = s.pc := rfl
@[simp] theorem State.setOffset_mem (s : State) : s.setOffset.mem = s.mem := rfl
@[simp] theorem State.setOffset_latches (s : State) : s.setOffset.latches = s.latches := rfl
@[simp] theorem State.setOffset_signals (s : State) : s.setOffset.signals = s.signals := rfl
@[simp] theorem State.setOffset_zero (s : State) : s.setOffset.zero = s.zero := rfl
@[simp] theorem State.setOffset_overflow (s : State) : s.setOffset.overflow = s.overflow := rfl
@[simp] theorem State.setOffset_divideByZero (s : State) :
    s.setOffset.divideByZero = s.divideByZero := rfl
@[simp] theorem State.setOffset_stage (s : State) : s.setOffset.stage = s.stage := rfl
@[simp] theorem State.setOffset_steps (s : State) : s.setOffset.steps = s.steps := rfl
@[simp] theorem State.setOffset_status (s : State) : s.setOffset.status = s.status := rfl
@[simp] theorem State.setOffset_offset (s : State) : s.setOffset.offset = s.pc := rfl
@[simp] theorem State.setOffset_trace (s : State) : s.setOffset.trace = s.trace := rfl
@[simp] theorem State.setOffset_params (s : State) : s.setOffset.params = s.params := rfl

/-! ### State.latchIr -/

@[simp] theorem State.latchIr_regs (s : State) (w : Word) : (s.latchIr w).regs = s.regs := rfl
@[simp] theorem State.latchIr_pc (s : State) (w : Word) : (s.latchIr w).pc = s.pc := rfl
@[simp] theorem State.latchIr_mem (s : State) (w : Word) : (s.latchIr w).mem = s.mem := rfl
@[simp] theorem State.latchIr_latches (s : State) (w : Word) :
    (s.latchIr w).latches = { s.latches with ir := w } := rfl
@[simp] theorem State.latchIr_signals (s : State) (w : Word) :
    (s.latchIr w).signals = s.signals := rfl
@[simp] theorem State.latchIr_zero (s : State) (w : Word) : (s.latchIr w).zero = s.zero := rfl
@[simp] theorem State.latchIr_overflow (s : State) (w : Word) :
    (s.latchIr w).overflow = s.overflow := rfl
@[simp] theorem State.latchIr_divideByZero (s : State) (w : Word) :
    (s.latchIr w).divideByZero = s.divideByZero := rfl
@[simp] theorem State.latchIr_stage (s : State) (w : Word) : (s.latchIr w).stage = s.stage := rfl
@[simp] theorem State.latchIr_steps (s : State) (w : Word) : (s.latchIr w).steps = s.steps := rfl
@[simp] theorem State.latchIr_status (s : State) (w : Word) :
    (s.latchIr w).status = s.status := rfl
@[simp] theorem State.latchIr_offset (s : State) (w : Word) :
    (s.latchIr w).offset = s.offset := rfl
@[simp] theorem State.latchIr_trace (s : State) (w : Word) : (s.latchIr w).trace = s.trace := rfl
@[simp] theorem State.latchIr_params (s : State) (w : Word) :
    (s.latchIr w).params = s.params := rfl

/-! ### State.openInstr -/

@[simp] theorem State.openInstr_regs (s : State) : s.openInstr.regs = s.regs := rfl
@[simp] theorem State.openInstr_pc (s : State) : s.openInstr.pc = s.pc := rfl
@[simp] theorem State.openInstr_mem (s : State) : s.openInstr.mem = s.mem := rfl
@[simp] theorem State.openInstr_latches (s : State) :
    s.openInstr.latches = { s.latches with pc4 := s.pc + 4 } := rfl
@[simp] theorem State.openInstr_signals (s : State) : s.openInstr.signals = s.signals := rfl
@[simp] theorem State.openInstr_zero (s : State) : s.openInstr.zero = s.zero := rfl
@[simp] theorem State.openInstr_overflow (s : State) : s.openInstr.overflow = s.overflow := rfl
@[simp] theorem State.openInstr_divideByZero (s : State) :
    s.openInstr.divideByZero = s.divideByZero := rfl
@[simp] theorem State.openInstr_stage (s : State) : s.openInstr.stage = s.stage := rfl
@[simp] theorem State.openInstr_steps (s : State) : s.openInstr.steps = s.steps := rfl
@[simp] theorem State.openInstr_status (s : State) : s.openInstr.status = s.status := rfl
@[simp] theorem State.openInstr_offset (s : State) : s.openInstr.offset = s.pc := rfl
@[simp] theorem State.openInstr_trace (s : State) : s.openInstr.trace = s.trace := rfl
@[simp] theorem State.openInstr_params (s : State) : s.openInstr.params = s.params := rfl

/-! ### State.goto -/

@[simp] theorem State.goto_regs (s : State) (st : Stage) : (s.goto st).regs = s.regs := rfl
@[simp] theorem State.goto_pc (s : State) (st : Stage) : (s.goto st).pc = s.pc := rfl
@[simp] theorem State.goto_mem (s : State) (st : Stage) : (s.goto st).mem = s.mem := rfl
@[simp] theorem State.goto_latches (s : State) (st : Stage) :
    (s.goto st).latches = s.latches := rfl
@[simp] theorem State.goto_signals (s : State) (st : Stage) :
    (s.goto st).signals = s.signals := rfl
@[simp] theorem State.goto_zero (s : State) (st : Stage) : (s.goto st).zero = s.zero := rfl
@[simp] theorem State.goto_overflow (s : State) (st : Stage) :
    (s.goto st).overflow = s.overflow := rfl
@[simp] theorem State.goto_divideByZero (s : State) (st : Stage) :
    (s.goto st).divideByZero = s.divideByZero := rfl
@[simp] theorem State.goto_stage (s : State) (st : Stage) : (s.goto st).stage = st := rfl
@[simp] theorem State.goto_steps (s : State) (st : Stage) : (s.goto st).steps = s.steps := rfl
@[simp] theorem State.goto_status (s : State) (st : Stage) : (s.goto st).status = s.status := rfl
@[simp] theorem State.goto_offset (s : State) (st : Stage) : (s.goto st).offset = s.offset := rfl
@[simp] theorem State.goto_trace (s : State) (st : Stage) : (s.goto st).trace = s.trace := rfl
@[simp] theorem State.goto_params (s : State) (st : Stage) : (s.goto st).params = s.params := rfl

/-! ### State.raise -/

@[simp] theorem State.raise_regs (s : State) (e : Stop) : (s.raise e).regs = s.regs := rfl
@[simp] theorem State.raise_pc (s : State) (e : Stop) : (s.raise e).pc = s.pc := rfl
@[simp] theorem State.raise_mem (s : State) (e : Stop) : (s.raise e).mem = s.mem := rfl
@[simp] theorem State.raise_latches (s : State) (e : Stop) :
    (s.raise e).latches = s.latches := rfl
@[simp] theorem State.raise_signals (s : State) (e : Stop) :
    (s.raise e).signals = s.signals := rfl
@[simp] theorem State.raise_zero (s : State) (e : Stop) : (s.raise e).zero = s.zero := rfl
@[simp] theorem State.raise_overflow (s : State) (e : Stop) :
    (s.raise e).overflow = s.overflow := rfl
@[simp] theorem State.raise_divideByZero (s : State) (e : Stop) :
    (s.raise e).divideByZero = s.divideByZero := rfl
@[simp] theorem State.raise_stage (s : State) (e : Stop) : (s.raise e).stage = s.stage := rfl
@[simp] theorem State.raise_steps (s : State) (e : Stop) : (s.raise e).steps = s.steps := rfl
@[simp] theorem State.raise_status (s : State) (e : Stop) : (s.raise e).status = .stopped e := rfl
@[simp] theorem State.raise_offset (s : State) (e : Stop) : (s.raise e).offset = s.offset := rfl
@[simp] theorem State.raise_trace (s : State) (e : Stop) : (s.raise e).trace = s.trace := rfl
@[simp] theorem State.raise_params (s : State) (e : Stop) : (s.raise e).params = s.params := rfl

/-! ### State.takeFault -/

@[simp] theorem State.takeFault_regs (s : State) (st : Stage) (e : Stop) :
    (s.takeFault st e).regs = s.regs := rfl
@[simp] theorem State.takeFault_pc (s : State) (st : Stage) (e : Stop) :
    (s.takeFault st e).pc = s.pc := rfl
@[simp] theorem State.takeFault_mem (s : State) (st : Stage) (e : Stop) :
    (s.takeFault st e).mem = s.mem := rfl
@[simp] theorem State.takeFault_latches (s : State) (st : Stage) (e : Stop) :
    (s.takeFault st e).latches = s.latches := rfl
@[simp] theorem State.takeFault_signals (s : State) (st : Stage) (e : Stop) :
    (s.takeFault st e).signals = s.signals := rfl
@[simp] theorem State.takeFault_zero (s : State) (st : Stage) (e : Stop) :
    (s.takeFault st e).zero = s.zero := rfl
@[simp] theorem State.takeFault_overflow (s : State) (st : Stage) (e : Stop) :
    (s.takeFault st e).overflow = s.overflow := rfl
@[simp] theorem State.takeFault_divideByZero (s : State) (st : Stage) (e : Stop) :
    (s.takeFault st e).divideByZero = s.divideByZero := rfl
@[simp] theorem State.takeFault_stage (s : State) (st : Stage) (e : Stop) :
    (s.takeFault st e).stage = s.stage := rfl
@[simp] theorem State.takeFault_steps (s : State) (st : Stage) (e : Stop) :
    (s.takeFault st e).steps = s.steps := rfl
@[simp] theorem State.takeFault_status (s : State) (st : Stage) (e : Stop) :
    (s.takeFault st e).status = .stopped e := rfl
@[simp] theorem State.takeFault_offset (s : State) (st : Stage) (e : Stop) :
    (s.takeFault st e).offset = s.offset := rfl
@[simp] theorem State.takeFault_trace (s : State) (st : Stage) (e : Stop) :
    (s.takeFault st e).trace = s.trace ++ [s.frame st true] := rfl
@[simp] theorem State.takeFault_params (s : State) (st : Stage) (e : Stop) :
    (s.takeFault st e).params = s.params := rfl

/-! ### decodeUpdate -/

@[simp] theorem decodeUpdate_regs (c : Control) (f : Fields) (s : State) :
    (decodeUpdate c f s).regs = s.regs := rfl
@[simp] theorem decodeUpdate_pc (c : Control) (f : Fields) (s : State) :
    (decodeUpdate c f s).pc = s.pc := rfl
@[simp] theorem decodeUpdate_mem (c : Control) (f : Fields) (s : State) :
    (decodeUpdate c f s).mem = s.mem := rfl
@[simp] theorem decodeUpdate_latches (c : Control) (f : Fields) (s : State) :
    (decodeUpdate c f s).latches = { s.latches with
      lit := sext32 f.lit, ra := f.ra, rb := f.rb, rc := f.rc, rd1 := s.reg f.ra,
      rd2 := if c.ra2Sel.isSome then readPort2 s (s.signals.ra2Sel.apply c.ra2Sel).value f
        else s.latches.rd2 } := rfl
@[simp] theorem decodeUpdate_signals (c : Control) (f : Fields) (s : State) :
    (decodeUpdate c f s).signals = { s.signals with ra2Sel := s.signals.ra2Sel.apply c.ra2Sel } := rfl
@[simp] theorem decodeUpdate_zero (c : Control) (f : Fields) (s : State) :
    (decodeUpdate c f s).zero = s.zero := rfl
@[simp] theorem decodeUpdate_overflow (c : Control) (f : Fields) (s : State) :
    (decodeUpdate c f s).overflow = s.overflow := rfl
@[simp] theorem decodeUpdate_divideByZero (c : Control) (f : Fields) (s : State) :
    (decodeUpdate c f s).divideByZero = s.divideByZero := rfl
@[simp] theorem decodeUpdate_stage (c : Control) (f : Fields) (s : State) :
    (decodeUpdate c f s).stage = s.stage := rfl
@[simp] theorem decodeUpdate_steps (c : Control) (f : Fields) (s : State) :
    (decodeUpdate c f s).steps = s.steps := rfl
@[simp] theorem decodeUpdate_status (c : Control) (f : Fields) (s : State) :
    (decodeUpdate c f s).status = s.status := rfl
@[simp] theorem decodeUpdate_offset (c : Control) (f : Fields) (s : State) :
    (decodeUpdate c f s).offset = s.offset := rfl
@[simp] theorem decodeUpdate_trace (c : Control) (f : Fields) (s : State) :
    (decodeUpdate c f s).trace = s.trace := rfl
@[simp] theorem decodeUpdate_params (c : Control) (f : Fields) (s : State) :
    (decodeUpdate c f s).params = s.params := rfl

/-! ### executeUpdate -/

@[simp] theorem executeUpdate_regs (c : Control) (op : Option AluOp) (s : State) :
    (executeUpdate c op s).regs = s.regs := rfl
@[simp] theorem executeUpdate_pc (c : Control) (op : Option AluOp) (s : State) :
    (executeUpdate c op s).pc = s.pc := rfl
@[simp] theorem executeUpdate_mem (c : Control) (op : Option AluOp) (s : State) :
    (executeUpdate c op s).mem = s.mem := rfl
@[simp] theorem executeUpdate_latches (c : Control) (op : Option AluOp) (s : State) :
    (executeUpdate c op s).latches = { s.latches with aluOut := (executeOut c op s).r } := rfl
@[simp] theorem executeUpdate_signals (c : Control) (op : Option AluOp) (s : State) :
    (executeUpdate c op s).signals = { s.signals with
      aSel := s.signals.aSel.apply c.aSel, bSel := s.signals.bSel.apply c.bSel,
      pcSel := s.signals.pcSel.applyPc (zeroFlag s.latches.rd1 s.latches.rd2) c.pcSel } := rfl
@[simp] theorem executeUpdate_zero (c : Control) (op : Option AluOp) (s : State) :
    (executeUpdate c op s).zero = zeroFlag s.latches.rd1 s.latches.rd2 := rfl
@[simp] theorem executeUpdate_overflow (c : Control) (op : Option AluOp) (s : State) :
    (executeUpdate c op s).overflow = (executeOut c op s).v := rfl
@[simp] theorem executeUpdate_divideByZero (c : Control) (op : Option AluOp) (s : State) :
    (executeUpdate c op s).divideByZero = (executeOut c op s).dz := rfl
@[simp] theorem executeUpdate_stage (c : Control) (op : Option AluOp) (s : State) :
    (executeUpdate c op s).stage = s.stage := rfl
@[simp] theorem executeUpdate_steps (c : Control) (op : Option AluOp) (s : State) :
    (executeUpdate c op s).steps = s.steps := rfl
@[simp] theorem executeUpdate_status (c : Control) (op : Option AluOp) (s : State) :
    (executeUpdate c op s).status = s.status := rfl
@[simp] theorem executeUpdate_offset (c : Control) (op : Option AluOp) (s : State) :
    (executeUpdate c op s).offset = s.offset := rfl
@[simp] theorem executeUpdate_trace (c : Control) (op : Option AluOp) (s : State) :
    (executeUpdate c op s).trace = s.trace := rfl
@[simp] theorem executeUpdate_params (c : Control) (op : Option AluOp) (s : State) :
    (executeUpdate c op s).params = s.params := rfl

/-! ### memorySignals -/

@[simp] theorem memorySignals_regs (c : Control) (s : State) :
    (memorySignals c s).regs = s.regs := rfl
@[simp] theorem memorySignals_pc (c : Control) (s : State) : (memorySignals c s).pc = s.pc := rfl
@[simp] theorem memorySignals_mem (c : Control) (s : State) :
    (memorySignals c s).mem = s.mem := rfl
@[simp] theorem memorySignals_latches (c : Control) (s : State) :
    (memorySignals c s).latches = s.latches := rfl
@[simp] theorem memorySignals_signals (c : Control) (s : State) :
    (memorySignals c s).signals = { s.signals with
      mwr := s.signals.mwr.apply c.mwr, moe := s.signals.moe.apply c.moe } := rfl
@[simp] theorem memorySignals_zero (c : Control) (s : State) :
    (memorySignals c s).zero = s.zero := rfl
@[simp] theorem memorySignals_overflow (c : Control) (s : State) :
    (memorySignals c s).overflow = s.overflow := rfl
@[simp] theorem memorySignals_divideByZero (c : Control) (s : State) :
    (memorySignals c s).divideByZero = s.divideByZero := rfl
@[simp] theorem memorySignals_stage (c : Control) (s : State) :
    (memorySignals c s).stage = s.stage := rfl
@[simp] theorem memorySignals_steps (c : Control) (s : State) :
    (memorySignals c s).steps = s.steps := rfl
@[simp] theorem memorySignals_status (c : Control) (s : State) :
    (memorySignals c s).status = s.status := rfl
@[simp] theorem memorySignals_offset (c : Control) (s : State) :
    (memorySignals c s).offset = s.offset := rfl
@[simp] theorem memorySignals_trace (c : Control) (s : State) :
    (memorySignals c s).trace = s.trace := rfl
@[simp] theorem memorySignals_params (c : Control) (s : State) :
    (memorySignals c s).params = s.params := rfl

/-! ### memoryAccess -/

@[simp] theorem memoryAccess_regs (w r : Bool) (s : State) :
    (memoryAccess w r s).regs = s.regs := rfl
@[simp] theorem memoryAccess_pc (w r : Bool) (s : State) : (memoryAccess w r s).pc = s.pc := rfl
@[simp] theorem memoryAccess_mem (w r : Bool) (s : State) :
    (memoryAccess w r s).mem = if w then s.mem.writeWord s.params.littleEndian s.latches.aluOut.toNat s.latches.rd2
      else s.mem := rfl
@[simp] theorem memoryAccess_latches (w r : Bool) (s : State) :
    (memoryAccess w r s).latches = { s.latches with
      memData := if r then s.mem.readWord s.params.littleEndian s.latches.aluOut.toNat
        else s.latches.memData } := rfl
@[simp] theorem memoryAccess_signals (w r : Bool) (s : State) :
    (memoryAccess w r s).signals = s.signals := rfl
@[simp] theorem memoryAccess_zero (w r : Bool) (s : State) :
    (memoryAccess w r s).zero = s.zero := rfl
@[simp] theorem memoryAccess_overflow (w r : Bool) (s : State) :
    (memoryAccess w r s).overflow = s.overflow := rfl
@[simp] theorem memoryAccess_divideByZero (w r : Bool) (s : State) :
    (memoryAccess w r s).divideByZero = s.divideByZero := rfl
@[simp] theorem memoryAccess_stage (w r : Bool) (s : State) :
    (memoryAccess w r s).stage = s.stage := rfl
@[simp] theorem memoryAccess_steps (w r : Bool) (s : State) :
    (memoryAccess w r s).steps = s.steps := rfl
@[simp] theorem memoryAccess_status (w r : Bool) (s : State) :
    (memoryAccess w r s).status = s.status := rfl
@[simp] theorem memoryAccess_offset (w r : Bool) (s : State) :
    (memoryAccess w r s).offset = s.offset := rfl
@[simp] theorem memoryAccess_trace (w r : Bool) (s : State) :
    (memoryAccess w r s).trace = s.trace := rfl
@[simp] theorem memoryAccess_params (w r : Bool) (s : State) :
    (memoryAccess w r s).params = s.params := rfl

/-! ### writeBackSignals -/

@[simp] theorem writeBackSignals_regs (c : Control) (s : State) :
    (writeBackSignals c s).regs = s.regs := rfl
@[simp] theorem writeBackSignals_pc (c : Control) (s : State) :
    (writeBackSignals c s).pc = s.pc := rfl
@[simp] theorem writeBackSignals_mem (c : Control) (s : State) :
    (writeBackSignals c s).mem = s.mem := rfl
@[simp] theorem writeBackSignals_latches (c : Control) (s : State) :
    (writeBackSignals c s).latches = s.latches := rfl
@[simp] theorem writeBackSignals_signals (c : Control) (s : State) :
    (writeBackSignals c s).signals = { s.signals with
      wdSel := s.signals.wdSel.apply c.wdSel, werf := s.signals.werf.apply c.werf,
      waSel := s.signals.waSel.apply c.waSel } := rfl
@[simp] theorem writeBackSignals_zero (c : Control) (s : State) :
    (writeBackSignals c s).zero = s.zero := rfl
@[simp] theorem writeBackSignals_overflow (c : Control) (s : State) :
    (writeBackSignals c s).overflow = s.overflow := rfl
@[simp] theorem writeBackSignals_divideByZero (c : Control) (s : State) :
    (writeBackSignals c s).divideByZero = s.divideByZero := rfl
@[simp] theorem writeBackSignals_stage (c : Control) (s : State) :
    (writeBackSignals c s).stage = s.stage := rfl
@[simp] theorem writeBackSignals_steps (c : Control) (s : State) :
    (writeBackSignals c s).steps = s.steps := rfl
@[simp] theorem writeBackSignals_status (c : Control) (s : State) :
    (writeBackSignals c s).status = s.status := rfl
@[simp] theorem writeBackSignals_offset (c : Control) (s : State) :
    (writeBackSignals c s).offset = s.offset := rfl
@[simp] theorem writeBackSignals_trace (c : Control) (s : State) :
    (writeBackSignals c s).trace = s.trace := rfl
@[simp] theorem writeBackSignals_params (c : Control) (s : State) :
    (writeBackSignals c s).params = s.params := rfl

/-! ### advancePc -/

@[simp] theorem advancePc_regs (s : State) : (advancePc s).regs = s.regs := rfl
@[simp] theorem advancePc_pc (s : State) :
    (advancePc s).pc = nextPc s.latches s.signals.pcSel.value := rfl
@[simp] theorem advancePc_mem (s : State) : (advancePc s).mem = s.mem := rfl
@[simp] theorem advancePc_latches (s : State) : (advancePc s).latches = s.latches := rfl
@[simp] theorem advancePc_signals (s : State) : (advancePc s).signals = s.signals := rfl
@[simp] theorem advancePc_zero (s : State) : (advancePc s).zero = s.zero := rfl
@[simp] theorem advancePc_overflow (s : State) : (advancePc s).overflow = s.overflow := rfl
@[simp] theorem advancePc_divideByZero (s : State) :
    (advancePc s).divideByZero = s.divideByZero := rfl
@[simp] theorem advancePc_stage (s : State) : (advancePc s).stage = s.stage := rfl
@[simp] theorem advancePc_steps (s : State) : (advancePc s).steps = s.steps := rfl
@[simp] theorem advancePc_status (s : State) : (advancePc s).status = s.status := rfl
@[simp] theorem advancePc_offset (s : State) : (advancePc s).offset = s.offset := rfl
@[simp] theorem advancePc_trace (s : State) : (advancePc s).trace = s.trace := rfl
@[simp] theorem advancePc_params (s : State) : (advancePc s).params = s.params := rfl

/-! ### countStep -/

@[simp] theorem countStep_regs (s : State) : (countStep s).regs = s.regs := rfl
@[simp] theorem countStep_pc (s : State) : (countStep s).pc = s.pc := rfl
@[simp] theorem countStep_mem (s : State) : (countStep s).mem = s.mem := rfl
@[simp] theorem countStep_latches (s : State) : (countStep s).latches = s.latches := rfl
@[simp] theorem countStep_signals (s : State) : (countStep s).signals = s.signals := rfl
@[simp] theorem countStep_zero (s : State) : (countStep s).zero = s.zero := rfl
@[simp] theorem countStep_overflow (s : State) : (countStep s).overflow = s.overflow := rfl
@[simp] theorem countStep_divideByZero (s : State) :
    (countStep s).divideByZero = s.divideByZero := rfl
@[simp] theorem countStep_stage (s : State) : (countStep s).stage = s.stage := rfl
@[simp] theorem countStep_steps (s : State) : (countStep s).steps = s.steps + 1 := rfl
@[simp] theorem countStep_status (s : State) : (countStep s).status = s.status := rfl
@[simp] theorem countStep_offset (s : State) : (countStep s).offset = s.offset := rfl
@[simp] theorem countStep_trace (s : State) : (countStep s).trace = s.trace := rfl
@[simp] theorem countStep_params (s : State) : (countStep s).params = s.params := rfl

/-! ### State.writeReg and the register write of WriteBack -/

@[simp] theorem State.writeReg_pc (s : State) (r : RegIdx) (v : Word) :
    (s.writeReg r v).pc = s.pc := by unfold State.writeReg; split <;> rfl
@[simp] theorem State.writeReg_mem (s : State) (r : RegIdx) (v : Word) :
    (s.writeReg r v).mem = s.mem := by unfold State.writeReg; split <;> rfl
@[simp] theorem State.writeReg_latches (s : State) (r : RegIdx) (v : Word) :
    (s.writeReg r v).latches = s.latches := by unfold State.writeReg; split <;> rfl
@[simp] theorem State.writeReg_signals (s : State) (r : RegIdx) (v : Word) :
    (s.writeReg r v).signals = s.signals := by unfold State.writeReg; split <;> rfl
@[simp] theorem State.writeReg_zero (s : State) (r : RegIdx) (v : Word) :
    (s.writeReg r v).zero = s.zero := by unfold State.writeReg; split <;> rfl
@[simp] theorem State.writeReg_overflow (s : State) (r : RegIdx) (v : Word) :
    (s.writeReg r v).overflow = s.overflow := by unfold State.writeReg; split <;> rfl
@[simp] theorem State.writeReg_divideByZero (s : State) (r : RegIdx) (v : Word) :
    (s.writeReg r v).divideByZero = s.divideByZero := by unfold State.writeReg; split <;> rfl
@[simp] theorem State.writeReg_stage (s : State) (r : RegIdx) (v : Word) :
    (s.writeReg r v).stage = s.stage := by unfold State.writeReg; split <;> rfl
@[simp] theorem State.writeReg_steps (s : State) (r : RegIdx) (v : Word) :
    (s.writeReg r v).steps = s.steps := by unfold State.writeReg; split <;> rfl
@[simp] theorem State.writeReg_status (s : State) (r : RegIdx) (v : Word) :
    (s.writeReg r v).status = s.status := by unfold State.writeReg; split <;> rfl
@[simp] theorem State.writeReg_offset (s : State) (r : RegIdx) (v : Word) :
    (s.writeReg r v).offset = s.offset := by unfold State.writeReg; split <;> rfl
@[simp] theorem State.writeReg_trace (s : State) (r : RegIdx) (v : Word) :
    (s.writeReg r v).trace = s.trace := by unfold State.writeReg; split <;> rfl
@[simp] theorem State.writeReg_params (s : State) (r : RegIdx) (v : Word) :
    (s.writeReg r v).params = s.params := by unfold State.writeReg; split <;> rfl

@[simp] theorem registerWrite_pc (s : State) : (registerWrite s).pc = s.pc := by
  unfold registerWrite; split <;> simp
@[simp] theorem registerWrite_mem (s : State) : (registerWrite s).mem = s.mem := by
  unfold registerWrite; split <;> simp
@[simp] theorem registerWrite_latches (s : State) : (registerWrite s).latches = s.latches := by
  unfold registerWrite; split <;> simp
@[simp] theorem registerWrite_signals (s : State) : (registerWrite s).signals = s.signals := by
  unfold registerWrite; split <;> simp
@[simp] theorem registerWrite_zero (s : State) : (registerWrite s).zero = s.zero := by
  unfold registerWrite; split <;> simp
@[simp] theorem registerWrite_overflow (s : State) : (registerWrite s).overflow = s.overflow := by
  unfold registerWrite; split <;> simp
@[simp] theorem registerWrite_divideByZero (s : State) : (registerWrite s).divideByZero = s.divideByZero := by
  unfold registerWrite; split <;> simp
@[simp] theorem registerWrite_stage (s : State) : (registerWrite s).stage = s.stage := by
  unfold registerWrite; split <;> simp
@[simp] theorem registerWrite_steps (s : State) : (registerWrite s).steps = s.steps := by
  unfold registerWrite; split <;> simp
@[simp] theorem registerWrite_status (s : State) : (registerWrite s).status = s.status := by
  unfold registerWrite; split <;> simp
@[simp] theorem registerWrite_offset (s : State) : (registerWrite s).offset = s.offset := by
  unfold registerWrite; split <;> simp
@[simp] theorem registerWrite_trace (s : State) : (registerWrite s).trace = s.trace := by
  unfold registerWrite; split <;> simp
@[simp] theorem registerWrite_params (s : State) : (registerWrite s).params = s.params := by
  unfold registerWrite; split <;> simp

/-! ### Control signals -/

@[simp] theorem Signal.apply_some {α : Type} (g : Signal α) (v : α) :
    g.apply (some v) = { value := v, dirty := false } := rfl
@[simp] theorem Signal.apply_none {α : Type} (g : Signal α) :
    g.apply none = { g with dirty := true } := rfl
@[simp] theorem Signal.applyPc_one (g : Signal PcSel) (z : Bool) (v : PcSel) :
    g.applyPc z (some (.one v)) = { value := v, dirty := false } := rfl
@[simp] theorem Signal.applyPc_pair (g : Signal PcSel) (z : Bool) (ne eq : PcSel) :
    g.applyPc z (some (.pair ne eq)) = { value := if z then eq else ne, dirty := false } := rfl
@[simp] theorem Signal.applyPc_none (g : Signal PcSel) (z : Bool) :
    g.applyPc z none = { g with dirty := true } := rfl

end Sys2Proof.Machine
end

