-- ==== Sys2Proof/Laws/Memory.lean ====
section
/-! SUPPORT. Memory (20_memory.md): the laws of one byte, and the canonical form, which every memory
operation keeps. -/

namespace Sys2Proof.Machine

/-! ### One byte -/

theorem Memory.readByte_cons (k : Nat) (b : Byte) (m : Memory) (a : Nat) :
    Memory.readByte ((k, b) :: m) a = if k = a then b else m.readByte a := rfl

/-- An address below every listed one reads as unlisted. -/
theorem Memory.readByte_below {m : Memory} {a : Nat} (h : ∀ c ∈ m, a < c.1) :
    m.readByte a = Config.unlistedByte := by
  induction m with
  | nil => rfl
  | cons c m ih =>
    obtain ⟨k, b⟩ := c
    have hk : a < k := h (k, b) (by simp)
    rw [Memory.readByte_cons, if_neg (by omega)]
    exact ih fun c hc => h c (by simp [hc])

/-- The canonical form, as propositions. -/
theorem Memory.wf_iff (m : Memory) :
    m.wf = true ↔ m.Pairwise (fun c d => c.1 < d.1) ∧ ∀ c ∈ m, c.2 ≠ Config.unlistedByte := by
  simp [Memory.wf]

theorem Memory.wf_cons {k : Nat} {b : Byte} {m : Memory} :
    Memory.wf ((k, b) :: m) = true ↔
      (∀ c ∈ m, k < c.1) ∧ b ≠ Config.unlistedByte ∧ m.wf = true := by
  simp only [Memory.wf_iff, List.pairwise_cons, List.mem_cons, forall_eq_or_imp]
  tauto

theorem Memory.readByte_put {m : Memory} {k : Nat} (h : ∀ c ∈ m, k < c.1) (b : Byte) (a : Nat) :
    (Memory.put k b m).readByte a = if k = a then b else m.readByte a := by
  unfold Memory.put
  split
  · next hb =>
    split
    · next ha => subst ha; rw [Memory.readByte_below h, hb]
    · rfl
  · rfl

theorem Memory.mem_put {m : Memory} {k : Nat} {b : Byte} {c : Host.Cell} (h : c ∈ Memory.put k b m) :
    c = (k, b) ∨ c ∈ m := by
  unfold Memory.put at h
  split at h
  · exact .inr h
  · simpa using h

theorem Memory.wf_put {m : Memory} {k : Nat} (hm : m.wf = true) (h : ∀ c ∈ m, k < c.1) (b : Byte) :
    (Memory.put k b m).wf = true := by
  unfold Memory.put
  split
  · exact hm
  · next hb => exact Memory.wf_cons.2 ⟨h, hb, hm⟩

/-- An entry of a written memory is the new one or an old one. -/
theorem Memory.mem_writeByte {m : Memory} {a : Nat} {b : Byte} {c : Host.Cell}
    (h : c ∈ m.writeByte a b) : c = (a, b) ∨ c ∈ m := by
  induction m with
  | nil => simpa using Memory.mem_put h
  | cons d m ih =>
    obtain ⟨k, e⟩ := d
    simp only [Memory.writeByte] at h
    split at h
    · exact Memory.mem_put h
    · split at h
      · exact (Memory.mem_put h).imp_right fun h => by simp [h]
      · rcases List.mem_cons.1 h with h | h
        · exact .inr (by simp [h])
        · exact (ih h).imp_right fun h => by simp [h]

/-- Everything a byte write can do to a byte read. -/
theorem Memory.readByte_writeByte {m : Memory} (hm : m.wf = true) (a : Nat) (b : Byte) (x : Nat) :
    (m.writeByte a b).readByte x = if a = x then b else m.readByte x := by
  induction m with
  | nil => exact Memory.readByte_put (by simp) b x
  | cons d m ih =>
    obtain ⟨k, e⟩ := d
    obtain ⟨hk, _, hm'⟩ := Memory.wf_cons.1 hm
    simp only [Memory.writeByte]
    split
    · next h =>
      refine Memory.readByte_put (fun c hc => ?_) b x
      rcases List.mem_cons.1 hc with rfl | hc
      · exact h
      · exact h.trans (hk c hc)
    · split
      · next h =>
        subst h
        rw [Memory.readByte_put hk, Memory.readByte_cons]
        split <;> rfl
      · next h1 h2 =>
        rw [Memory.readByte_cons, Memory.readByte_cons, ih hm']
        split_ifs <;> first | rfl | omega

/-! ### The canonical form -/

theorem Memory.writeByte_wf {m : Memory} (hm : m.wf = true) (a : Nat) (b : Byte) :
    (m.writeByte a b).wf = true := by
  induction m with
  | nil => exact Memory.wf_put hm (by simp) b
  | cons d m ih =>
    obtain ⟨k, e⟩ := d
    obtain ⟨hk, he, hm'⟩ := Memory.wf_cons.1 hm
    simp only [Memory.writeByte]
    split
    · next h =>
      refine Memory.wf_put hm (fun c hc => ?_) b
      rcases List.mem_cons.1 hc with rfl | hc
      · exact h
      · exact h.trans (hk c hc)
    · split
      · next h => subst h; exact Memory.wf_put hm' hk b
      · next h1 h2 =>
        refine Memory.wf_cons.2 ⟨fun c hc => ?_, he, ih hm'⟩
        rcases Memory.mem_writeByte hc with rfl | hc
        · show k < a
          omega
        · exact hk c hc

theorem Memory.writeWord_wf {m : Memory} (hm : m.wf = true) (le : Bool) (a : Nat) (v : Word) :
    (m.writeWord le a v).wf = true := by
  unfold Memory.writeWord
  exact Memory.writeByte_wf (Memory.writeByte_wf (Memory.writeByte_wf (Memory.writeByte_wf hm _ _) _ _) _ _) _ _

theorem Memory.mem_bytesFrom {bs : List Byte} {a : Nat} {c : Host.Cell}
    (h : c ∈ Memory.bytesFrom a bs) : a ≤ c.1 ∧ c.1 < a + bs.length := by
  induction bs generalizing a with
  | nil => simp [Memory.bytesFrom] at h
  | cons b bs ih =>
    rcases Memory.mem_put h with rfl | h
    · simp
    · have := ih h
      simp only [List.length_cons]
      omega

theorem Memory.bytesFrom_wf (a : Nat) (bs : List Byte) : (Memory.bytesFrom a bs).wf = true := by
  induction bs generalizing a with
  | nil => rfl
  | cons b bs ih =>
    exact Memory.wf_put (ih _) (fun c hc => by have := Memory.mem_bytesFrom hc; omega) b

theorem Memory.ofBytes_wf (bs : List Byte) : (Memory.ofBytes bs).wf = true := Memory.bytesFrom_wf 0 bs

/-- The memory of a byte array reads as the array does, and as unlisted past its end. -/
theorem Memory.readByte_bytesFrom (bs : List Byte) (a x : Nat) :
    (Memory.bytesFrom a bs).readByte x =
      if x < a then Config.unlistedByte else bs.getD (x - a) Config.unlistedByte := by
  induction bs generalizing a with
  | nil => simp [Memory.bytesFrom, Memory.readByte]
  | cons b bs ih =>
    rw [Memory.bytesFrom,
      Memory.readByte_put (fun c hc => by have := Memory.mem_bytesFrom hc; omega), ih]
    by_cases h : a = x
    · subst h; simp
    · by_cases h1 : x < a
      · simp [h, h1, show x < a + 1 by omega]
      · have : x - a = (x - (a + 1)) + 1 := by omega
        simp [h, h1, show ¬ x < a + 1 by omega, this]

theorem Memory.readByte_ofBytes (bs : List Byte) (x : Nat) :
    (Memory.ofBytes bs).readByte x = bs.getD x Config.unlistedByte := by
  simp [Memory.ofBytes, Memory.readByte_bytesFrom]

/-- The memory at reset has the canonical form. -/
theorem reset_mem_wf : State.reset.mem.wf = true := rfl

/-- Memories in canonical form that read alike are equal: the form is canonical. -/
theorem Memory.ext_of_wf {m n : Memory} (hm : m.wf = true) (hn : n.wf = true)
    (h : ∀ a, m.readByte a = n.readByte a) : m = n := by
  induction m generalizing n with
  | nil =>
    cases n with
    | nil => rfl
    | cons c n =>
      obtain ⟨k, b⟩ := c
      have := h k
      rw [Memory.readByte_cons, if_pos rfl] at this
      exact absurd this.symm (Memory.wf_cons.1 hn).2.1
  | cons c m ih =>
    obtain ⟨k, b⟩ := c
    obtain ⟨hk, hb, hm'⟩ := Memory.wf_cons.1 hm
    cases n with
    | nil =>
      have := h k
      rw [Memory.readByte_cons, if_pos rfl] at this
      exact absurd this hb
    | cons d n =>
      obtain ⟨l, e⟩ := d
      obtain ⟨hl, he, hn'⟩ := Memory.wf_cons.1 hn
      have hkl : k = l := by
        by_contra hne
        rcases Nat.lt_or_gt_of_ne hne with hlt | hlt
        · have := h k
          rw [Memory.readByte_cons, if_pos rfl, Memory.readByte_below] at this
          · exact hb this
          · intro c hc
            rcases List.mem_cons.1 hc with rfl | hc
            · exact hlt
            · exact hlt.trans (hl c hc)
        · have := h l
          rw [Memory.readByte_below, Memory.readByte_cons, if_pos rfl] at this
          · exact he this.symm
          · intro c hc
            rcases List.mem_cons.1 hc with rfl | hc
            · exact hlt
            · exact hlt.trans (hk c hc)
      subst hkl
      have hbe : b = e := by
        have := h k
        rwa [Memory.readByte_cons, Memory.readByte_cons, if_pos rfl, if_pos rfl] at this
      subst hbe
      congr 1
      refine ih hm' hn' fun a => ?_
      by_cases ha : k = a
      · subst ha; rw [Memory.readByte_below hk, Memory.readByte_below hl]
      · have := h a
        rwa [Memory.readByte_cons, Memory.readByte_cons, if_neg ha, if_neg ha] at this

/-! ### The bounds of the array -/

theorem Memory.within_iff (m : Memory) (n : Nat) : m.within n = true ↔ ∀ c ∈ m, c.1 < n := by
  simp [Memory.within]

theorem Memory.writeByte_within {m : Memory} {n a : Nat} (hm : m.within n = true) (ha : a < n)
    (b : Byte) : (m.writeByte a b).within n = true := by
  rw [Memory.within_iff] at *
  intro c hc
  rcases Memory.mem_writeByte hc with rfl | hc
  · exact ha
  · exact hm c hc

theorem Memory.writeWord_within {m : Memory} {n a : Nat} (hm : m.within n = true) (ha : a + 4 ≤ n)
    (le : Bool) (v : Word) : (m.writeWord le a v).within n = true := by
  unfold Memory.writeWord
  refine Memory.writeByte_within (Memory.writeByte_within (Memory.writeByte_within
    (Memory.writeByte_within hm ?_ _) ?_ _) ?_ _) ?_ _ <;> omega

theorem Memory.ofBytes_within (bs : List Byte) : (Memory.ofBytes bs).within bs.length = true := by
  rw [Memory.within_iff]
  intro c hc
  have := Memory.mem_bytesFrom hc
  omega

/-! ### Words -/

/-- What the byte at `x` reads after a word write at `a`: the word's byte at offset `x - a` inside its
four bytes, and the old byte outside them. -/
theorem Memory.readByte_writeWord {m : Memory} (hm : m.wf = true) (le : Bool) (a : Nat) (v : Word)
    (x : Nat) :
    (m.writeWord le a v).readByte x =
      if a ≤ x ∧ x < a + 4 then byteOfWord le v (x - a) else m.readByte x := by
  unfold Memory.writeWord
  have w1 := Memory.writeByte_wf hm a (byteOfWord le v 0)
  have w2 := Memory.writeByte_wf w1 (a + 1) (byteOfWord le v 1)
  have w3 := Memory.writeByte_wf w2 (a + 2) (byteOfWord le v 2)
  rw [Memory.readByte_writeByte w3, Memory.readByte_writeByte w2, Memory.readByte_writeByte w1,
    Memory.readByte_writeByte hm]
  by_cases h3 : a + 3 = x
  · subst h3; simp
  by_cases h2 : a + 2 = x
  · subst h2; simp
  by_cases h1 : a + 1 = x
  · subst h1; simp
  by_cases h0 : a = x
  · subst h0; simp
  rw [if_neg h3, if_neg h2, if_neg h1, if_neg h0, if_neg (by omega)]

/-- Why a word access is not admitted (20_memory.md R60). -/
theorem accessFault_cases (n a : Nat) :
    (accessFault n a = none ∧ a % 4 = 0 ∧ a + 4 ≤ n) ∨
    (accessFault n a = some .misaligned ∧ a % 4 ≠ 0) ∨
    (accessFault n a = some .outOfBounds ∧ a % 4 = 0 ∧ n < a + 4) := by
  unfold accessFault
  split
  · next h => exact .inr (.inl ⟨rfl, h⟩)
  · split
    · next h1 h2 => exact .inr (.inr ⟨rfl, not_not.1 h1, h2⟩)
    · next h1 h2 => exact .inl ⟨rfl, not_not.1 h1, by omega⟩

end Sys2Proof.Machine
end

