-- ==== Sys2Proof/Laws/Registers.lean ====
section
/-! SUPPORT. The register file (10_state.md R21 to R24): what a read gives after a write. -/

namespace Sys2Proof.Machine

@[simp] theorem State.reg_zero (s : State) : s.reg 31#5 = 0#32 := rfl

/-- Register reads depend on the register array alone. -/
theorem State.reg_congr {s t : State} (h : t.regs = s.regs) (r : RegIdx) : t.reg r = s.reg r := by
  simp [State.reg, h]

/-- Everything a register write can do to a register read: the written register, unless it is R31,
reads the value, and every other register reads as before. -/
theorem State.reg_writeReg (s : State) (d : RegIdx) (v : Word) (r : RegIdx) :
    (s.writeReg d v).reg r = if r = d ∧ r ≠ 31 then v else s.reg r := by
  by_cases hr : r = 31
  · subst hr
    simp
  · unfold State.writeReg
    split
    · next hd =>
      have : r ≠ d := fun e => hr (e.trans hd)
      simp [this]
    · next hd =>
      by_cases e : r = d
      · subst e
        rw [if_pos ⟨rfl, hr⟩, State.reg, if_neg hr]
        simp
      · have : d.toNat ≠ r.toNat := fun h => e (BitVec.eq_of_toNat_eq h).symm
        rw [if_neg (fun h => e h.1), State.reg, if_neg hr, State.reg, if_neg hr]
        simp [this]

/-- A register write never touches slot 31 of the array. -/
theorem State.writeReg_zeroSlot (s : State) (d : RegIdx) (v : Word) :
    (s.writeReg d v).regs[31] = s.regs[31] := by
  unfold State.writeReg
  split
  · rfl
  · next hd =>
    have : d.toNat ≠ 31 := fun h => hd (BitVec.eq_of_toNat_eq h)
    simp [this]

end Sys2Proof.Machine
end

