-- ==== Sys2Proof/Laws/Stages.lean ====
section
/-! SUPPORT. The stages: what each does to every field, what Fetch and Memory can come to, and what all
five do together. Proofs about an instruction cite `exec_eq` and `runStages_cases`. -/

namespace Sys2Proof.Machine

/-! ### Frames -/

@[simp] theorem State.frame_stage (s : State) (st : Stage) (exc : Bool) :
    (s.frame st exc).stage = st := rfl
@[simp] theorem State.frame_pc (s : State) (st : Stage) (exc : Bool) :
    (s.frame st exc).pc = s.pc := rfl
@[simp] theorem State.frame_offset (s : State) (st : Stage) (exc : Bool) :
    (s.frame st exc).offset = s.offset := rfl
@[simp] theorem State.frame_regs (s : State) (st : Stage) (exc : Bool) :
    (s.frame st exc).regs = s.regs.set 31 0 := rfl
@[simp] theorem State.frame_mem (s : State) (st : Stage) (exc : Bool) :
    (s.frame st exc).mem = s.mem := rfl
@[simp] theorem State.frame_signals (s : State) (st : Stage) (exc : Bool) :
    (s.frame st exc).signals = s.signals.inFrame st := rfl
@[simp] theorem State.frame_zero (s : State) (st : Stage) (exc : Bool) :
    (s.frame st exc).zero = s.zero := rfl
@[simp] theorem State.frame_overflow (s : State) (st : Stage) (exc : Bool) :
    (s.frame st exc).overflow = s.overflow := rfl
@[simp] theorem State.frame_divideByZero (s : State) (st : Stage) (exc : Bool) :
    (s.frame st exc).divideByZero = s.divideByZero := rfl
@[simp] theorem State.frame_exception (s : State) (st : Stage) (exc : Bool) :
    (s.frame st exc).exception = exc := rfl
@[simp] theorem State.frame_exitingDueToException (s : State) (st : Stage) (exc : Bool) :
    (s.frame st exc).exitingDueToException = exc := rfl

/-- A Frame's register slots are the registers as they read, slot 31 showing 0. -/
theorem State.frame_regs_get (s : State) (st : Stage) (exc : Bool) (r : RegIdx) :
    (s.frame st exc).regs[r.toNat]'r.isLt = s.reg r := by
  rw [State.frame_regs]
  by_cases hr : r = 31
  · subst hr
    simp
  · have : (31 : Nat) ≠ r.toNat := fun h => hr (BitVec.eq_of_toNat_eq h.symm)
    rw [State.reg, if_neg hr]
    simp [this]

/-! ### fetchStage -/

@[simp] theorem fetchStage_regs (s : State) : (fetchStage s).regs = s.regs := rfl
@[simp] theorem fetchStage_pc (s : State) : (fetchStage s).pc = s.pc := rfl
@[simp] theorem fetchStage_mem (s : State) : (fetchStage s).mem = s.mem := rfl
@[simp] theorem fetchStage_latches (s : State) :
    (fetchStage s).latches = { s.latches with pc4 := s.pc + 4 } := rfl
@[simp] theorem fetchStage_signals (s : State) : (fetchStage s).signals = s.signals := rfl
@[simp] theorem fetchStage_zero (s : State) : (fetchStage s).zero = s.zero := rfl
@[simp] theorem fetchStage_overflow (s : State) : (fetchStage s).overflow = s.overflow := rfl
@[simp] theorem fetchStage_divideByZero (s : State) :
    (fetchStage s).divideByZero = s.divideByZero := rfl
@[simp] theorem fetchStage_stage (s : State) : (fetchStage s).stage = .decode := rfl
@[simp] theorem fetchStage_steps (s : State) : (fetchStage s).steps = s.steps := rfl
@[simp] theorem fetchStage_status (s : State) : (fetchStage s).status = s.status := rfl
@[simp] theorem fetchStage_offset (s : State) : (fetchStage s).offset = s.pc := rfl
@[simp] theorem fetchStage_trace (s : State) :
    (fetchStage s).trace = s.trace ++ [s.openInstr.frame .fetch false] := rfl
@[simp] theorem fetchStage_params (s : State) : (fetchStage s).params = s.params := rfl

/-! ### haltStage -/

@[simp] theorem haltStage_regs (s : State) : (haltStage s).regs = s.regs := rfl
@[simp] theorem haltStage_pc (s : State) : (haltStage s).pc = s.pc := rfl
@[simp] theorem haltStage_mem (s : State) : (haltStage s).mem = s.mem := rfl
@[simp] theorem haltStage_latches (s : State) :
    (haltStage s).latches = { s.latches with pc4 := s.pc + 4 } := rfl
@[simp] theorem haltStage_signals (s : State) : (haltStage s).signals = s.signals := rfl
@[simp] theorem haltStage_zero (s : State) : (haltStage s).zero = s.zero := rfl
@[simp] theorem haltStage_overflow (s : State) : (haltStage s).overflow = s.overflow := rfl
@[simp] theorem haltStage_divideByZero (s : State) :
    (haltStage s).divideByZero = s.divideByZero := rfl
@[simp] theorem haltStage_stage (s : State) : (haltStage s).stage = s.stage := rfl
@[simp] theorem haltStage_steps (s : State) : (haltStage s).steps = s.steps := rfl
@[simp] theorem haltStage_status (s : State) :
    (haltStage s).status = .stopped (.halted s.pc) := rfl
@[simp] theorem haltStage_offset (s : State) : (haltStage s).offset = s.pc := rfl
@[simp] theorem haltStage_trace (s : State) : (haltStage s).trace = s.trace := rfl
@[simp] theorem haltStage_params (s : State) : (haltStage s).params = s.params := rfl

/-! ### decodeStage -/

@[simp] theorem decodeStage_regs (c : Control) (f : Fields) (s : State) :
    (decodeStage c f s).regs = s.regs := rfl
@[simp] theorem decodeStage_pc (c : Control) (f : Fields) (s : State) :
    (decodeStage c f s).pc = s.pc := rfl
@[simp] theorem decodeStage_mem (c : Control) (f : Fields) (s : State) :
    (decodeStage c f s).mem = s.mem := rfl
@[simp] theorem decodeStage_latches (c : Control) (f : Fields) (s : State) :
    (decodeStage c f s).latches = (decodeUpdate c f s).latches := rfl
@[simp] theorem decodeStage_signals (c : Control) (f : Fields) (s : State) :
    (decodeStage c f s).signals = (decodeUpdate c f s).signals := rfl
@[simp] theorem decodeStage_zero (c : Control) (f : Fields) (s : State) :
    (decodeStage c f s).zero = s.zero := rfl
@[simp] theorem decodeStage_overflow (c : Control) (f : Fields) (s : State) :
    (decodeStage c f s).overflow = s.overflow := rfl
@[simp] theorem decodeStage_divideByZero (c : Control) (f : Fields) (s : State) :
    (decodeStage c f s).divideByZero = s.divideByZero := rfl
@[simp] theorem decodeStage_stage (c : Control) (f : Fields) (s : State) :
    (decodeStage c f s).stage = .execute := rfl
@[simp] theorem decodeStage_steps (c : Control) (f : Fields) (s : State) :
    (decodeStage c f s).steps = s.steps := rfl
@[simp] theorem decodeStage_status (c : Control) (f : Fields) (s : State) :
    (decodeStage c f s).status = s.status := rfl
@[simp] theorem decodeStage_offset (c : Control) (f : Fields) (s : State) :
    (decodeStage c f s).offset = s.offset := rfl
@[simp] theorem decodeStage_trace (c : Control) (f : Fields) (s : State) :
    (decodeStage c f s).trace = s.trace ++ [(decodeUpdate c f s).frame .decode false] := rfl
@[simp] theorem decodeStage_params (c : Control) (f : Fields) (s : State) :
    (decodeStage c f s).params = s.params := rfl

/-! ### executeStage -/

@[simp] theorem executeStage_regs (c : Control) (op : Option AluOp) (s : State) :
    (executeStage c op s).regs = s.regs := rfl
@[simp] theorem executeStage_pc (c : Control) (op : Option AluOp) (s : State) :
    (executeStage c op s).pc = s.pc := rfl
@[simp] theorem executeStage_mem (c : Control) (op : Option AluOp) (s : State) :
    (executeStage c op s).mem = s.mem := rfl
@[simp] theorem executeStage_latches (c : Control) (op : Option AluOp) (s : State) :
    (executeStage c op s).latches = (executeUpdate c op s).latches := rfl
@[simp] theorem executeStage_signals (c : Control) (op : Option AluOp) (s : State) :
    (executeStage c op s).signals = (executeUpdate c op s).signals := rfl
@[simp] theorem executeStage_zero (c : Control) (op : Option AluOp) (s : State) :
    (executeStage c op s).zero = zeroFlag s.latches.rd1 s.latches.rd2 := rfl
@[simp] theorem executeStage_overflow (c : Control) (op : Option AluOp) (s : State) :
    (executeStage c op s).overflow = (executeOut c op s).v := rfl
@[simp] theorem executeStage_divideByZero (c : Control) (op : Option AluOp) (s : State) :
    (executeStage c op s).divideByZero = (executeOut c op s).dz := rfl
@[simp] theorem executeStage_stage (c : Control) (op : Option AluOp) (s : State) :
    (executeStage c op s).stage = .memory := rfl
@[simp] theorem executeStage_steps (c : Control) (op : Option AluOp) (s : State) :
    (executeStage c op s).steps = s.steps := rfl
@[simp] theorem executeStage_status (c : Control) (op : Option AluOp) (s : State) :
    (executeStage c op s).status = s.status := rfl
@[simp] theorem executeStage_offset (c : Control) (op : Option AluOp) (s : State) :
    (executeStage c op s).offset = s.offset := rfl
@[simp] theorem executeStage_trace (c : Control) (op : Option AluOp) (s : State) :
    (executeStage c op s).trace = s.trace ++ [(executeUpdate c op s).frame .execute false] := rfl
@[simp] theorem executeStage_params (c : Control) (op : Option AluOp) (s : State) :
    (executeStage c op s).params = s.params := rfl

/-! ### writeBackStage -/

@[simp] theorem writeBackStage_regs (c : Control) (s : State) :
    (writeBackStage c s).regs = (registerWrite (writeBackSignals c s)).regs := by
  simp [writeBackStage]
@[simp] theorem writeBackStage_pc (c : Control) (s : State) :
    (writeBackStage c s).pc = nextPc s.latches s.signals.pcSel.value := by
  simp [writeBackStage]
@[simp] theorem writeBackStage_mem (c : Control) (s : State) :
    (writeBackStage c s).mem = s.mem := by
  simp [writeBackStage]
@[simp] theorem writeBackStage_latches (c : Control) (s : State) :
    (writeBackStage c s).latches = s.latches := by
  simp [writeBackStage]
@[simp] theorem writeBackStage_signals (c : Control) (s : State) :
    (writeBackStage c s).signals = (writeBackSignals c s).signals := by
  simp [writeBackStage]
@[simp] theorem writeBackStage_zero (c : Control) (s : State) :
    (writeBackStage c s).zero = s.zero := by
  simp [writeBackStage]
@[simp] theorem writeBackStage_overflow (c : Control) (s : State) :
    (writeBackStage c s).overflow = s.overflow := by
  simp [writeBackStage]
@[simp] theorem writeBackStage_divideByZero (c : Control) (s : State) :
    (writeBackStage c s).divideByZero = s.divideByZero := by
  simp [writeBackStage]
@[simp] theorem writeBackStage_stage (c : Control) (s : State) :
    (writeBackStage c s).stage = .fetch := rfl
@[simp] theorem writeBackStage_steps (c : Control) (s : State) :
    (writeBackStage c s).steps = s.steps + 1 := by
  simp [writeBackStage]
@[simp] theorem writeBackStage_status (c : Control) (s : State) :
    (writeBackStage c s).status = s.status := by
  simp [writeBackStage]
@[simp] theorem writeBackStage_offset (c : Control) (s : State) :
    (writeBackStage c s).offset = s.offset := by
  simp [writeBackStage]
@[simp] theorem writeBackStage_trace (c : Control) (s : State) :
    (writeBackStage c s).trace = s.trace ++
      [(advancePc (registerWrite (writeBackSignals c s))).frame .writeBack false] := by
  simp [writeBackStage]
@[simp] theorem writeBackStage_params (c : Control) (s : State) :
    (writeBackStage c s).params = s.params := by
  simp [writeBackStage]

/-- The register write of WriteBack, seen through a register read. -/
theorem reg_registerWrite (s : State) (r : RegIdx) :
    (registerWrite s).reg r =
      if s.signals.werf.value = true ∧ r = writeBackReg s.latches s.signals.waSel.value ∧ r ≠ 31 then
        writeBackData s.latches s.signals.wdSel.value
      else s.reg r := by
  unfold registerWrite
  by_cases h : s.signals.werf.value = true
  · rw [if_pos h, State.reg_writeReg]
    simp [h]
  · rw [if_neg h]
    simp [h]

theorem registerWrite_zeroSlot (s : State) : (registerWrite s).regs[31] = s.regs[31] := by
  unfold registerWrite
  split
  · exact State.writeReg_zeroSlot ..
  · rfl

/-! ### Memory -/

/-- The word access the Memory stage makes after its signals are applied: MWR or MOE is 1. -/
def accesses (c : Control) (s : State) : Bool :=
  (s.signals.mwr.apply c.mwr).value || (s.signals.moe.apply c.moe).value

/-- The state after the Memory stage when it does not stop. -/
def memoryDone (c : Control) (s : State) : State :=
  ((memoryAccess (s.signals.mwr.apply c.mwr).value (s.signals.moe.apply c.moe).value
    (memorySignals c s)).emit .memory false).goto .writeBack

theorem memoryAccess_none (s : State) : memoryAccess false false s = s := rfl

/-- Everything the Memory stage can come to: a MemoryFault when it makes an access that is not admitted,
and otherwise the access with its Frame. -/
theorem memoryStage_cases (c : Control) (s : State) :
    (∃ kind, accesses c s = true ∧
      accessFault s.params.memSize s.latches.aluOut.toNat = some kind ∧
      memoryStage c s =
        .stopped ((memorySignals c s).takeFault .memory (.memoryFault kind s.latches.aluOut))) ∨
    ((accesses c s = true → accessFault s.params.memSize s.latches.aluOut.toNat = none) ∧
      memoryStage c s = .done (memoryDone c s)) := by
  by_cases h : accesses c s = true
  · cases hf : accessFault s.params.memSize s.latches.aluOut.toNat with
    | some kind =>
      refine .inl ⟨kind, h, rfl, ?_⟩
      simp only [accesses] at h
      simp [memoryStage, h, hf]
    | none =>
      refine .inr ⟨fun _ => rfl, ?_⟩
      simp only [accesses] at h
      simp [memoryStage, memoryDone, h, hf]
  · refine .inr ⟨fun h' => absurd h' h, ?_⟩
    simp only [accesses, Bool.or_eq_true, not_or, Bool.not_eq_true] at h
    obtain ⟨h1, h2⟩ := h
    simp [memoryStage, memoryDone, h1, h2, memoryAccess_none]

/-! ### memoryDone -/

@[simp] theorem memoryDone_regs (c : Control) (s : State) : (memoryDone c s).regs = s.regs := rfl
@[simp] theorem memoryDone_pc (c : Control) (s : State) : (memoryDone c s).pc = s.pc := rfl
@[simp] theorem memoryDone_mem (c : Control) (s : State) :
    (memoryDone c s).mem = if (s.signals.mwr.apply c.mwr).value then
        s.mem.writeWord s.params.littleEndian s.latches.aluOut.toNat s.latches.rd2
      else s.mem := rfl
@[simp] theorem memoryDone_latches (c : Control) (s : State) :
    (memoryDone c s).latches = { s.latches with
      memData := if (s.signals.moe.apply c.moe).value then
          s.mem.readWord s.params.littleEndian s.latches.aluOut.toNat
        else s.latches.memData } := rfl
@[simp] theorem memoryDone_signals (c : Control) (s : State) :
    (memoryDone c s).signals = (memorySignals c s).signals := rfl
@[simp] theorem memoryDone_zero (c : Control) (s : State) : (memoryDone c s).zero = s.zero := rfl
@[simp] theorem memoryDone_overflow (c : Control) (s : State) :
    (memoryDone c s).overflow = s.overflow := rfl
@[simp] theorem memoryDone_divideByZero (c : Control) (s : State) :
    (memoryDone c s).divideByZero = s.divideByZero := rfl
@[simp] theorem memoryDone_stage (c : Control) (s : State) :
    (memoryDone c s).stage = .writeBack := rfl
@[simp] theorem memoryDone_steps (c : Control) (s : State) :
    (memoryDone c s).steps = s.steps := rfl
@[simp] theorem memoryDone_status (c : Control) (s : State) :
    (memoryDone c s).status = s.status := rfl
@[simp] theorem memoryDone_offset (c : Control) (s : State) :
    (memoryDone c s).offset = s.offset := rfl
@[simp] theorem memoryDone_trace (c : Control) (s : State) :
    (memoryDone c s).trace = s.trace ++
      [(memoryAccess (s.signals.mwr.apply c.mwr).value (s.signals.moe.apply c.moe).value
        (memorySignals c s)).frame .memory false] := rfl
@[simp] theorem memoryDone_params (c : Control) (s : State) :
    (memoryDone c s).params = s.params := rfl

/-! ### All five stages -/

/-- The state at the end of Execute. -/
def executed (c : Control) (op : Option AluOp) (f : Fields) (s : State) : State :=
  executeStage c op (decodeStage c f (fetchStage s))

/-- Everything the stages after the fetch of a word can come to: they stop in Memory by a MemoryFault, or
the instruction retires. -/
theorem runStages_cases (c : Control) (op : Option AluOp) (f : Fields) (s : State) :
    (∃ kind, accesses c (executed c op f s) = true ∧
      accessFault s.params.memSize (executed c op f s).latches.aluOut.toNat = some kind ∧
      runStages c op f s =
        (memorySignals c (executed c op f s)).takeFault .memory
          (.memoryFault kind (executed c op f s).latches.aluOut)) ∨
    ((accesses c (executed c op f s) = true →
        accessFault s.params.memSize (executed c op f s).latches.aluOut.toNat = none) ∧
      runStages c op f s = writeBackStage c (memoryDone c (executed c op f s))) := by
  rcases memoryStage_cases c (executed c op f s) with ⟨kind, h1, h2, h3⟩ | ⟨h1, h2⟩
  · refine .inl ⟨kind, h1, h2, ?_⟩
    rw [runStages, finishInstr, ← executed, h3]
  · refine .inr ⟨h1, ?_⟩
    rw [runStages, finishInstr, ← executed, h2]

/-- Every instruction's meaning is HALT's stop or the stages under its row of the control table; it always
answers a next state. -/
theorem exec_eq (i : Instr) (s : State) :
    exec i s = .next (if i.op = .halt then haltStage s
      else runStages (opControl i.op) (opAlu i.op) i.fields s) := by
  cases i <;> rfl

/-- Everything Fetch can come to, in the order the checks are made (60_exceptions.md R189). -/
theorem fetchInstr_cases (s : State) :
    (s.steps = s.params.maxStep ∧ fetchInstr s = .stopped (s.raise (.stepLimit s.steps))) ∨
    (s.steps ≠ s.params.maxStep ∧ (∃ kind, accessFault s.params.memSize s.pc.toNat = some kind) ∧
      fetchInstr s = .stopped (s.setOffset.takeFault .fetch (.fetchFault s.pc))) ∨
    (s.steps ≠ s.params.maxStep ∧ accessFault s.params.memSize s.pc.toNat = none ∧
      ∃ w, w = s.mem.readWord s.params.littleEndian s.pc.toNat ∧
        ((∃ e, decodeWord w = .error e ∧ fetchInstr s =
            .stopped ((s.latchIr w).openInstr.takeFault .fetch (.illegalOpcode s.pc w))) ∨
          ∃ i, decodeWord w = .ok i ∧ fetchInstr s = .instr i (s.latchIr w))) := by
  by_cases h : s.steps = s.params.maxStep
  · exact .inl ⟨h, by rw [fetchInstr, if_pos h]⟩
  · cases hf : accessFault s.params.memSize s.pc.toNat with
    | some kind => exact .inr (.inl ⟨h, ⟨kind, rfl⟩, by rw [fetchInstr, if_neg h, hf]⟩)
    | none =>
      refine .inr (.inr ⟨h, rfl, _, rfl, ?_⟩)
      cases hd : decodeWord (s.mem.readWord s.params.littleEndian s.pc.toNat) with
      | error e => exact .inl ⟨e, rfl, by simp only [fetchInstr, if_neg h, hf, hd]⟩
      | ok i => exact .inr ⟨i, rfl, by simp only [fetchInstr, if_neg h, hf, hd]⟩

/-- A step of a run at Fetch is one of the stops of Fetch, or the meaning of the instruction read. -/
theorem step_atFetch {s : State} (hr : s.status = .running) (hf : s.stage = .fetch) :
    step s = match fetchInstr s with
      | .stopped t => .next t
      | .instr i t => exec i t := by
  cases h : fetchInstr s <;> simp [step, hr, hf, h]

end Sys2Proof.Machine
end

