-- ==== Sys2Proof/Laws/Instructions.lean ====
section
/-! SUPPORT. What proofs about one instruction cite: the control table by kind of row, the two ends of the
five stages with their conditions, and a register read after an instruction retires. -/

namespace Sys2Proof.Machine

/-- Z as a proposition. -/
theorem zeroFlag_eq (a b : Word) : zeroFlag a b = decide (a = b) := by
  simp [zeroFlag, Bool.beq_eq_decide_eq]

/-- A shift's amount as a number. -/
theorem shiftAmount_eq (b : Word) : shiftAmount b = b.toNat % 32 := by simp [shiftAmount]

theorem msb_eq_neg (a : Word) : a.msb = decide (a.toInt < 0) := BitVec.msb_eq_toInt

/-- Adding 0 never overflows. -/
theorem addOverflow_zero (a : Word) : addOverflow a 0#32 a = false := by simp [addOverflow]

/-- What every row of the control table but HALT's says of WERF, WASEL, MWR and MOE: WASEL is `rc`, or it
is held and no register is written; MWR is 1 for ST alone; MOE has a value. -/
theorem opControl_cases {o : Op} (h : o ≠ .halt) :
    ((opControl o).waSel = some .rc ∨
      ((opControl o).waSel = none ∧ (opControl o).werf = some false)) ∧
    (opControl o).werf.isSome = true ∧
    (opControl o).mwr = some (decide (o = .st)) ∧ (opControl o).moe.isSome = true := by
  cases o <;>
    first
    | exact absurd rfl h
    | simp [opControl, rowOp, rowOpc, rowLd, rowSt, rowJmp, rowBeq, rowBne, rowLdr]

/-- No instruction's row makes WASEL select XP: a WASEL of `rc` stays so. -/
theorem waSel_stays_rc {o : Op} (h : o ≠ .halt) {g : Signal WaSel} (hg : g.value = .rc) :
    (g.apply (opControl o).waSel).value = .rc := by
  rcases (opControl_cases h).1 with h | ⟨h, _⟩ <;> simp [h, hg]

@[simp] theorem fetchStage_reg (s : State) (r : RegIdx) : (fetchStage s).reg r = s.reg r :=
  State.reg_congr (by simp) r

@[simp] theorem latchIr_reg (s : State) (w : Word) (r : RegIdx) : (s.latchIr w).reg r = s.reg r := rfl

/-- Execute ends with the registers it began with. -/
theorem executed_reg (c : Control) (op : Option AluOp) (f : Fields) (s : State) (r : RegIdx) :
    (executed c op f s).reg r = s.reg r := State.reg_congr (by simp [executed]) r

/-- The stages retire the instruction when it makes no access, or an admitted one. -/
theorem runStages_retires {c : Control} {op : Option AluOp} {f : Fields} {s : State}
    (h : accesses c (executed c op f s) = true →
      accessFault s.params.memSize (executed c op f s).latches.aluOut.toNat = none) :
    runStages c op f s = writeBackStage c (memoryDone c (executed c op f s)) := by
  rcases runStages_cases c op f s with ⟨k, h1, h2, _⟩ | ⟨_, h'⟩
  · simp [h h1] at h2
  · exact h'

/-- The stages stop in Memory when the instruction makes an access that is not admitted. -/
theorem runStages_faults {c : Control} {op : Option AluOp} {f : Fields} {s : State} {k : AccessKind}
    (h : accesses c (executed c op f s) = true)
    (h' : accessFault s.params.memSize (executed c op f s).latches.aluOut.toNat = some k) :
    runStages c op f s =
      (memorySignals c (executed c op f s)).takeFault .memory
        (.memoryFault k (executed c op f s).latches.aluOut) := by
  rcases runStages_cases c op f s with ⟨j, _, h2, h3⟩ | ⟨h1, _⟩
  · rw [h'] at h2
    injection h2 with h2
    subst h2
    exact h3
  · simp [h1 h] at h'

/-- A register read after an instruction retires. -/
theorem retired_reg (c : Control) (op : Option AluOp) (f : Fields) (s : State) (r : RegIdx) :
    (writeBackStage c (memoryDone c (executed c op f s))).reg r =
      if (s.signals.werf.apply c.werf).value = true ∧
          r = writeBackReg (executed c op f s).latches (s.signals.waSel.apply c.waSel).value ∧ r ≠ 31 then
        writeBackData (memoryDone c (executed c op f s)).latches (s.signals.wdSel.apply c.wdSel).value
      else s.reg r := by
  rw [State.reg_congr (writeBackStage_regs _ _), reg_registerWrite]
  have : (writeBackSignals c (memoryDone c (executed c op f s))).reg r = s.reg r :=
    State.reg_congr (by simp [executed]) r
  rw [this]
  simp [executed]
  rfl

/-- WriteBack never touches slot 31 of the register array. -/
theorem writeBackStage_zeroSlot (c : Control) (s : State) :
    (writeBackStage c s).regs[31] = s.regs[31] := by
  have := registerWrite_zeroSlot (writeBackSignals c s)
  simp only [writeBackStage_regs]
  simpa using this

end Sys2Proof.Machine
end

