-- ==== Sys2Proof/Laws/PerInstr.lean ====
section
/-! SUPPORT. One family of facts about every instruction as syntax: it is well formed, and it is its row's
instruction with its own fields. One lemma a constructor. -/

namespace Sys2Proof.Laws

/-- The instruction passes the checks of 30_encoding.md R77 and R84, and building its row's instruction from
its fields gives it back. -/
def Formed.Statement (i : Instr) : Prop :=
  i.wellFormed = true ∧ Instr.build i.op i.fields = i

theorem Formed.halt :
    Formed.Statement (.halt) := by
  refine ⟨?_, rfl⟩
  simp [Instr.wellFormed, Fields.wellFormed, Instr.op, Op.mf, Op.af, Instr.fields, Fields.absent,
    formatWellFormed, mfWidth]

theorem Formed.ld (ra : RegIdx) (lit : Literal) (rc : RegIdx) :
    Formed.Statement (.ld ra lit rc) := by
  refine ⟨?_, rfl⟩
  simp [Instr.wellFormed, Fields.wellFormed, Instr.op, Op.mf, Op.af, Instr.fields, Fields.absent,
    formatWellFormed, mfWidth, Role.width]

theorem Formed.st (rc : RegIdx) (lit : Literal) (ra : RegIdx) :
    Formed.Statement (.st rc lit ra) := by
  refine ⟨?_, rfl⟩
  simp [Instr.wellFormed, Fields.wellFormed, Instr.op, Op.mf, Op.af, Instr.fields, Fields.absent,
    formatWellFormed, mfWidth, Role.width]

theorem Formed.jmp (ra rc : RegIdx) :
    Formed.Statement (.jmp ra rc) := by
  refine ⟨?_, rfl⟩
  simp [Instr.wellFormed, Fields.wellFormed, Instr.op, Op.mf, Op.af, Instr.fields, Fields.absent,
    formatWellFormed, mfWidth, Role.width]

theorem Formed.beq (ra : RegIdx) (lit : Literal) (rc : RegIdx) :
    Formed.Statement (.beq ra lit rc) := by
  refine ⟨?_, rfl⟩
  simp [Instr.wellFormed, Fields.wellFormed, Instr.op, Op.mf, Op.af, Instr.fields, Fields.absent,
    formatWellFormed, mfWidth, Role.width]

theorem Formed.bne (ra : RegIdx) (lit : Literal) (rc : RegIdx) :
    Formed.Statement (.bne ra lit rc) := by
  refine ⟨?_, rfl⟩
  simp [Instr.wellFormed, Fields.wellFormed, Instr.op, Op.mf, Op.af, Instr.fields, Fields.absent,
    formatWellFormed, mfWidth, Role.width]

theorem Formed.ldr (ra : RegIdx) (lit : Literal) (rc : RegIdx) :
    Formed.Statement (.ldr ra lit rc) := by
  refine ⟨?_, rfl⟩
  simp [Instr.wellFormed, Fields.wellFormed, Instr.op, Op.mf, Op.af, Instr.fields, Fields.absent,
    formatWellFormed, mfWidth, Role.width]

theorem Formed.add (ra rb rc : RegIdx) :
    Formed.Statement (.add ra rb rc) := by
  refine ⟨?_, rfl⟩
  simp [Instr.wellFormed, Fields.wellFormed, Instr.op, Op.mf, Op.af, Instr.fields, Fields.absent,
    formatWellFormed, mfWidth, Role.width]

theorem Formed.sub (ra rb rc : RegIdx) :
    Formed.Statement (.sub ra rb rc) := by
  refine ⟨?_, rfl⟩
  simp [Instr.wellFormed, Fields.wellFormed, Instr.op, Op.mf, Op.af, Instr.fields, Fields.absent,
    formatWellFormed, mfWidth, Role.width]

theorem Formed.mul (ra rb rc : RegIdx) :
    Formed.Statement (.mul ra rb rc) := by
  refine ⟨?_, rfl⟩
  simp [Instr.wellFormed, Fields.wellFormed, Instr.op, Op.mf, Op.af, Instr.fields, Fields.absent,
    formatWellFormed, mfWidth, Role.width]

theorem Formed.div (ra rb rc : RegIdx) :
    Formed.Statement (.div ra rb rc) := by
  refine ⟨?_, rfl⟩
  simp [Instr.wellFormed, Fields.wellFormed, Instr.op, Op.mf, Op.af, Instr.fields, Fields.absent,
    formatWellFormed, mfWidth, Role.width]

theorem Formed.cmpeq (ra rb rc : RegIdx) :
    Formed.Statement (.cmpeq ra rb rc) := by
  refine ⟨?_, rfl⟩
  simp [Instr.wellFormed, Fields.wellFormed, Instr.op, Op.mf, Op.af, Instr.fields, Fields.absent,
    formatWellFormed, mfWidth, Role.width]

theorem Formed.cmplt (ra rb rc : RegIdx) :
    Formed.Statement (.cmplt ra rb rc) := by
  refine ⟨?_, rfl⟩
  simp [Instr.wellFormed, Fields.wellFormed, Instr.op, Op.mf, Op.af, Instr.fields, Fields.absent,
    formatWellFormed, mfWidth, Role.width]

theorem Formed.cmple (ra rb rc : RegIdx) :
    Formed.Statement (.cmple ra rb rc) := by
  refine ⟨?_, rfl⟩
  simp [Instr.wellFormed, Fields.wellFormed, Instr.op, Op.mf, Op.af, Instr.fields, Fields.absent,
    formatWellFormed, mfWidth, Role.width]

theorem Formed.and (ra rb rc : RegIdx) :
    Formed.Statement (.and ra rb rc) := by
  refine ⟨?_, rfl⟩
  simp [Instr.wellFormed, Fields.wellFormed, Instr.op, Op.mf, Op.af, Instr.fields, Fields.absent,
    formatWellFormed, mfWidth, Role.width]

theorem Formed.or (ra rb rc : RegIdx) :
    Formed.Statement (.or ra rb rc) := by
  refine ⟨?_, rfl⟩
  simp [Instr.wellFormed, Fields.wellFormed, Instr.op, Op.mf, Op.af, Instr.fields, Fields.absent,
    formatWellFormed, mfWidth, Role.width]

theorem Formed.xor (ra rb rc : RegIdx) :
    Formed.Statement (.xor ra rb rc) := by
  refine ⟨?_, rfl⟩
  simp [Instr.wellFormed, Fields.wellFormed, Instr.op, Op.mf, Op.af, Instr.fields, Fields.absent,
    formatWellFormed, mfWidth, Role.width]

theorem Formed.xnor (ra rb rc : RegIdx) :
    Formed.Statement (.xnor ra rb rc) := by
  refine ⟨?_, rfl⟩
  simp [Instr.wellFormed, Fields.wellFormed, Instr.op, Op.mf, Op.af, Instr.fields, Fields.absent,
    formatWellFormed, mfWidth, Role.width]

theorem Formed.shl (ra rb rc : RegIdx) :
    Formed.Statement (.shl ra rb rc) := by
  refine ⟨?_, rfl⟩
  simp [Instr.wellFormed, Fields.wellFormed, Instr.op, Op.mf, Op.af, Instr.fields, Fields.absent,
    formatWellFormed, mfWidth, Role.width]

theorem Formed.shr (ra rb rc : RegIdx) :
    Formed.Statement (.shr ra rb rc) := by
  refine ⟨?_, rfl⟩
  simp [Instr.wellFormed, Fields.wellFormed, Instr.op, Op.mf, Op.af, Instr.fields, Fields.absent,
    formatWellFormed, mfWidth, Role.width]

theorem Formed.sra (ra rb rc : RegIdx) :
    Formed.Statement (.sra ra rb rc) := by
  refine ⟨?_, rfl⟩
  simp [Instr.wellFormed, Fields.wellFormed, Instr.op, Op.mf, Op.af, Instr.fields, Fields.absent,
    formatWellFormed, mfWidth, Role.width]

theorem Formed.addc (ra : RegIdx) (lit : Literal) (rc : RegIdx) :
    Formed.Statement (.addc ra lit rc) := by
  refine ⟨?_, rfl⟩
  simp [Instr.wellFormed, Fields.wellFormed, Instr.op, Op.mf, Op.af, Instr.fields, Fields.absent,
    formatWellFormed, mfWidth, Role.width]

theorem Formed.subc (ra : RegIdx) (lit : Literal) (rc : RegIdx) :
    Formed.Statement (.subc ra lit rc) := by
  refine ⟨?_, rfl⟩
  simp [Instr.wellFormed, Fields.wellFormed, Instr.op, Op.mf, Op.af, Instr.fields, Fields.absent,
    formatWellFormed, mfWidth, Role.width]

theorem Formed.mulc (ra : RegIdx) (lit : Literal) (rc : RegIdx) :
    Formed.Statement (.mulc ra lit rc) := by
  refine ⟨?_, rfl⟩
  simp [Instr.wellFormed, Fields.wellFormed, Instr.op, Op.mf, Op.af, Instr.fields, Fields.absent,
    formatWellFormed, mfWidth, Role.width]

theorem Formed.divc (ra : RegIdx) (lit : Literal) (rc : RegIdx) :
    Formed.Statement (.divc ra lit rc) := by
  refine ⟨?_, rfl⟩
  simp [Instr.wellFormed, Fields.wellFormed, Instr.op, Op.mf, Op.af, Instr.fields, Fields.absent,
    formatWellFormed, mfWidth, Role.width]

theorem Formed.cmpeqc (ra : RegIdx) (lit : Literal) (rc : RegIdx) :
    Formed.Statement (.cmpeqc ra lit rc) := by
  refine ⟨?_, rfl⟩
  simp [Instr.wellFormed, Fields.wellFormed, Instr.op, Op.mf, Op.af, Instr.fields, Fields.absent,
    formatWellFormed, mfWidth, Role.width]

theorem Formed.cmpltc (ra : RegIdx) (lit : Literal) (rc : RegIdx) :
    Formed.Statement (.cmpltc ra lit rc) := by
  refine ⟨?_, rfl⟩
  simp [Instr.wellFormed, Fields.wellFormed, Instr.op, Op.mf, Op.af, Instr.fields, Fields.absent,
    formatWellFormed, mfWidth, Role.width]

theorem Formed.cmplec (ra : RegIdx) (lit : Literal) (rc : RegIdx) :
    Formed.Statement (.cmplec ra lit rc) := by
  refine ⟨?_, rfl⟩
  simp [Instr.wellFormed, Fields.wellFormed, Instr.op, Op.mf, Op.af, Instr.fields, Fields.absent,
    formatWellFormed, mfWidth, Role.width]

theorem Formed.andc (ra : RegIdx) (lit : Literal) (rc : RegIdx) :
    Formed.Statement (.andc ra lit rc) := by
  refine ⟨?_, rfl⟩
  simp [Instr.wellFormed, Fields.wellFormed, Instr.op, Op.mf, Op.af, Instr.fields, Fields.absent,
    formatWellFormed, mfWidth, Role.width]

theorem Formed.orc (ra : RegIdx) (lit : Literal) (rc : RegIdx) :
    Formed.Statement (.orc ra lit rc) := by
  refine ⟨?_, rfl⟩
  simp [Instr.wellFormed, Fields.wellFormed, Instr.op, Op.mf, Op.af, Instr.fields, Fields.absent,
    formatWellFormed, mfWidth, Role.width]

theorem Formed.xorc (ra : RegIdx) (lit : Literal) (rc : RegIdx) :
    Formed.Statement (.xorc ra lit rc) := by
  refine ⟨?_, rfl⟩
  simp [Instr.wellFormed, Fields.wellFormed, Instr.op, Op.mf, Op.af, Instr.fields, Fields.absent,
    formatWellFormed, mfWidth, Role.width]

theorem Formed.xnorc (ra : RegIdx) (lit : Literal) (rc : RegIdx) :
    Formed.Statement (.xnorc ra lit rc) := by
  refine ⟨?_, rfl⟩
  simp [Instr.wellFormed, Fields.wellFormed, Instr.op, Op.mf, Op.af, Instr.fields, Fields.absent,
    formatWellFormed, mfWidth, Role.width]

theorem Formed.shlc (ra : RegIdx) (lit : Literal) (rc : RegIdx) :
    Formed.Statement (.shlc ra lit rc) := by
  refine ⟨?_, rfl⟩
  simp [Instr.wellFormed, Fields.wellFormed, Instr.op, Op.mf, Op.af, Instr.fields, Fields.absent,
    formatWellFormed, mfWidth, Role.width]

theorem Formed.shrc (ra : RegIdx) (lit : Literal) (rc : RegIdx) :
    Formed.Statement (.shrc ra lit rc) := by
  refine ⟨?_, rfl⟩
  simp [Instr.wellFormed, Fields.wellFormed, Instr.op, Op.mf, Op.af, Instr.fields, Fields.absent,
    formatWellFormed, mfWidth, Role.width]

theorem Formed.srac (ra : RegIdx) (lit : Literal) (rc : RegIdx) :
    Formed.Statement (.srac ra lit rc) := by
  refine ⟨?_, rfl⟩
  simp [Instr.wellFormed, Fields.wellFormed, Instr.op, Op.mf, Op.af, Instr.fields, Fields.absent,
    formatWellFormed, mfWidth, Role.width]

end Sys2Proof.Laws
end

