-- ==== Sys2Proof/Laws/Steps.lean ====
section
/-! SUPPORT. A step and a tick by their cases. -/

namespace Sys2Proof.Machine

/-- Everything a step of a run at Fetch can do: one of the stops of Fetch, HALT, or the five stages of an
instruction that goes past Fetch. -/
theorem step_cases {s t : State} (hr : s.status = .running) (hf : s.stage = .fetch)
    (h : step s = .next t) :
    (s.steps = s.params.maxStep ∧ t = s.raise (.stepLimit s.steps)) ∨
    (s.steps ≠ s.params.maxStep ∧ (∃ kind, accessFault s.params.memSize s.pc.toNat = some kind) ∧
      t = s.setOffset.takeFault .fetch (.fetchFault s.pc)) ∨
    (s.steps ≠ s.params.maxStep ∧ accessFault s.params.memSize s.pc.toNat = none ∧
      ∃ w, w = s.mem.readWord s.params.littleEndian s.pc.toNat ∧
        ((∃ e, decodeWord w = .error e ∧
            t = (s.latchIr w).openInstr.takeFault .fetch (.illegalOpcode s.pc w)) ∨
          (decodeWord w = .ok .halt ∧ t = haltStage (s.latchIr w)) ∨
          ∃ i : Instr, i.op ≠ .halt ∧ decodeWord w = .ok i ∧
            t = runStages (opControl i.op) (opAlu i.op) i.fields (s.latchIr w))) := by
  rw [step_atFetch hr hf] at h
  rcases fetchInstr_cases s with
    ⟨h1, h2⟩ | ⟨h1, h2, h3⟩ | ⟨h1, h2, w, hw, ⟨e, h3, h4⟩ | ⟨i, h3, h4⟩⟩
  · rw [h2] at h
    injection h with h
    exact .inl ⟨h1, h.symm⟩
  · rw [h3] at h
    injection h with h
    exact .inr (.inl ⟨h1, h2, h.symm⟩)
  · rw [h4] at h
    injection h with h
    exact .inr (.inr ⟨h1, h2, w, hw, .inl ⟨e, h3, h.symm⟩⟩)
  · rw [h4] at h
    simp only [exec_eq] at h
    injection h with h
    refine .inr (.inr ⟨h1, h2, w, hw, .inr ?_⟩)
    by_cases hi : i.op = .halt
    · rw [Instr.eq_halt_of_op hi] at h h3
      exact .inl ⟨h3, h.symm⟩
    · rw [if_neg hi] at h
      exact .inr ⟨i, hi, h3, h.symm⟩

/-- A step of a run at Fetch always answers a next state. -/
theorem step_atFetch_next {s : State} (hr : s.status = .running) (hf : s.stage = .fetch) :
    ∃ t, step s = .next t := by
  rw [step_atFetch hr hf]
  cases fetchInstr s with
  | stopped t => exact ⟨t, rfl⟩
  | instr i t => exact ⟨_, exec_eq i t⟩

/-- Everything a tick of a run can do: the Fetch stage, the stage of the instruction in flight, or the refusal
of a state that no step reaches. -/
theorem tick_cases {s : State} (hr : s.status = .running) :
    (s.stage = .fetch ∧ tick s = .next (fetchTick s)) ∨
    (s.stage ≠ .fetch ∧ ∃ i, inFlight s = some i ∧ tick s = .next (runStage i s)) ∨
    (s.stage ≠ .fetch ∧ inFlight s = none ∧
      tick s = .refused (.nothingInFlight s.latches.ir)) := by
  by_cases hf : s.stage = .fetch
  · exact .inl ⟨hf, by simp [tick, hr, hf]⟩
  · cases h : inFlight s with
    | some i => exact .inr (.inl ⟨hf, i, rfl, by simp [tick, hr, hf, h]⟩)
    | none => exact .inr (.inr ⟨hf, rfl, by simp [tick, hr, hf, h]⟩)

/-- The instruction in flight is the one L.IR decodes to, when it goes past Fetch. -/
theorem inFlight_eq {s : State} {i : Instr} (h : decodeWord s.latches.ir = .ok i) (hi : i.op ≠ .halt) :
    inFlight s = some i := by
  simp [inFlight, h, hi]

end Sys2Proof.Machine
end

