-- ==== Sys2Proof/Tests/Slice0.lean ====
section
/-! SUPPORT. Tests, each a named theorem on fixed values, and for every statement with hypotheses a theorem
that meets them (`witness_…`). Expected results are those of 95_test_vectors.md: V1 and V2 for decoding,
V3 to V7 for results. Where another source is used, the theorem's docstring names it. -/

namespace Sys2Proof.Tests

open Sys2Proof.Machine Sys2Proof.Claims

/-! ### Ill-formed terms are refused -/

/-- 30_encoding.md R84: a role twice in `af`. -/
theorem test_format_af_repeats : formatWellFormed [.ra, .ra] [.ra] = false := by decide

/-- R84: a role twice in `mf`. -/
theorem test_format_mf_repeats : formatWellFormed [.ra] [.ra, .rc, .ra] = false := by decide

/-- R84: an argument without a field. -/
theorem test_format_argument_without_field : formatWellFormed [.ra, .rb] [.ra] = false := by decide

/-- R84: fields of 5 + 5 + 5 + 16 bits do not fit in 26. -/
theorem test_format_too_wide :
    formatWellFormed [] [.rc, .ra, .rb, .literal] = false := by decide

theorem test_row_refused :
    ({ opSpec .add with af := [.ra, .ra, .rc] } : InstructionSpec).wellFormed = false := by decide

/-- R81: two rows with one opcode. -/
theorem test_table_opcode_repeats : tableWellFormed [opSpec .add, { opSpec .sub with opcode := 0x20 }] = false := by
  decide

theorem test_table_well_formed : tableWellFormed instructionTable = true := by decide

/-- R77: an absent literal is 0 and an absent role is 31. -/
theorem test_fields_absent_refused :
    Fields.wellFormed [.rc, .ra] { Fields.absent with lit := 1 } = false ∧
    Fields.wellFormed [.rc, .literal] { Fields.absent with ra := 0 } = false ∧
    Fields.wellFormed [.rc, .ra] { Fields.absent with rb := 30 } = false ∧
    Fields.wellFormed [.ra] { Fields.absent with rc := 0 } = false := by decide

/-- 70_reset_and_hazards.md R203: 31 registers are refused. -/
theorem test_init_regs_refused :
    State.start { mem := [], initRegs := List.replicate 31 0 } = .refused (.badInitRegs 31) := rfl

/-! ### The assembler -/

/-- V2: the assembler's errors. -/
theorem test_assembler_refuses :
    encodeStatement ⟨"ADDC", [.reg "R31", .int (32768), .reg "R1"]⟩ = .error ⟨.rangeError, "ADDC", 1⟩ ∧
    encodeStatement ⟨"ADDC", [.reg "R31", .int (-32769), .reg "R1"]⟩ = .error ⟨.rangeError, "ADDC", 1⟩ ∧
    encodeStatement ⟨"ADDC", [.reg "R31", .reg "R1", .reg "R2"]⟩ = .error ⟨.operandTypeError, "ADDC", 1⟩ ∧
    encodeStatement ⟨"ADD", [.reg "R1", .int (5), .reg "R2"]⟩ = .error ⟨.operandTypeError, "ADD", 1⟩ ∧
    encodeStatement ⟨"JMP", [.reg "R32", .reg "R0"]⟩ = .error ⟨.operandTypeError, "JMP", 0⟩ := by decide

theorem test_assembler_counts_arguments :
    encodeStatement ⟨"ADD", [.reg "R1", .reg "R2"]⟩ = .error ⟨.arityError, "ADD", 2⟩ ∧
    encodeStatement ⟨"ADD", [.reg "R1", .reg "R2", .reg "R3", .reg "R4"]⟩ = .error ⟨.arityError, "ADD", 3⟩ ∧
    encodeStatement ⟨"FOO", [.reg "R1"]⟩ = .error ⟨.unknownInstruction, "FOO", 0⟩ := by decide

theorem test_assembler_encodes :
    encodeStatement ⟨"addc", [.reg "r31", .int (6), .reg "r1"]⟩ = .ok 0xC03F0006 ∧
    encodeStatement ⟨"LDR", [.int (2), .reg "R5"]⟩ = .ok 0x7CBF0002 ∧
    encodeStatement ⟨"ST", [.reg "R2", .int (12), .reg "R1"]⟩ = .ok 0x6441000C ∧
    encodeStatement ⟨"JMP", [.reg "LP", .reg "R31"]⟩ = .ok 0x6FFC0000 := by decide

/-- E5: the HALT at the end, and a program that does not fit. -/
theorem test_assembler_buffer :
    assemble [⟨"ADDC", [.reg "R31", .int (6), .reg "R1"]⟩] (List.replicate 8 0) =
      .ok [0xC0, 0x3F, 0x00, 0x06, 0, 0, 0, 0] ∧
    assemble [⟨"ADDC", [.reg "R31", .int (6), .reg "R1"]⟩] (List.replicate 8 0) 4 =
      .error ⟨.bufferBoundsError, "HALT", 0⟩ ∧
    assemble [⟨"ADDC", [.reg "R31", .int (6), .reg "R1"]⟩] (List.replicate 8 0) (-4) =
      .error ⟨.bufferBoundsError, "ADDC", 0⟩ ∧
    assemble [⟨"ADDC", [.reg "R31", .int (6), .reg "R1"]⟩] (List.replicate 8 0) 0 false =
      .error ⟨.missingHaltError, "HALT", 0⟩ := by decide

/-! ### Decoding: the words of V1 and V2 -/

theorem test_decode_halt : decodeWord 0x00000000 = .ok (.halt) := by decide
theorem test_decode_ld : decodeWord 0x60410008 = .ok (.ld 1 8 2) := by decide
theorem test_decode_st : decodeWord 0x6441000C = .ok (.st 2 12 1) := by decide
theorem test_decode_jmp : decodeWord 0x6C830000 = .ok (.jmp 3 4) := by decide
theorem test_decode_beq : decodeWord 0x70410003 = .ok (.beq 1 3 2) := by decide
theorem test_decode_bne : decodeWord 0x77E1FFFE = .ok (.bne 1 0xFFFE 31) := by decide
theorem test_decode_ldr : decodeWord 0x7CBF0002 = .ok (.ldr 31 2 5) := by decide
theorem test_decode_add : decodeWord 0x80611000 = .ok (.add 1 2 3) := by decide
theorem test_decode_sub : decodeWord 0x84611000 = .ok (.sub 1 2 3) := by decide
theorem test_decode_mul : decodeWord 0x88611000 = .ok (.mul 1 2 3) := by decide
theorem test_decode_div : decodeWord 0x8C611000 = .ok (.div 1 2 3) := by decide
theorem test_decode_cmpeq : decodeWord 0x90611000 = .ok (.cmpeq 1 2 3) := by decide
theorem test_decode_cmplt : decodeWord 0x94611000 = .ok (.cmplt 1 2 3) := by decide
theorem test_decode_cmple : decodeWord 0x98611000 = .ok (.cmple 1 2 3) := by decide
theorem test_decode_and : decodeWord 0xA0611000 = .ok (.and 1 2 3) := by decide
theorem test_decode_or : decodeWord 0xA4611000 = .ok (.or 1 2 3) := by decide
theorem test_decode_xor : decodeWord 0xA8611000 = .ok (.xor 1 2 3) := by decide
theorem test_decode_xnor : decodeWord 0xAC611000 = .ok (.xnor 1 2 3) := by decide
theorem test_decode_shl : decodeWord 0xB0611000 = .ok (.shl 1 2 3) := by decide
theorem test_decode_shr : decodeWord 0xB4611000 = .ok (.shr 1 2 3) := by decide
theorem test_decode_sra : decodeWord 0xB8611000 = .ok (.sra 1 2 3) := by decide
theorem test_decode_addc : decodeWord 0xC041FFFF = .ok (.addc 1 0xFFFF 2) := by decide
theorem test_decode_subc : decodeWord 0xC441FFFF = .ok (.subc 1 0xFFFF 2) := by decide
theorem test_decode_mulc : decodeWord 0xC841FFFF = .ok (.mulc 1 0xFFFF 2) := by decide
theorem test_decode_divc : decodeWord 0xCC41FFFF = .ok (.divc 1 0xFFFF 2) := by decide
theorem test_decode_cmpeqc : decodeWord 0xD041FFFF = .ok (.cmpeqc 1 0xFFFF 2) := by decide
theorem test_decode_cmpltc : decodeWord 0xD441FFFF = .ok (.cmpltc 1 0xFFFF 2) := by decide
theorem test_decode_cmplec : decodeWord 0xD841FFFF = .ok (.cmplec 1 0xFFFF 2) := by decide
theorem test_decode_andc : decodeWord 0xE041FFFF = .ok (.andc 1 0xFFFF 2) := by decide
theorem test_decode_orc : decodeWord 0xE441FFFF = .ok (.orc 1 0xFFFF 2) := by decide
theorem test_decode_xorc : decodeWord 0xE841FFFF = .ok (.xorc 1 0xFFFF 2) := by decide
theorem test_decode_xnorc : decodeWord 0xEC41FFFF = .ok (.xnorc 1 0xFFFF 2) := by decide
theorem test_decode_shlc : decodeWord 0xF041FFFF = .ok (.shlc 1 0xFFFF 2) := by decide
theorem test_decode_shrc : decodeWord 0xF441FFFF = .ok (.shrc 1 0xFFFF 2) := by decide
theorem test_decode_srac : decodeWord 0xF841FFFF = .ok (.srac 1 0xFFFF 2) := by decide

theorem test_decode_ignores_unused_bits :
    decodeWord 0x8061101F = .ok (.add 1 2 3) ∧ decodeWord 0x6C83FFFF = .ok (.jmp 3 4) ∧
    decodeWord 0x03FFFFFF = .ok .halt := by decide

theorem test_decode_illegal :
    [0x04000000, 0x5C000000, 0x68000000, 0x78000000, 0x9C000000, 0xBC000000, 0xDC000000,
      0xFC000000].map decodeWord =
    [0x01, 0x17, 0x1A, 0x1E, 0x27, 0x2F, 0x37, 0x3F].map (fun o => .error (.illegalOpcode o)) := by
  decide

/-- The encoder writes V1's words. -/
theorem test_encode :
    encode (.add 1 2 3) = 0x80611000 ∧ encode (.ld 1 8 2) = 0x60410008 ∧
    encode (.st 2 12 1) = 0x6441000C ∧ encode (.jmp 3 4) = 0x6C830000 ∧
    encode (.bne 1 0xFFFE 31) = 0x77E1FFFE ∧ encode (.ldr 31 2 5) = 0x7CBF0002 ∧
    encode .halt = 0 := by decide

/-- A short byte string is rejected by name. -/
theorem test_decode_truncated : decodeBytes false [0x80, 0x61, 0x10] = .error (.truncated 3) := by
  decide

/-- The table numbers an opcode's word from its least significant bit. -/
theorem test_decodeTableWord :
    decodeTableWord 32 0x80611000 = some (.add 1 2 3) ∧ decodeTableWord 32 0 = some .halt ∧
    decodeTableWord 32 0x68000000 = none := by decide

/-! ### One step on a small state -/

/-- A state at `pc` with the given registers and the given words in a 128-byte memory. -/
def small (le : Bool) (pc : Word) (regs : List (RegIdx × Word)) (ws : List (Nat × Word)) : State :=
  regs.foldl (fun s e => s.writeReg e.1 e.2)
    (State.resetWith (ws.foldl (fun m e => m.writeWord le e.1 e.2) [])
      { memSize := 128, littleEndian := le, maxStep := 1000 } (pc.toNat : Int) [])

/-- The state one step goes to. -/
def after (s : State) : State :=
  match step s with
  | .next t => t
  | _ => s

/-- Register `r`, pc, Z, V and DZ after one step of the word at 0. -/
def result (w : Word) (regs : List (RegIdx × Word)) (r : RegIdx) : Word × Word × Bool × Bool × Bool :=
  let t := after (small false 0 regs [(0, w)])
  (t.reg r, t.pc, t.zero, t.overflow, t.divideByZero)

theorem test_add : result 0x80611000 [(1, 0x7fffffff), (2, 1)] 3 = (0x80000000, 4, false, true, false) := by decide
theorem test_add_corner : result 0x80210800 [(1, 3)] 1 = (6, 4, true, false, false) := by decide
theorem test_sub : result 0x84611000 [(1, 5), (2, 7)] 3 = (0xfffffffe, 4, false, false, false) := by decide
theorem test_subc : result 0xC4210001 [(1, 0)] 1 = (0xffffffff, 4, true, false, false) := by decide
theorem test_sub_corner : result 0x845F0800 [(1, 0x80000000)] 2 = (0x80000000, 4, false, true, false) := by decide
theorem test_mul : result 0x88611000 [(1, 0x10000), (2, 0x10000)] 3 = (0, 4, true, true, false) := by decide
theorem test_mulc : result 0xC841FFFF [(1, 0x80000000)] 2 = (0x80000000, 4, false, true, false) := by decide
theorem test_div : result 0x8C611000 [(1, 0xfffffff9), (2, 2)] 3 = (0xfffffffd, 4, false, false, false) := by decide
theorem test_div_corner : result 0x8C611000 [(1, 7), (2, 0)] 3 = (0, 4, false, false, true) := by decide
theorem test_divc : result 0xCC41FFFF [(1, 0x80000000)] 2 = (0x80000000, 4, false, true, false) := by decide
theorem test_cmpeq : result 0x90611000 [(1, 5), (2, 5)] 3 = (1, 4, true, false, false) := by decide
theorem test_cmpltc : result 0xD4410000 [(1, 0xfffffffb)] 2 = (1, 4, false, false, false) := by decide
theorem test_cmple : result 0x98611000 [(1, 4), (2, 4)] 3 = (1, 4, true, false, false) := by decide
theorem test_cmplec : result 0xD841FFFF [(1, 0)] 2 = (0, 4, true, false, false) := by decide
theorem test_and : result 0xA0611000 [(1, 0xf0f0f0f0), (2, 0xff00ff00)] 3 = (0xf000f000, 4, false, false, false) := by decide
theorem test_andc : result 0xE041FFFF [(1, 0x12345678)] 2 = (0x12345678, 4, false, false, false) := by decide
theorem test_andc_corner : result 0xE0417FFF [(1, 0x12345678)] 2 = (0x5678, 4, false, false, false) := by decide
theorem test_or : result 0xA4611000 [(1, 0xf0f0f0f0), (2, 0xff00ff00)] 3 = (0xfff0fff0, 4, false, false, false) := by decide
theorem test_orc : result 0xE43F8000 [] 1 = (0xffff8000, 4, true, false, false) := by decide
theorem test_xor : result 0xA8410800 [(1, 0x1234)] 2 = (0, 4, true, false, false) := by decide
theorem test_xorc : result 0xE841FFFF [(1, 0xf0f0f0f)] 2 = (0xf0f0f0f0, 4, false, false, false) := by decide
theorem test_xnor : result 0xAC611000 [(1, 0xf0f0f0f0), (2, 0xff00ff00)] 3 = (0xf00ff00f, 4, false, false, false) := by decide
theorem test_xnorc : result 0xEC410000 [(1, 0xf0f0f0f)] 2 = (0xf0f0f0f0, 4, false, false, false) := by decide
theorem test_shl : result 0xB0611000 [(1, 1), (2, 0x20)] 3 = (1, 4, false, false, false) := by decide
theorem test_shlc : result 0xF041001F [(1, 3)] 2 = (0x80000000, 4, false, false, false) := by decide
theorem test_shr : result 0xB4611000 [(1, 0x80000000), (2, 4)] 3 = (0x8000000, 4, false, false, false) := by decide
theorem test_shrc : result 0xF441FFFF [(1, 0x80000000)] 2 = (1, 4, false, false, false) := by decide
theorem test_sra : result 0xB8611000 [(1, 0x80000000), (2, 4)] 3 = (0xf8000000, 4, false, false, false) := by decide
theorem test_srac : result 0xF841001F [(1, 0x7fffffff)] 2 = (0, 4, false, false, false) := by decide
theorem test_addc : result 0xC3FF0005 [] 31 = (0, 4, true, false, false) := by decide
theorem test_addc_corner : result 0xC03F8000 [] 1 = (0xffff8000, 4, true, false, false) := by decide

/-- 41_alu.md R122 and 42_operate.md R155, by hand: 7 = 7. -/
theorem test_cmpeqc : result 0xD0410007 [(1, 7)] 2 = (1, 4, false, false, false) := by decide
/-- R141: 5 is not below -1. -/
theorem test_cmplt : result 0x94611000 [(1, 5), (2, 0xFFFFFFFF)] 3 = (0, 4, false, false, false) := by
  decide
/-- Destination equal to a source: the sources are read first (70_reset_and_hazards.md R209). -/
theorem test_sub_same : result 0x84210800 [(1, 3)] 1 = (0, 4, true, false, false) := by decide

/-- Register `r` and pc after a step of the word at 0, with a word at `a`. -/
def loaded (le : Bool) (w : Word) (r1 : Word) (a : Nat) (v : Word) (r : RegIdx) : Word × Word :=
  let t := after (small le 0 [(1, r1)] [(0, w), (a, v)])
  (t.reg r, t.pc)

theorem test_ld : loaded false 0x60410008 0x40 0x48 0xDEADBEEF 2 = (0xDEADBEEF, 4) := by decide
theorem test_ld_little : loaded true 0x60410008 0x40 0x48 0xDEADBEEF 2 = (0xDEADBEEF, 4) := by decide
theorem test_ldr : loaded false 0x7CBF0002 0 12 0xABCD0123 5 = (0xABCD0123, 4) := by decide
/-- LDR(-1, R5) at 8 reads its own word. -/
theorem test_ldr_backwards :
    (after (small false 8 [] [(8, 0x7CBFFFFF)])).reg 5 = 0x7CBFFFFF := by decide

/-- The bytes at 0x4C to 0x4F after ST(R2, 12, R1). -/
def stored (le : Bool) : List Byte :=
  let t := after (small le 0 [(1, 0x40), (2, 0x11223344)] [(0, 0x6441000C)])
  [0x4C, 0x4D, 0x4E, 0x4F].map t.mem.readByte

theorem test_st : stored false = [0x11, 0x22, 0x33, 0x44] := by decide
theorem test_st_little : stored true = [0x44, 0x33, 0x22, 0x11] := by decide

/-- Status, pc and number of Frames after one step. -/
def stopOf (s : State) : RunStatus × Word × Nat :=
  let t := after s
  (t.status, t.pc, t.trace.length)

theorem test_ld_faults :
    stopOf (small false 0 [(1, 128)] [(0, 0x60410000)]) =
      (.stopped (.memoryFault .outOfBounds 128), 0, 4) ∧
    stopOf (small false 0 [(1, 0x40)] [(0, 0x60410002)]) =
      (.stopped (.memoryFault .misaligned 0x42), 0, 4) ∧
    stopOf (small false 0 [(1, 0xFFFFFFFC)] [(0, 0x60410000)]) =
      (.stopped (.memoryFault .outOfBounds 0xFFFFFFFC), 0, 4) ∧
    stopOf (small false 0 [(1, 0xFFFFFFFE)] [(0, 0x60410000)]) =
      (.stopped (.memoryFault .misaligned 0xFFFFFFFE), 0, 4) := by decide
theorem test_st_faults :
    stopOf (small false 0 [(1, 0x40), (2, 5)] [(0, 0x64410001)]) =
      (.stopped (.memoryFault .misaligned 0x41), 0, 4) := by decide
theorem test_ldr_faults :
    stopOf (small false 0 [] [(0, 0x7CBF0028)]) = (.stopped (.memoryFault .outOfBounds 164), 0, 4) := by
  decide

/-- Register `r` and pc after one step at `pc` of the word there. -/
def branched (pc : Word) (w : Word) (regs : List (RegIdx × Word)) (r : RegIdx) : Word × Word :=
  let t := after (small false pc regs [(pc.toNat, w)])
  (t.reg r, t.pc)

theorem test_beq :
    branched 8 0x70410003 [(1, 0)] 2 = (12, 24) ∧ branched 8 0x70410003 [(1, 5)] 2 = (12, 12) := by
  decide
theorem test_beq_corner :
    branched 8 0x7021FFFD [(1, 0)] 1 = (12, 0) ∧ branched 8 0x705F8000 [] 2 = (12, 0xFFFE000C) := by
  decide
theorem test_bne :
    branched 8 0x77E1FFFE [(1, 1)] 31 = (0, 4) ∧ branched 8 0x77E1FFFE [(1, 0)] 31 = (0, 12) := by
  decide
theorem test_bne_corner :
    branched 8 0x74210003 [(1, 5)] 1 = (12, 24) ∧ branched 8 0x745F0003 [] 2 = (12, 12) := by decide
theorem test_jmp :
    branched 0 0x6C830000 [(3, 0x23)] 4 = (4, 0x20) ∧ branched 4 0x6C630000 [(3, 0x20)] 3 = (8, 0x20) := by
  decide
theorem test_jmp_corner : branched 4 0x6FFC0000 [(28, 0xFFFFFFFF)] 31 = (0, 0xFFFFFFFC) := by decide

theorem test_halt :
    stopOf (small false 0 [] [(0, 0)]) = (.stopped (.halted 0), 0, 0) ∧
    stopOf (small false 0 [] [(0, 0x03FFFFFF)]) = (.stopped (.halted 0), 0, 0) := by decide
theorem test_illegal_opcode :
    stopOf (small false 4 [] [(4, 0x04000000)]) = (.stopped (.illegalOpcode 4 0x04000000), 4, 1) := by
  decide
theorem test_fetch_fault :
    stopOf (small false 2 [] []) = (.stopped (.fetchFault 2), 2, 1) ∧
    stopOf (small false 128 [] []) = (.stopped (.fetchFault 128), 128, 1) := by decide
theorem test_step_limit :
    stopOf { small false 4 [] [] with steps := 1000 } = (.stopped (.stepLimit 1000), 4, 0) := by decide

/-- The Frames of ADDC(R31, 6, R1) (V8, rows 0 to 4): stage, pc, dirty and focus of RA2SEL, focus of BSEL. -/
theorem test_frames :
    (after (small false 0 [] [(0, 0xC03F0006)])).trace.map
      (fun f => (f.stage, f.pc, f.signals.ra2Sel.dirty, f.signals.ra2Sel.focus, f.signals.bSel.focus)) =
    [(.fetch, 0, false, false, false), (.decode, 0, true, true, false), (.execute, 0, true, false, true),
      (.memory, 0, true, false, false), (.writeBack, 4, true, false, false)] := by decide

/-- A state past Fetch with no instruction in flight is refused by name. -/
theorem test_nothing_in_flight :
    step { small false 0 [] [] with stage := .decode } = .refused (.nothingInFlight 0) := rfl

/-- The word placed by `withFetchWord` is the first instruction after reset. -/
theorem test_withFetchWord :
    (after (State.reset.withFetchWord 32 0xC03F0006)).reg 1 = 6 ∧
    (after (State.reset.withFetchWord 32 0)).status = .stopped (.halted 0) := by decide

/-! ### Witnesses: states and operands that meet a statement's hypotheses, a clause at a time -/

/-- EncodeOfDecodeClearsUnusedBits, with and without unused bits set. -/
theorem witness_decoded :
    decodeWord 0x8061101F = .ok (.add 1 2 3) ∧ decodeWord 0x03FFFFFF = .ok .halt ∧
    decodeWord 0xC041FFFF = .ok (.addc 1 0xFFFF 2) := by decide

/-- IllegalOpcodesAreThe29: a rejected word, at each end of the range 0x01 to 0x17, and 0x18 beside it. -/
theorem witness_rejected :
    decodeWord 0x04000000 = .error (.illegalOpcode 1) ∧
    decodeWord 0x5C000000 = .error (.illegalOpcode 0x17) ∧
    decodeWord 0x60410008 = .ok (.ld 1 8 2) := by decide

/-- EncodingPlacesFields: a format that has each role. -/
theorem witness_roles :
    Role.rc ∈ (Instr.add 31 0 31).op.mf ∧ Role.ra ∈ (Instr.jmp 31 0).op.mf ∧
    Role.rb ∈ (Instr.sra 0 31 0).op.mf ∧ Role.literal ∈ (Instr.st 0 0x8000 31).op.mf := by decide

/-- OpcodeLookupIsABijection: two words with one opcode, the first of which decodes. -/
theorem witness_same_opcode :
    (0x80611000 : Word).extractLsb' 26 6 = (0x83FFFFFF : Word).extractLsb' 26 6 ∧
    decodeWord 0x80611000 = .ok (.add 1 2 3) ∧ Op.opcode .add = Op.opcode .add := by decide

/-- AluDivide: both clauses, and the overflowing pair. -/
theorem witness_divide :
    (0 : Word) = 0 ∧ (0xFFFFFFFF : Word) ≠ 0 ∧
    alu 0x80000000 0xFFFFFFFF .div = { r := 0x80000000, v := true, dz := false } := by decide

/-- AluShift: the operations named; AluComplementedBitwise: the end bits. -/
theorem witness_operations :
    AluOp.shl ∈ [AluOp.shl, .shr, .sra] ∧ AluOp.sra ∈ [AluOp.shl, .shr, .sra] ∧ (0 : Nat) < 32 ∧
    (31 : Nat) < 32 := by decide

/-- AluShift: two amounts that agree modulo 32. -/
theorem witness_shift_amounts : (1 : Word).toNat % 32 = (0xFFFFFFE1 : Word).toNat % 32 := by decide

/-- LoadWordCompletes and StoreWordCompletes: the first and the last word of memory. -/
theorem witness_admitted :
    Admitted (small false 0 [] []) ((small false 0 [] []).reg 1 + (0 : Literal).signExtend 32) ∧
    Admitted (small false 0 [(1, 0x40)] [])
      ((small false 0 [(1, 0x40)] []).reg 1 + (0x3C : Literal).signExtend 32) ∧
    (small false 0 [(1, 0x40)] []).mem.wf = true := by
  unfold Admitted
  decide

/-- LoadRelativeCompletes: the first and the last word of memory, from pc 4. -/
theorem witness_admitted_relative :
    Admitted (small false 4 [] []) ((small false 4 [] []).pc + 4 + 4 * (0xFFFE : Literal).signExtend 32) ∧
    Admitted (small false 4 [] []) ((small false 4 [] []).pc + 4 + 4 * (0x1D : Literal).signExtend 32) := by
  unfold Admitted
  decide

/-- StoreWordCompletes: the first and the last of the four bytes, and the bytes beside them. -/
theorem witness_stored_bytes :
    (0 : Nat) < 4 ∧ (3 : Nat) < 4 ∧ ((3 : Nat) < 4 ∨ 4 + 4 ≤ 3) ∧ ((8 : Nat) < 4 ∨ 4 + 4 ≤ 8) := by
  decide

/-- UnadmittedAccessFaults, LD and ST: the word at MEM_SIZE, a misaligned address, and both at once. -/
theorem witness_not_admitted :
    ¬ Admitted (small false 0 [(1, 0x7C)] [])
      ((small false 0 [(1, 0x7C)] []).reg 1 + (4 : Literal).signExtend 32) ∧
    ¬ Admitted (small false 0 [(1, 0x7C)] [])
      ((small false 0 [(1, 0x7C)] []).reg 1 + (0xFFFF : Literal).signExtend 32) ∧
    ¬ Admitted (small false 0 [(1, 0x7C)] [])
      ((small false 0 [(1, 0x7C)] []).reg 1 + (6 : Literal).signExtend 32) := by
  unfold Admitted
  decide

/-- UnadmittedAccessFaults, LDR: the word at MEM_SIZE. -/
theorem witness_not_admitted_relative :
    ¬ Admitted (small false 0 [] [])
      ((small false 0 [] []).pc + 4 + 4 * (0x1F : Literal).signExtend 32) := by
  unfold Admitted
  decide

/-- WordWriteThenRead: a memory in canonical form, and the bytes beside and at the ends of the word. -/
theorem witness_memory :
    Memory.wf [(4, 1), (9, 2)] = true ∧ (0 : Nat) < 4 ∧ (3 : Nat) < 4 ∧ ((3 : Nat) < 4 ∨ 4 + 4 ≤ 3) ∧ ((8 : Nat) < 4 ∨ 4 + 4 ≤ 8) := by
  decide

/-- StoredWordIsFetchedNext: ST(R2, 4, R1) at 0 over the next word. -/
def overwriting : State := small false 0 [(2, 0xC03F0006)] [(0, 0x64410004)]

theorem witness_overwriting :
    overwriting.mem.wf = true ∧ AtFetch overwriting ∧
    Admitted overwriting (overwriting.reg 1 + (4 : Literal).signExtend 32) ∧
    overwriting.reg 1 + (4 : Literal).signExtend 32 = overwriting.pc + 4 ∧
    overwriting.steps + 1 ≠ overwriting.params.maxStep ∧
    decodeWord (overwriting.reg 2) = .ok (.addc 31 6 1) := by
  unfold AtFetch Admitted
  decide

/-- OnlyRcIsWritten: a state whose WASEL is `rc`, a register that is not Rc, and an answer. -/
theorem witness_only_rc :
    (∃ t, exec (.add 1 2 3) (small false 0 [] []) = .next t) ∧
    (small false 0 [] []).signals.waSel.value = .rc ∧ (30 : RegIdx) ≠ (Instr.add 1 2 3).fields.rc :=
  ⟨⟨_, rfl⟩, by decide, by decide⟩

/-- OnlyStoreWritesMemory: an instruction that is not ST. -/
theorem witness_no_store :
    (∃ t, exec (.ld 1 8 2) (small false 0 [] []) = .next t) ∧ (Instr.ld 1 8 2).op ≠ .st :=
  ⟨⟨_, rfl⟩, by decide⟩

/-- LiteralIsAlwaysSignExtended: the least literal, in a logical instruction and in a shift. -/
theorem witness_literal : Instr.andc 1 0x8000 2 ≠ .halt ∧ Instr.shlc 1 0x8000 2 ≠ .halt := by decide

/-- RetiringInstructionFrames: an instruction that retires. -/
theorem witness_retires :
    ∃ t, exec (.addc 31 6 1) (small false 0 [] []) = .next t ∧
      t.steps = (small false 0 [] []).steps + 1 := ⟨_, rfl, by decide⟩

/-- HeldRd2: a held RA2SEL, and both of its values. -/
theorem witness_ra2sel :
    rowOpc.ra2Sel = none ∧ rowOp.ra2Sel = some .rb ∧ rowSt.ra2Sel = some .rc := by decide

/-- HeldRd2, SignalsChangeInTheirStageAlone, RegistersAreWrittenInWriteBackAlone, StageRegisterCycles: Memory goes on without an
access, and stops at one that is not admitted. -/
theorem witness_memory_stage :
    (∃ t, memoryStage rowOp (small false 0 [] []) = .done t) ∧
    (∃ t, memoryStage rowLd (small false 0 [] []) = .done t) ∧
    ∃ t, memoryStage rowLd { small false 0 [] [] with
      latches := { Latches.reset with aluOut := 128 } } = .stopped t :=
  ⟨⟨_, rfl⟩, ⟨_, rfl⟩, ⟨_, rfl⟩⟩

/-- SignalsChangeInTheirStageAlone: PCSEL as one value, as a pair and held. -/
theorem witness_pcsel :
    rowOp.pcSel = some (.one .pc4) ∧ rowBeq.pcSel = some (.pair .pc4 .aluOut) ∧ rowHalt.pcSel = none := by
  decide

/-- RegistersAreWrittenInWriteBackAlone: a fetch that reads an instruction, and one that stops. -/
theorem witness_fetch :
    (∃ i t, fetchInstr (small false 0 [] [(0, 0xC03F0006)]) = .instr i t) ∧
    ∃ t, fetchInstr (small false 2 [] []) = .stopped t := ⟨⟨_, _, rfl⟩, ⟨_, rfl⟩⟩

/-- StepRunsDecodedInstruction and StagesRefineSteps: ADDC(R31, 6, R1) at the last word of memory. -/
def fetching : State := small false 0x7C [] [(0x7C, 0xC03F0006)]

theorem witness_fetching :
    AtFetch fetching ∧ fetching.steps ≠ fetching.params.maxStep ∧ Admitted fetching fetching.pc ∧
    decodeWord (wordAt fetching fetching.pc.toNat) = .ok (.addc 31 6 1) := by
  unfold AtFetch Admitted wordAt
  decide

/-- StepLimitStops: a run at its limit, a limit of 0 among them. -/
theorem witness_step_limit :
    AtFetch { small false 0 [] [] with steps := 1000 } ∧
    ({ small false 0 [] [] with steps := 1000 } : State).steps = (small false 0 [] []).params.maxStep ∧
    AtFetch (State.resetWith [] { memSize := 128, littleEndian := false, maxStep := 0 } 0 []) := by
  unfold AtFetch
  decide

/-- FetchFaultStops: pc misaligned, and pc at MEM_SIZE. -/
theorem witness_fetch_fault :
    AtFetch (small false 2 [] []) ∧ (small false 2 [] []).steps ≠ (small false 2 [] []).params.maxStep ∧
    ¬ Admitted (small false 2 [] []) (small false 2 [] []).pc ∧ AtFetch (small false 128 [] []) ∧
    ¬ Admitted (small false 128 [] []) (small false 128 [] []).pc := by
  unfold AtFetch Admitted
  decide

/-- IllegalOpcodeStops: an illegal word at the last word of memory. -/
theorem witness_illegal :
    AtFetch (small false 0x7C [] [(0x7C, 0xFC000000)]) ∧
    (small false 0x7C [] [(0x7C, 0xFC000000)]).steps ≠ 1000 ∧
    Admitted (small false 0x7C [] [(0x7C, 0xFC000000)]) 0x7C ∧
    decodeWord (wordAt (small false 0x7C [] [(0x7C, 0xFC000000)]) 0x7C) =
      .error (.illegalOpcode 0x3F) := by
  unfold AtFetch Admitted wordAt
  decide

/-- StoppedRunStaysStopped: a run that ended. -/
theorem witness_stopped :
    (after (small false 0 [] [(0, 0)])).status = .stopped (.halted 0) := by decide

/-- StopsArePrecise: a step that stops in Memory, after four Frames, and one that stops in Fetch. -/
theorem witness_stops :
    (AtFetch (small false 0 [(1, 128)] [(0, 0x60410000)]) ∧
      ∃ t, step (small false 0 [(1, 128)] [(0, 0x60410000)]) = .next t ∧
        t.status = .stopped (.memoryFault .outOfBounds 128)) ∧
    AtFetch (small false 2 [] []) ∧
      ∃ t, step (small false 2 [] []) = .next t ∧ t.status = .stopped (.fetchFault 2) :=
  ⟨⟨⟨rfl, rfl⟩, _, rfl, by decide⟩, ⟨rfl, rfl⟩, _, rfl, by decide⟩

/-- StepsKeepTraceAndParameters: a step from Fetch, and one that finishes an instruction in flight. -/
theorem witness_step :
    (∃ t, step fetching = .next t) ∧
    ∃ t, step (fetchStage (fetching.latchIr 0xC03F0006)) = .next t := ⟨⟨_, rfl⟩, ⟨_, rfl⟩⟩

/-- InvariantKept, PcStaysAligned and EveryRunStops: a state of the invariant, with memory listed and pc at the
last word, that takes a step. -/
theorem witness_invariant : fetching.Inv ∧ fetching.pcAligned ∧ ∃ t, step fetching = .next t :=
  ⟨⟨⟨by decide, by decide⟩, rfl, ⟨fun _ => rfl, by decide, rfl⟩, rfl⟩, rfl, ⟨_, rfl⟩⟩

/-- StartOfARun and SimulateEndsWithItsTrace: inputs with 32 registers, an empty memory and one of 8 bytes;
inputs with 31 and with 33. -/
theorem witness_inputs :
    ({ mem := [] } : RunInputs).initRegs.length = 32 ∧
    (0 < ({ mem := List.replicate 8 0 } : RunInputs).mem.length ∧
      7 < ({ mem := List.replicate 8 0 } : RunInputs).mem.length) ∧
    ({ mem := [], initRegs := List.replicate 31 0 } : RunInputs).initRegs.length ≠ 32 ∧
    ({ mem := [], initRegs := List.replicate 33 0 } : RunInputs).initRegs.length ≠ 32 := by decide

/-- HeldValuesAreInvisible: two states that differ in a held latch, a signal, a flag and OFF, and step. -/
def disturbed : State :=
  { fetching with
    latches := { fetching.latches with rd2 := 7 }
    signals := { fetching.signals with waSel := { value := .xp, dirty := true } }
    zero := true
    offset := 12 }

theorem witness_agree :
    fetching.stage = .fetch ∧ AgreeForPrograms fetching disturbed ∧ fetching ≠ disturbed ∧
    ∃ t, step fetching = .next t :=
  ⟨rfl, ⟨fun _ => rfl, rfl, rfl, rfl, rfl, rfl, rfl⟩, by decide, ⟨_, rfl⟩⟩

/-- HeldValuesAreInvisible, the second clause: two ended runs that agree. -/
theorem witness_agree_ended :
    AgreeForPrograms { fetching with status := .stopped (.halted 0) }
      { disturbed with status := .stopped (.halted 0) } ∧
    step { fetching with status := .stopped (.halted 0) } = .fault (.runEnded (.halted 0)) :=
  ⟨⟨fun _ => rfl, rfl, rfl, rfl, rfl, rfl, rfl⟩, rfl⟩

/-- A statement whose mnemonic names `o` and no other row is at fault in its arguments or not at all. -/
theorem atFault_iff {st : Statement} {o : Op} (hn : Names st.mnemonic o)
    (hu : ∀ e ∈ mnemonics, SameSpelling st.mnemonic e.1 → e.2 = o) :
    AtFault st ↔ st.args.length ≠ o.af.length ∨
      ∃ p ∈ o.af.zip st.args, OutOfRange p.1 p.2 ∨ WrongType p.1 p.2 := by
  constructor
  · rintro (h | ⟨_, ⟨e, he, hs, rfl⟩, h⟩)
    · exact absurd hn (h o)
    · rw [hu e he hs] at h
      rcases h with h | ⟨k, d, a, hd, ha, h⟩
      · exact .inl h
      · exact .inr ⟨(d, a), List.mem_of_getElem? (i := k) (by simp [List.getElem?_zip_eq_some, hd, ha]), h⟩
  · rintro (h | ⟨⟨d, a⟩, hp, h⟩)
    · exact .inr ⟨o, hn, .inl h⟩
    · obtain ⟨k, hk⟩ := List.mem_iff_getElem?.1 hp
      rw [List.getElem?_zip_eq_some] at hk
      exact .inr ⟨o, hn, .inr ⟨k, d, a, hk.1, hk.2, h⟩⟩

/-- AssembledStatementDecodes, and the statements before the one at fault of
AssemblerErrorsNameTheirStatement: the least and the greatest literal, R0, R31 and an alias, mnemonics in
every case, and a row no role of which is given. -/
theorem witness_statement :
    Names "subc" .subc ∧ ¬ AtFault ⟨"subc", [.reg "sp", .int (-32768), .reg "r0"]⟩ ∧
    Names "LDR" .ldr ∧ ¬ AtFault ⟨"LDR", [.int 32767, .reg "R31"]⟩ ∧
    Names "Halt" .halt ∧ ¬ AtFault ⟨"Halt", []⟩ := by
  have hs : Names "subc" .subc := by unfold Names SameSpelling; decide
  have hl : Names "LDR" .ldr := by unfold Names SameSpelling; decide
  have hh : Names "Halt" .halt := by unfold Names SameSpelling; decide
  refine ⟨hs, ?_, hl, ?_, hh, ?_⟩
  · rw [atFault_iff hs (by unfold SameSpelling; decide)]
    have hsp : Spells "sp" 29 := by unfold Spells SameSpelling; decide
    have hr0 : Spells "r0" 0 := by unfold Spells SameSpelling; decide
    simp only [Op.af, OutOfRange, WrongType]
    simp
    exact ⟨⟨_, hsp⟩, ⟨_, hr0⟩⟩
  · rw [atFault_iff hl (by unfold SameSpelling; decide)]
    have hr31 : Spells "R31" 31 := by unfold Spells SameSpelling; decide
    simp only [Op.af, OutOfRange, WrongType]
    simp
    exact ⟨_, hr31⟩
  · rw [atFault_iff hh (by unfold SameSpelling; decide)]
    simp [Op.af]

/-- AssemblerErrorsNameTheirStatement, a statement at fault, once for each kind and each way: no mnemonic, too few
and too many arguments, a literal below and above the range, an integer for a register, a register for a
literal, and a symbol of no register. -/
theorem witness_at_fault :
    AtFault ⟨"NOP", []⟩ ∧ AtFault ⟨"ADD", [.reg "R0", .reg "R0"]⟩ ∧ AtFault ⟨"HALT", [.int 0]⟩ ∧
    AtFault ⟨"LDR", [.int (-32769), .reg "R0"]⟩ ∧ AtFault ⟨"LDR", [.int 32768, .reg "R0"]⟩ ∧
    AtFault ⟨"JMP", [.reg "R0", .int 1]⟩ ∧ AtFault ⟨"LDR", [.reg "R0", .reg "R0"]⟩ ∧
    AtFault ⟨"JMP", [.reg "R32", .reg "R0"]⟩ := by
  have hl : Names "LDR" .ldr := by unfold Names SameSpelling; decide
  have hj : Names "JMP" .jmp := by unfold Names SameSpelling; decide
  refine ⟨.inl fun o => ?_, .inr ⟨.add, ?_, .inl (by decide)⟩, .inr ⟨.halt, ?_, .inl (by decide)⟩,
    .inr ⟨_, hl, .inr ⟨0, _, _, rfl, rfl, .inl ⟨rfl, _, rfl, by decide⟩⟩⟩,
    .inr ⟨_, hl, .inr ⟨0, _, _, rfl, rfl, .inl ⟨rfl, _, rfl, by decide⟩⟩⟩,
    .inr ⟨_, hj, .inr ⟨1, _, _, rfl, rfl, .inr (fun h => nomatch h)⟩⟩,
    .inr ⟨_, hl, .inr ⟨0, _, _, rfl, rfl, .inr (.inl rfl)⟩⟩,
    .inr ⟨_, hj, .inr ⟨0, _, _, rfl, rfl, .inr (.inr ?_)⟩⟩⟩
  · have : ∀ e ∈ mnemonics, ¬ SameSpelling "NOP" e.1 := by unfold SameSpelling; decide
    rintro ⟨e, he, hs, _⟩
    exact this e he hs
  · unfold Names SameSpelling; decide
  · unfold Names SameSpelling; decide
  · unfold Spells SameSpelling; decide

/-- AssemblerErrorsNameTheirStatement, an error: a program whose second statement is at fault, once for each kind. -/
theorem witness_assembler_errors :
    ([⟨"FOO", []⟩, ⟨"ADD", [.reg "R0"]⟩, ⟨"JMP", [.reg "R0", .int 1]⟩,
      ⟨"LDR", [.int (-32769), .reg "R0"]⟩] : List Statement).map (fun st =>
        match encodeProgram [⟨"HALT", []⟩, st] with
        | .ok _ => none
        | .error e => some e) =
    [some ⟨.unknownInstruction, "FOO", 0⟩, some ⟨.arityError, "ADD", 1⟩,
      some ⟨.operandTypeError, "JMP", 1⟩, some ⟨.rangeError, "LDR", 0⟩] := by decide

/-- AssembleEndsInHalt: a program that ends in HALT, one that does not, and an empty one, with room. -/
theorem witness_last_word :
    encodeProgram [⟨"HALT", []⟩] = .ok [0] ∧ ([0] : List Word).getLast? = some 0 ∧
    encodeProgram [⟨"JMP", [.reg "R0", .reg "R0"]⟩] = .ok [0x6C000000] ∧
    ([0x6C000000] : List Word).getLast? ≠ some 0 ∧ encodeProgram [] = .ok [] ∧
    ((0 : Int) ≤ 4 ∧
      (4 : Int) + 4 * (([0x6C000000] : List Word).length + 1) ≤ (List.replicate 12 (0 : Byte)).length) := by
  decide

/-- AssembleWritesWordsAtOffset: a program that ends in the appended HALT; a negative offset, an offset one too
large, and the exact fit, with the bytes beside and at the ends of the written ones. -/
theorem witness_program :
    (match encodeProgram [⟨"ADDC", [.reg "R31", .int 6, .reg "R1"]⟩] with
      | .ok ws => ensureHalt true ws
      | .error e => .error e) = .ok [0xC03F0006, 0] ∧
    ((-1 : Int) < 0 ∨ (12 : Int) < -1 + 4 * 2) ∧ ((5 : Int) < 0 ∨ (12 : Int) < 5 + 4 * 2) ∧
    ((0 : Int) ≤ 4 ∧ (4 : Int) + 4 * 2 ≤ 12) ∧
    (3 < (4 : Int).toNat ∨ (4 : Int).toNat + 4 * 2 ≤ 3) ∧
    (12 < (4 : Int).toNat ∨ (4 : Int).toNat + 4 * 2 ≤ 12) ∧
    1 < ([0xC03F0006, 0] : List Word).length ∧ (3 : Nat) < 4 := by decide

/-- ProgramEncodesEachStatement: two statements, the first and the last index, and no statement. -/
theorem witness_words :
    encodeProgram [⟨"ADDC", [.reg "R31", .int 6, .reg "R1"]⟩, ⟨"HALT", []⟩] = .ok [0xC03F0006, 0] ∧
    encodeStatement ⟨"ADDC", [.reg "R31", .int 6, .reg "R1"]⟩ = .ok 0xC03F0006 ∧
    encodeStatement ⟨"HALT", []⟩ = .ok 0 ∧ encodeProgram [] = .ok [] := by decide

end Sys2Proof.Tests
end

section
/-! PROOFS. The register file, the latch L.RD2 and the stage register across the stages (10_state.md R24,
R34, R43). -/

namespace Sys2Proof.Machine

/-! ### What Memory and Fetch leave alone -/

/-- Memory goes on in one way only. -/
theorem eq_memoryDone_of_done {c : Control} {s t : State} (h : memoryStage c s = .done t) :
    t = memoryDone c s := by
  rcases memoryStage_cases c s with ⟨kind, -, -, hstop⟩ | ⟨-, hdone⟩
  · rw [hstop] at h
    cases h
  · rw [hdone] at h
    cases h
    rfl

/-- Memory stops in one way only, up to the kind of the fault. -/
theorem eq_takeFault_of_stopped {c : Control} {s t : State} (h : memoryStage c s = .stopped t) :
    ∃ kind, t = (memorySignals c s).takeFault .memory (.memoryFault kind s.latches.aluOut) := by
  rcases memoryStage_cases c s with ⟨kind, -, -, hstop⟩ | ⟨-, hdone⟩
  · rw [hstop] at h
    cases h
    exact ⟨kind, rfl⟩
  · rw [hdone] at h
    cases h

/-- Memory changes no register, whether it goes on or stops. -/
theorem memoryStage_regs {c : Control} {s t : State}
    (h : memoryStage c s = .done t ∨ memoryStage c s = .stopped t) : t.regs = s.regs := by
  rcases h with hdone | hstop
  · rw [eq_memoryDone_of_done hdone, memoryDone_regs]
  · obtain ⟨kind, rfl⟩ := eq_takeFault_of_stopped hstop
    rw [State.takeFault_regs, memorySignals_regs]

/-- Memory keeps L.RD2, the word a store writes, whether it goes on or stops. -/
theorem memoryStage_rd2 {c : Control} {s t : State}
    (h : memoryStage c s = .done t ∨ memoryStage c s = .stopped t) :
    t.latches.rd2 = s.latches.rd2 := by
  rcases h with hdone | hstop
  · rw [eq_memoryDone_of_done hdone, memoryDone_latches]
  · obtain ⟨kind, rfl⟩ := eq_takeFault_of_stopped hstop
    rw [State.takeFault_latches, memorySignals_latches]

/-- Reading an instruction changes no register, whether Fetch stops or goes on. -/
theorem fetchInstr_regs {s t : State} {i : Instr}
    (h : fetchInstr s = .stopped t ∨ fetchInstr s = .instr i t) : t.regs = s.regs := by
  rcases fetchInstr_cases s with
    ⟨-, hlimit⟩ | ⟨-, -, hfault⟩ | ⟨-, -, w, -, ⟨e, -, hillegal⟩ | ⟨j, -, hread⟩⟩
  · rw [hlimit] at h
    rcases h with h | h <;> cases h
    rfl
  · rw [hfault] at h
    rcases h with h | h <;> cases h
    simp
  · rw [hillegal] at h
    rcases h with h | h <;> cases h
    simp
  · rw [hread] at h
    rcases h with h | h <;> cases h
    rfl

/-! ### L.RD2 after Decode -/

/-- A null RA2SEL leaves L.RD2 unwritten in Decode. -/
theorem decodeStage_rd2_of_null {c : Control} (h : c.ra2Sel = none) (f : Fields) (s : State) :
    (decodeStage c f s).latches.rd2 = s.latches.rd2 := by
  simp [h]

/-- A set RA2SEL writes read port 2, under that value, to L.RD2 in Decode. -/
theorem decodeStage_rd2_of_some {c : Control} {sel : Ra2Sel} (h : c.ra2Sel = some sel) (f : Fields)
    (s : State) : (decodeStage c f s).latches.rd2 = readPort2 s sel f := by
  simp [h]

end Sys2Proof.Machine

namespace Sys2Proof.Proofs

open Sys2Proof.Machine Sys2Proof.Claims

/-- Settles O35: only Decode writes L.RD2, and only under a set RA2SEL. -/
theorem heldRd2 : Obligations.HeldRd2 := by
  intro c op f s
  have hfetch : (fetchStage s).latches.rd2 = s.latches.rd2 := by rw [fetchStage_latches]
  have hexecute : (executeStage c op s).latches.rd2 = s.latches.rd2 := by
    rw [executeStage_latches, executeUpdate_latches]
  have hwriteBack : (writeBackStage c s).latches.rd2 = s.latches.rd2 := by
    rw [writeBackStage_latches]
  refine ⟨fun h => decodeStage_rd2_of_null h f s, fun sel h => ?_, hfetch, hexecute,
    fun _ => memoryStage_rd2, hwriteBack⟩
  rw [decodeStage_rd2_of_some h]
  cases sel with
  | rb => rfl
  | rc => rfl

/-- Settles O37: the law of a register write, and the stages but WriteBack keep the register array. -/
theorem registersAreWrittenInWriteBackAlone : Obligations.RegistersAreWrittenInWriteBackAlone := by
  refine ⟨fun s d v => ⟨s.reg_writeReg d v, if_pos rfl⟩, fun c op f s => ?_⟩
  exact ⟨State.reg_congr (fetchStage_regs s), State.reg_congr (decodeStage_regs c f s),
    State.reg_congr (executeStage_regs c op s),
    fun _ h => State.reg_congr (memoryStage_regs h),
    fun _ _ h => State.reg_congr (fetchInstr_regs h), State.reg_congr (haltStage_regs s)⟩

/-- Settles O39: each stage names its successor, and Memory does when it goes on. -/
theorem stageRegisterCycles : Obligations.StageRegisterCycles := by
  refine ⟨rfl, fun c op f s => ⟨fetchStage_stage s, decodeStage_stage c f s,
    executeStage_stage c op s, fun t h => ?_, writeBackStage_stage c s⟩⟩
  rw [eq_memoryDone_of_done h, memoryDone_stage]

end Sys2Proof.Proofs
end

section
/-! PROOFS. The encoding (30_encoding.md): the instruction the opcode alone chooses (R81), the literal every
instruction past Fetch latches (R78), and what `assemble` writes and where (R92, R93). -/

namespace Sys2Proof

/-! ### The opcode chooses the instruction -/

/-- No two rows share an opcode: the lookup by opcode undoes `Op.opcode`. -/
theorem Op.opcode_injective {o p : Op} (h : o.opcode = p.opcode) : o = p := by
  have hlookup : some o = some p := by rw [← Op.ofOpcode_opcode o, h, Op.ofOpcode_opcode p]
  exact Option.some.inj hlookup

/-- A word that decodes has the opcode of the row it decodes to. -/
theorem opcodeField_of_decodeWord {w : Word} {i : Instr} (h : decodeWord w = .ok i) :
    opcodeField w = i.op.opcode := by
  rcases decodeWord_cases w with ⟨o, hlookup, hok⟩ | ⟨-, hillegal⟩
  · rw [hok] at h
    cases h
    rw [Instr.op_build, Op.opcode_of_ofOpcode hlookup]
  · rw [hillegal] at h
    cases h

/-- A word with the opcode of a row decodes to an instruction of that row, whatever its other bits are. -/
theorem decodeWord_of_opcodeField {w : Word} {o : Op} (h : opcodeField w = o.opcode) :
    ∃ i, decodeWord w = .ok i ∧ i.op = o := by
  refine ⟨Instr.build o (extractFields o.mf w), ?_, Instr.op_build o _⟩
  rw [decodeWord, h, Op.ofOpcode_opcode]

/-! ### The value of a sign-extended literal -/

/-- Sign extension keeps the signed value of a literal. -/
theorem sext32_toInt (v : Literal) : (sext32 v).toInt = v.toInt :=
  BitVec.toInt_signExtend_of_le (by decide)

/-- The signed values of 16 bits. -/
theorem literal_toInt_range (v : Literal) : -32768 ≤ v.toInt ∧ v.toInt ≤ 32767 := by
  have hlow := BitVec.le_toInt v
  have hhigh := BitVec.toInt_lt (x := v)
  omega

end Sys2Proof

namespace Sys2Proof.Machine

/-! ### The literal latch L.LIT -/

/-- Decode latches the sign-extended literal and Execute keeps it. -/
theorem executed_lit (c : Control) (op : Option AluOp) (f : Fields) (s : State) :
    (executed c op f s).latches.lit = sext32 f.lit := by
  rw [executed, executeStage_latches, executeUpdate_latches, decodeStage_latches,
    decodeUpdate_latches]

/-- The stages end with the sign-extended literal latched, whether they stop in Memory or retire. -/
theorem runStages_lit (c : Control) (op : Option AluOp) (f : Fields) (s : State) :
    (runStages c op f s).latches.lit = sext32 f.lit := by
  rcases runStages_cases c op f s with ⟨kind, -, -, hstop⟩ | ⟨-, hretire⟩
  · rw [hstop, State.takeFault_latches, memorySignals_latches, executed_lit]
  · rw [hretire, writeBackStage_latches, memoryDone_latches, executed_lit]

/-- Every instruction but HALT latches its own literal sign-extended. -/
theorem exec_lit {i : Instr} (h : i ≠ .halt) (s : State) :
    ∃ t, exec i s = .next t ∧ t.latches.lit = sext32 i.fields.lit := by
  have hop : i.op ≠ .halt := fun he => h (Instr.eq_halt_of_op he)
  exact ⟨_, by rw [exec_eq, if_neg hop], runStages_lit ..⟩

/-! ### Overwriting a buffer -/

/-- Bytes that fit keep the buffer's length. -/
theorem overwrite_length {buffer bs : List Byte} {pos : Nat} (h : pos + bs.length ≤ buffer.length) :
    (overwrite buffer pos bs).length = buffer.length := by
  simp only [overwrite, List.length_append, List.length_take, List.length_drop]
  omega

/-- A byte before or after the bytes written is the buffer's own. -/
theorem overwrite_getElem?_outside {buffer bs : List Byte} {pos k : Nat}
    (h : pos + bs.length ≤ buffer.length) (hk : k < pos ∨ pos + bs.length ≤ k) :
    (overwrite buffer pos bs)[k]? = buffer[k]? := by
  have htake : (buffer.take pos).length = pos := List.length_take_of_le (by omega)
  rw [overwrite, List.append_assoc]
  rcases hk with hbefore | hafter
  · rw [List.getElem?_append_left (by omega), List.getElem?_take_of_lt hbefore]
  · rw [List.getElem?_append_right (by omega), List.getElem?_append_right (by omega),
      List.getElem?_drop, htake, show pos + bs.length + (k - pos - bs.length) = k by omega]

/-- A byte written is read back at its place. -/
theorem overwrite_getElem?_inside {buffer bs : List Byte} {pos k : Nat}
    (h : pos + bs.length ≤ buffer.length) (hk : k < bs.length) :
    (overwrite buffer pos bs)[pos + k]? = bs[k]? := by
  have htake : (buffer.take pos).length = pos := List.length_take_of_le (by omega)
  rw [overwrite, List.append_assoc, List.getElem?_append_right (by omega), htake,
    Nat.add_sub_cancel_left, List.getElem?_append_left hk]

/-! ### The HALT at the end -/

theorem bytesOfWord_haltWord (le : Bool) : bytesOfWord le haltWord = [0, 0, 0, 0] := by
  cases le <;> rfl

/-- Words that end in HALT stay as they are. -/
theorem ensureHalt_of_last {ws : List Word} (h : ws.getLast? = some haltWord) (auto : Bool) :
    ensureHalt auto ws = .ok ws := if_pos h

/-- A missing HALT is appended when the assembler is asked to. -/
theorem ensureHalt_append {ws : List Word} (h : ws.getLast? ≠ some haltWord) :
    ensureHalt true ws = .ok (ws ++ [haltWord]) := if_neg h

/-- A missing HALT is an error when the assembler is not asked to append it. -/
theorem ensureHalt_missing {ws : List Word} (h : ws.getLast? ≠ some haltWord) :
    ensureHalt false ws = .error ⟨.missingHaltError, opMnemonic .halt, 0⟩ := if_neg h

/-- An error of the HALT at the end is the error of the assembly, whatever the buffer. -/
theorem assemble_haltError {src : List Statement} {ws : List Word} {auto : Bool} {e : AsmError}
    (h : encodeProgram src = .ok ws) (h' : ensureHalt auto ws = .error e) (buffer : List Byte)
    (offset : Int) (le : Bool) : assemble src buffer offset auto le = .error e := by
  simp only [assemble, h, h']

/-! ### Where the words go -/

/-- Words that fit overwrite the buffer from the offset on. -/
theorem assemble_fits {src : List Statement} {ws ws' : List Word} {auto : Bool} {buffer : List Byte}
    {offset : Int} (h : encodeProgram src = .ok ws) (h' : ensureHalt auto ws = .ok ws')
    (hlow : 0 ≤ offset) (hhigh : offset + 4 * ws'.length ≤ buffer.length) (le : Bool) :
    assemble src buffer offset auto le =
      .ok (overwrite buffer offset.toNat (ws'.flatMap (bytesOfWord le))) := by
  rw [assemble_words h h', if_pos ⟨hlow, hhigh⟩]

/-- Words that do not fit are a BufferBoundsError. -/
theorem assemble_misfits {src : List Statement} {ws ws' : List Word} {auto : Bool}
    {buffer : List Byte} {offset : Int} (h : encodeProgram src = .ok ws)
    (h' : ensureHalt auto ws = .ok ws')
    (hout : offset < 0 ∨ (buffer.length : Int) < offset + 4 * ws'.length) (le : Bool) :
    ∃ e, assemble src buffer offset auto le = .error e ∧ e.kind = .bufferBoundsError := by
  have hnot : ¬ (0 ≤ offset ∧ offset + 4 * ws'.length ≤ buffer.length) := by omega
  exact ⟨_, by rw [assemble_words h h', if_neg hnot], rfl⟩

/-- A program whose HALT is missing is written with the HALT word after it, when there is room for both. -/
theorem assemble_haltAppended {src : List Statement} {ws : List Word} {buffer : List Byte} {offset : Int}
    (h : encodeProgram src = .ok ws) (hlast : ws.getLast? ≠ some haltWord) (hlow : 0 ≤ offset)
    (hhigh : offset + 4 * (ws.length + 1) ≤ buffer.length) (le : Bool) :
    assemble src buffer offset true le =
      .ok (buffer.take offset.toNat ++ (ws.flatMap (bytesOfWord le) ++ [0, 0, 0, 0]) ++
        buffer.drop (offset.toNat + 4 * ws.length + 4)) := by
  rw [assemble_fits h (ensureHalt_append hlast) hlow (by simpa using hhigh), overwrite,
    wordsBytes_length, List.flatMap_append, List.flatMap_singleton, bytesOfWord_haltWord,
    List.length_append, List.length_singleton, Nat.mul_add, Nat.add_assoc]

end Sys2Proof.Machine

namespace Sys2Proof.Proofs

open Sys2Proof.Machine

/-- Settles O33: the latch holds the sign extension of the literal, which keeps its signed value. -/
theorem literalIsAlwaysSignExtended : Obligations.LiteralIsAlwaysSignExtended := by
  intro i s hi
  obtain ⟨t, hexec, hlit⟩ := exec_lit hi s
  have hvalue : t.latches.lit.toInt = i.fields.lit.toInt := by rw [hlit, sext32_toInt]
  refine ⟨t, hexec, hvalue, ?_⟩
  rw [hvalue]
  exact literal_toInt_range i.fields.lit

/-- Settles O58: the words' bytes overwrite the buffer at the offset when they fit it, and only then. -/
theorem assembleWritesWordsAtOffset : Obligations.AssembleWritesWordsAtOffset := by
  intro src buffer offset auto le ws h
  cases hsrc : encodeProgram src with
  | error e =>
    rw [hsrc] at h
    cases h
  | ok ws₀ =>
    rw [hsrc] at h
    refine ⟨fun hout => assemble_misfits hsrc h hout le, fun hlow hhigh => ?_⟩
    have hlength := wordsBytes_length le ws
    have hroom : offset.toNat + (ws.flatMap (bytesOfWord le)).length ≤ buffer.length := by omega
    refine ⟨_, assemble_fits hsrc h hlow hhigh le, overwrite_length hroom, fun k hk => ?_,
      fun i hi k hk => ?_⟩
    · exact overwrite_getElem?_outside hroom (by omega)
    · rw [Nat.add_assoc, overwrite_getElem?_inside hroom (by omega), wordsBytes_get le ws i hi k hk]

/-- Settles O7: the lookup by opcode is injective, and a word's opcode field decides its row. -/
theorem opcodeLookupIsABijection : Obligations.OpcodeLookupIsABijection := by
  refine ⟨fun o p => Op.opcode_injective, fun w w' i hsame hw => ?_⟩
  have hopcode : opcodeField w = i.op.opcode := opcodeField_of_decodeWord hw
  obtain ⟨j, hj, hop⟩ := decodeWord_of_opcodeField (hsame.symm.trans hopcode)
  exact ⟨j, hj, hop, hopcode⟩

/-- Settles O57: `ensureHalt` keeps, appends or reports the HALT, and the words that come of it are written;
the empty program has no last word, so it is a case of the appended HALT. -/
theorem assembleEndsInHalt : Obligations.AssembleEndsInHalt := by
  intro src buffer offset le ws h
  refine ⟨fun hlast => ⟨_, assemble_haltError h (ensureHalt_missing hlast) buffer offset le, rfl⟩,
    fun hlow hhigh => ?_⟩
  refine ⟨fun hlast auto => ?_, fun hlast => assemble_haltAppended h hlast hlow hhigh le, fun hempty => ?_⟩
  · rw [assemble_fits h (ensureHalt_of_last hlast auto) hlow (by omega), overwrite,
      wordsBytes_length]
  · subst hempty
    cases h
    simpa using assemble_haltAppended rfl (by simp) hlow hhigh le

end Sys2Proof.Proofs
end

section
/-! PROOFS. WriteBack (40_pipeline.md R105): the register it writes, the next pc, its signals and its Frame. -/

namespace Sys2Proof.Machine

open Sys2Proof.Claims

/-! ### Signals and Frames in the terms of the statements -/

/-- Applying a default is the statements' `afterDefault`. -/
theorem Signal.apply_eq_afterDefault {α : Type} (g : Signal α) (d : Option α) :
    g.apply d = afterDefault d g := by
  cases d with
  | none => rfl
  | some v => rfl

/-- A Frame shows the value and the dirty bit of every signal as they are, whatever is in focus. -/
@[simp] theorem State.shown_frame (s : State) (st : Stage) (exc : Bool) :
    shown (s.frame st exc) = s.signals := rfl

/-- A Frame shows the registers of every state with the same register array. -/
theorem State.frame_showsRegs {s t : State} (h : t.regs = s.regs) (st : Stage) (exc : Bool) :
    ShowsRegs (s.frame st exc) t := fun r => by
  rw [State.frame_regs_get, State.reg_congr h]

/-! ### What WriteBack writes -/

/-- A register read after WriteBack, by the signals WriteBack has applied. -/
theorem writeBackStage_reg (c : Control) (s : State) (r : RegIdx) :
    (writeBackStage c s).reg r =
      if (writeBackStage c s).signals.werf.value = true ∧
          r = writeBackReg s.latches (writeBackStage c s).signals.waSel.value ∧ r ≠ 31 then
        writeBackData s.latches (writeBackStage c s).signals.wdSel.value
      else s.reg r := by
  rw [State.reg_congr (writeBackStage_regs c s), reg_registerWrite, writeBackStage_signals,
    writeBackSignals_latches, State.reg_congr (writeBackSignals_regs c s)]

/-- With WERF 1 the selected register takes the selected value. -/
theorem writeBackStage_writes {c : Control} {s : State}
    (h : (writeBackStage c s).signals.werf.value = true) :
    Writes s (writeBackStage c s)
      (writeBackReg s.latches (writeBackStage c s).signals.waSel.value)
      (writeBackData s.latches (writeBackStage c s).signals.wdSel.value) := fun r => by
  simp only [writeBackStage_reg, h, true_and]

/-- With WERF 0 no register changes. -/
theorem writeBackStage_sameRegs {c : Control} {s : State}
    (h : ¬ (writeBackStage c s).signals.werf.value = true) : SameRegs s (writeBackStage c s) :=
  fun r => by rw [writeBackStage_reg, if_neg fun hw => h hw.1]

/-- WriteBack applies the defaults of its three signals. -/
theorem writeBackStage_signals_eq_afterDefault (c : Control) (s : State) :
    (writeBackStage c s).signals = { s.signals with
      wdSel := afterDefault c.wdSel s.signals.wdSel, werf := afterDefault c.werf s.signals.werf,
      waSel := afterDefault c.waSel s.signals.waSel } := by
  simp only [writeBackStage_signals, writeBackSignals_signals, Signal.apply_eq_afterDefault]

/-- WriteBack appends one Frame, taken after the register write and the advance of pc. -/
theorem writeBackStage_frame (c : Control) (s : State) :
    ∃ f, (writeBackStage c s).trace = s.trace ++ [f] ∧ f.stage = .writeBack ∧
      f.pc = (writeBackStage c s).pc ∧ ShowsRegs f (writeBackStage c s) ∧
      shown f = (writeBackStage c s).signals := by
  refine ⟨_, writeBackStage_trace c s, State.frame_stage .., ?_, State.frame_showsRegs ?_ _ _, ?_⟩
  · simp
  · rw [writeBackStage_regs, advancePc_regs]
  · simp

end Sys2Proof.Machine

namespace Sys2Proof.Proofs

open Sys2Proof.Machine Sys2Proof.Claims

/-- Settles O38: the register write is split by WERF; every other part is one fact about `writeBackStage`. -/
theorem writeBackStageWrites : Obligations.WriteBackStageWrites := by
  intro c s t wd dst
  have hregs : if t.signals.werf.value then Writes s t dst wd else SameRegs s t := by
    split
    · next hwerf => exact writeBackStage_writes hwerf
    · next hwerf => exact writeBackStage_sameRegs hwerf
  exact ⟨hregs, writeBackStage_pc c s, writeBackStage_signals_eq_afterDefault c s,
    writeBackStage_frame c s, writeBackStage_steps c s, writeBackStage_mem c s,
    writeBackStage_latches c s, writeBackStage_zero c s, writeBackStage_overflow c s,
    writeBackStage_divideByZero c s, writeBackStage_status c s, writeBackStage_offset c s,
    writeBackStage_params c s⟩

end Sys2Proof.Proofs
end

section
/-! PROOFS. The ALU's bitwise operations (41_alu.md R125 to R127). -/

namespace Sys2Proof.Machine

@[simp] theorem AluResult.plain_r (r : Word) : (AluResult.plain r).r = r := rfl

/-! ### What each bitwise operation answers -/

@[simp] theorem alu_and (a b : Word) : alu a b .and = .plain (a &&& b) := rfl
@[simp] theorem alu_or (a b : Word) : alu a b .or = .plain (a ||| b) := rfl
@[simp] theorem alu_xor (a b : Word) : alu a b .xor = .plain (a ^^^ b) := rfl

/-! ### The same, read at one bit -/

theorem alu_and_getLsbD (a b : Word) (k : Nat) :
    (alu a b .and).r.getLsbD k = (a.getLsbD k && b.getLsbD k) := by
  rw [alu_and, AluResult.plain_r, BitVec.getLsbD_and]

theorem alu_or_getLsbD (a b : Word) (k : Nat) :
    (alu a b .or).r.getLsbD k = (a.getLsbD k || b.getLsbD k) := by
  rw [alu_or, AluResult.plain_r, BitVec.getLsbD_or]

theorem alu_xor_getLsbD (a b : Word) (k : Nat) :
    (alu a b .xor).r.getLsbD k = (a.getLsbD k != b.getLsbD k) := by
  rw [alu_xor, AluResult.plain_r, BitVec.getLsbD_xor]

end Sys2Proof.Machine

namespace Sys2Proof.Proofs

open Sys2Proof.Machine

/-- Settles O13: each operation is the word operation of its name, which acts on every bit alone. -/
theorem aluAndOrXor : Obligations.AluAndOrXor := fun a b k =>
  ⟨alu_and_getLsbD a b k, alu_or_getLsbD a b k, alu_xor_getLsbD a b k⟩

end Sys2Proof.Proofs
end

section
/-! PROOFS. Encoding and decoding (30_encoding.md R71 to R83, R91): what each format packs and where, and that
decoding undoes it. -/

namespace Sys2Proof

/-! ### The four formats -/

/-- The table has four micro-formats: NONE, JMP, OPC and OP (30_encoding.md R74). -/
theorem Op.mf_cases (o : Op) :
    o.mf = [] ∨ o.mf = [.rc, .ra] ∨ o.mf = [.rc, .ra, .literal] ∨ o.mf = [.rc, .ra, .rb] := by
  cases o <;> simp [Op.mf]

/-- The word of a format, field by field. -/
theorem encodeWalk_formats (f : Fields) (w : Word) :
    encodeWalk [] 26 f w = w ∧
    encodeWalk [.rc, .ra] 26 f w =
      w ||| f.rc.zeroExtend 32 <<< 21 ||| f.ra.zeroExtend 32 <<< 16 ∧
    encodeWalk [.rc, .ra, .literal] 26 f w =
      w ||| f.rc.zeroExtend 32 <<< 21 ||| f.ra.zeroExtend 32 <<< 16 ||| f.lit.zeroExtend 32 <<< 0 ∧
    encodeWalk [.rc, .ra, .rb] 26 f w =
      w ||| f.rc.zeroExtend 32 <<< 21 ||| f.ra.zeroExtend 32 <<< 16 ||| f.rb.zeroExtend 32 <<< 11 :=
  ⟨rfl, rfl, rfl, rfl⟩

/-- The fields a format reads from a word. -/
theorem extractFields_formats (w : Word) :
    extractFields [] w = Fields.absent ∧
    extractFields [.rc, .ra] w =
      { Fields.absent with rc := w.extractLsb' 21 5, ra := w.extractLsb' 16 5 } ∧
    extractFields [.rc, .ra, .literal] w =
      { Fields.absent with
        rc := w.extractLsb' 21 5, ra := w.extractLsb' 16 5, lit := w.extractLsb' 0 16 } ∧
    extractFields [.rc, .ra, .rb] w =
      { Fields.absent with
        rc := w.extractLsb' 21 5, ra := w.extractLsb' 16 5, rb := w.extractLsb' 11 5 } :=
  ⟨rfl, rfl, rfl, rfl⟩

/-- Each role a format has is read from its own bits. -/
theorem extractFields_roles (o : Op) (w : Word) :
    (Role.rc ∈ o.mf → (extractFields o.mf w).rc = w.extractLsb' 21 5) ∧
    (Role.ra ∈ o.mf → (extractFields o.mf w).ra = w.extractLsb' 16 5) ∧
    (Role.rb ∈ o.mf → (extractFields o.mf w).rb = w.extractLsb' 11 5) ∧
    (Role.literal ∈ o.mf → (extractFields o.mf w).lit = w.extractLsb' 0 16) := by
  rcases o.mf_cases with h | h | h | h <;> simp [h, extractFields_formats]

/-! ### Decoding undoes encoding -/

/-- The opcode stands above every field of a packed word. -/
theorem opcodeField_encodeFields (o : Op) (f : Fields) :
    opcodeField (encodeFields o f) = o.opcode := by
  rcases o.mf_cases with h | h | h | h <;>
    simp only [opcodeField, encodeFields, h, encodeWalk_formats, BitVec.extractLsb'_or,
      extract_placed_same, extract_placed_apart, BitVec.or_zero, Nat.reduceAdd, Nat.reduceLeDiff,
      or_true, le_refl]

/-- Fields packed under a row's format are read back, the roles it lacks being at their defaults. -/
theorem extractFields_encodeFields {o : Op} {f : Fields} (hf : f.wellFormed o.mf = true) :
    extractFields o.mf (encodeFields o f) = f := by
  obtain ⟨lit, ra, rb, rc⟩ := f
  rcases o.mf_cases with h | h | h | h <;>
    simp [Fields.wellFormed, h] at hf <;>
    simp only [encodeFields, h, encodeWalk_formats, extractFields_formats, BitVec.extractLsb'_or,
      extract_placed_same, extract_placed_apart, BitVec.or_zero, BitVec.zero_or, Nat.reduceAdd,
      Nat.reduceLeDiff, true_or, or_true, le_refl, Fields.absent,
      BitVec.ofNat_eq_ofNat, hf]

/-- A packed word decodes to its row's instruction with the fields packed. -/
theorem decodeWord_encodeFields {o : Op} {f : Fields} (hf : f.wellFormed o.mf = true) :
    decodeWord (encodeFields o f) = .ok (Instr.build o f) := by
  rw [decodeWord, opcodeField_encodeFields, Op.ofOpcode_opcode]
  simp only [extractFields_encodeFields hf]

/-- An instruction is its row's instruction with its own fields. -/
theorem Instr.build_op_fields (i : Instr) : Instr.build i.op i.fields = i := by cases i <;> rfl

/-- An instruction's fields hold the defaults of the roles its format lacks. -/
theorem Instr.fields_wellFormed (i : Instr) : i.fields.wellFormed i.op.mf = true := by
  cases i <;> simp [Fields.wellFormed, Instr.op, Op.mf, Instr.fields, Fields.absent]

/-- Decoding an instruction's word gives it back. -/
theorem decodeWord_encode (i : Instr) : decodeWord (encode i) = .ok i := by
  rw [encode, decodeWord_encodeFields i.fields_wellFormed, i.build_op_fields]

/-! ### Encoding a decoded word -/

/-- The encoder of a built instruction packs the very fields it was built from. -/
theorem encode_build (o : Op) (f : Fields) : encode (Instr.build o f) = encodeFields o f := by
  cases o <;> rfl

/-- The bits each format uses, as the statements list them by instruction. -/
theorem usedBits_cases (o : Op) :
    (o.mf = [] ∧ Claims.usedBits o = 0xFC000000) ∨
    (o.mf = [.rc, .ra] ∧ Claims.usedBits o = 0xFFFF0000) ∨
    (o.mf = [.rc, .ra, .literal] ∧ Claims.usedBits o = 0xFFFFFFFF) ∨
    (o.mf = [.rc, .ra, .rb] ∧ Claims.usedBits o = 0xFFFFF800) := by
  cases o <;> simp [Op.mf, Claims.usedBits]

/-- Packing the fields read from a word under its own opcode keeps the bits of the format alone. -/
theorem encodeFields_extractFields {w : Word} {o : Op} (ho : opcodeField w = o.opcode) :
    encodeFields o (extractFields o.mf w) = w &&& Claims.usedBits o := by
  rw [encodeFields, ← ho, opcodeField]
  rcases usedBits_cases o with ⟨h, hm⟩ | ⟨h, hm⟩ | ⟨h, hm⟩ | ⟨h, hm⟩ <;>
    · rw [h, hm]
      simp only [encodeWalk_formats, extractFields_formats, placed_extract, ← BitVec.and_or_distrib_left]
      congr 1

/-! ### The opcodes the table lacks -/

/-- The lookup fails for the 29 opcodes of 30_encoding.md R83 alone. -/
theorem Op.ofOpcode_eq_none (c : Opcode) :
    Op.ofOpcode c = none ↔
      (1 ≤ c.toNat ∧ c.toNat ≤ 0x17) ∨ c.toNat = 0x1A ∨ c.toNat = 0x1E ∨ c.toNat = 0x27 ∨
        c.toNat = 0x2F ∨ c.toNat = 0x37 ∨ c.toNat = 0x3F := by
  revert c
  decide

/-- The decoder's one error names the opcode, and it is given when the lookup fails. -/
theorem decodeWord_eq_error {w : Word} {e : DecodeError} :
    decodeWord w = .error e ↔
      Op.ofOpcode (opcodeField w) = none ∧ e = .illegalOpcode (opcodeField w) := by
  rcases decodeWord_cases w with ⟨o, hlookup, hok⟩ | ⟨hnone, hillegal⟩
  · simp [hok, hlookup]
  · simp [hillegal, hnone, eq_comm]

/-- HALT is the row of opcode 0, and it reads no field. -/
theorem decodeWord_eq_halt (w : Word) : decodeWord w = .ok .halt ↔ opcodeField w = 0 := by
  constructor
  · intro h
    simpa [Instr.op, Op.opcode] using opcodeField_of_decodeWord h
  · intro h
    obtain ⟨i, hi, hop⟩ := decodeWord_of_opcodeField (o := .halt) h
    rw [hi, Instr.eq_halt_of_op hop]

end Sys2Proof

namespace Sys2Proof.Proofs

/-- Settles O1: the opcode and the fields are read back from where the format packs them. -/
theorem decodeOfEncode : Obligations.DecodeOfEncode := decodeWord_encode

/-- Settles O2: each field read and packed again is the word under that field's mask. -/
theorem encodeOfDecodeClearsUnusedBits : Obligations.EncodeOfDecodeClearsUnusedBits := by
  intro w i h
  rcases decodeWord_cases w with ⟨o, hlookup, hok⟩ | ⟨-, hillegal⟩
  · rw [hok] at h
    cases h
    rw [encode_build, Instr.op_build, encodeFields_extractFields (Op.opcode_of_ofOpcode hlookup).symm]
  · rw [hillegal] at h
    cases h

/-- Settles O3: the four bytes compose the word again in their order, and the word decodes. -/
theorem decodeBytesOfEncodedWord : Obligations.DecodeBytesOfEncodedWord := by
  intro le i rest
  simp only [bytesOfWord, List.cons_append, List.nil_append, decodeBytes, wordOfBytes_byteOfWord,
    decodeWord_encode]

/-- Settles O4: a rejection is a failed lookup, and the lookup fails for the 29 opcodes alone. -/
theorem illegalOpcodesAreThe29 : Obligations.IllegalOpcodesAreThe29 := by
  intro w
  refine ⟨?_, fun e he => (decodeWord_eq_error.1 he).2⟩
  rw [← opcodeField_toNat, ← Op.ofOpcode_eq_none]
  exact decodeWord_eq_error.trans (and_iff_left rfl)

/-- Settles O6: what decoding reads of a role's bits is the field encoded. -/
theorem encodingPlacesFields : Obligations.EncodingPlacesFields := by
  intro i
  have hfields : extractFields i.op.mf (encode i) = i.fields :=
    extractFields_encodeFields i.fields_wellFormed
  refine ⟨opcodeField_encodeFields i.op i.fields, ?_⟩
  simpa only [hfields, eq_comm] using extractFields_roles i.op (encode i)

/-- Settles O5: opcode 0 is HALT's, and bits [31:26] are 0 exactly below 2^26. -/
theorem haltIsOpcodeZero : Obligations.HaltIsOpcodeZero := by
  intro w
  rw [decodeWord_eq_halt, ← BitVec.toNat_inj, opcodeField_toNat]
  change w.toNat / 2 ^ 26 = 0 ↔ w.toNat < 2 ^ 26
  omega

/-- Settles O8: each word is decoded by evaluation. -/
theorem knownWordsDecode : Obligations.KnownWordsDecode := by
  unfold Obligations.KnownWordsDecode
  decide

end Sys2Proof.Proofs
end

section
/-! PROOFS. The ALU (41_alu.md R118 to R134): each operation's result and flags, in the terms of the
statements. -/

namespace Sys2Proof.Machine

open Sys2Proof.Claims

/-! ### Signed values of 32 bits -/

/-- The signed values of 32 bits. -/
theorem word_toInt_range (a : Word) : -2147483648 ≤ a.toInt ∧ a.toInt ≤ 2147483647 := by
  have hlow := BitVec.le_toInt a
  have hhigh := BitVec.toInt_lt (x := a)
  omega

theorem toInt_eq_zero_iff (a : Word) : a.toInt = 0 ↔ a = 0 := by
  rw [← BitVec.toInt_inj]
  rfl

theorem outside32_iff (n : Int) : outside32 n = true ↔ n < -2147483648 ∨ 2147483647 < n :=
  decide_eq_true_iff

theorem outsideSigned_eq_outside32 (n : Int) : outsideSigned n = outside32 n := by
  simp only [outsideSigned, outside32, decide_eq_decide]
  omega

/-- An exact sum or difference of two words, wrapped, is itself or a turn of 2^32 away. -/
theorem wrapped_toInt {r : Word} {n : Int} (hr : r.toInt = n.bmod (2 ^ 32))
    (hn : -4294967296 ≤ n ∧ n ≤ 4294967295) :
    r.toInt = n ∨ r.toInt = n - 4294967296 ∨ r.toInt = n + 4294967296 := by
  rw [hr, Int.bmod_def]
  split <;> omega

/-! ### ADD and SUB -/

/-- The sign tests of ADD's V, on signed values. -/
theorem addOverflow_iff (a b r : Word) :
    addOverflow a b r = true ↔
      (0 ≤ a.toInt ∧ 0 ≤ b.toInt ∧ r.toInt < 0) ∨ (a.toInt < 0 ∧ b.toInt < 0 ∧ 0 ≤ r.toInt) := by
  simp [addOverflow, msb_eq_neg, and_assoc]

/-- The sign tests of SUB's V, on signed values. -/
theorem subOverflow_iff (a b r : Word) :
    subOverflow a b r = true ↔
      (0 ≤ a.toInt ∧ b.toInt < 0 ∧ r.toInt < 0) ∨ (a.toInt < 0 ∧ 0 ≤ b.toInt ∧ 0 ≤ r.toInt) := by
  simp [subOverflow, msb_eq_neg, and_assoc]

/-- ADD's sign tests hold exactly when the exact sum lies outside the signed range. -/
theorem addOverflow_exact (a b : Word) :
    addOverflow a b (a + b) = outside32 (a.toInt + b.toInt) := by
  have ha := word_toInt_range a
  have hb := word_toInt_range b
  have hr := word_toInt_range (a + b)
  have hwrap := wrapped_toInt (BitVec.toInt_add a b) (by omega)
  rw [Bool.eq_iff_iff, addOverflow_iff, outside32_iff]
  omega

/-- SUB's sign tests hold exactly when the exact difference lies outside the signed range. -/
theorem subOverflow_exact (a b : Word) :
    subOverflow a b (a - b) = outside32 (a.toInt - b.toInt) := by
  have ha := word_toInt_range a
  have hb := word_toInt_range b
  have hr := word_toInt_range (a - b)
  have hwrap := wrapped_toInt (BitVec.toInt_sub (x := a) (y := b)) (by omega)
  rw [Bool.eq_iff_iff, subOverflow_iff, outside32_iff]
  omega

theorem alu_add (a b : Word) :
    alu a b .add = { r := a + b, v := outside32 (a.toInt + b.toInt), dz := false } := by
  rw [alu, addOverflow_exact]

theorem alu_sub (a b : Word) :
    alu a b .sub = { r := a - b, v := outside32 (a.toInt - b.toInt), dz := false } := by
  rw [alu, subOverflow_exact]

/-! ### MUL -/

theorem alu_mul (a b : Word) :
    alu a b .mul =
      { r := BitVec.ofInt 32 (a.toInt * b.toInt), v := outside32 (a.toInt * b.toInt), dz := false } := by
  rw [alu, mulOverflow, outsideSigned_eq_outside32]

/-- The low word of a product is the same for the signed and the unsigned reading. -/
theorem signed_product_eq_unsigned (a b : Word) :
    BitVec.ofInt 32 (a.toInt * b.toInt) = BitVec.ofNat 32 (a.toNat * b.toNat) := by
  rw [BitVec.ofInt_mul, BitVec.ofNat_mul, BitVec.ofInt_toInt, BitVec.ofInt_toInt, BitVec.ofNat_toNat,
    BitVec.ofNat_toNat, BitVec.setWidth_eq, BitVec.setWidth_eq]

/-! ### DIV -/

/-- The one quotient of two words outside the signed range is 2^31, of -2^31 by -1. -/
theorem quotient_eq_two_pow_31_iff (a b : Word) :
    a.toInt.tdiv b.toInt = 2 ^ 31 ↔ a = 0x80000000 ∧ b = 0xFFFFFFFF := by
  constructor
  · intro h
    have ha := word_toInt_range a
    have hb : b.toInt ≠ 0 := fun hb => by simp [hb] at h
    have habs : a.toInt.natAbs / b.toInt.natAbs = 2 ^ 31 := by
      rw [show a.toInt.natAbs / b.toInt.natAbs = (a.toInt.tdiv b.toInt).natAbs from
        (Int.natAbs_tdiv ..).symm, h]
      rfl
    have hle : 2 ^ 31 * b.toInt.natAbs ≤ a.toInt.natAbs := habs ▸ Nat.div_mul_le_self _ _
    have hb1 : b.toInt = 1 ∨ b.toInt = -1 := by omega
    have ha1 : a.toInt = -2147483648 := by omega
    rw [ha1] at h
    rcases hb1 with hb1 | hb1
    · simp [hb1] at h
    · exact ⟨BitVec.eq_of_toInt_eq (ha1.trans (by decide)), BitVec.eq_of_toInt_eq (hb1.trans (by decide))⟩
  · rintro ⟨rfl, rfl⟩
    decide

theorem divByZero_iff (b : Word) : divByZero b = true ↔ b = 0 := by
  rw [divByZero, decide_eq_true_iff, toInt_eq_zero_iff]

theorem alu_div_zero (a : Word) : alu a 0 .div = { r := 0, v := false, dz := true } := rfl

theorem alu_div_of_ne {a b : Word} (hb : b ≠ 0) :
    alu a b .div =
      { r := BitVec.ofInt 32 (a.toInt.tdiv b.toInt), v := divOverflow a b, dz := false } := by
  rw [alu, aluDiv, if_neg (by rwa [divByZero_iff])]

theorem divOverflow_iff (a b : Word) :
    divOverflow a b = true ↔ a = 0x80000000 ∧ b = 0xFFFFFFFF := by
  rw [divOverflow, decide_eq_true_iff, quotient_eq_two_pow_31_iff]

theorem alu_div (a b : Word) :
    alu a b .div =
      { r := quotient a b, v := decide (a = 0x80000000 ∧ b = 0xFFFFFFFF), dz := decide (b = 0) } := by
  by_cases hb : b = 0
  · subst hb
    rw [alu_div_zero]
    simp [quotient]
  · rw [alu_div_of_ne hb, quotient, if_neg hb, decide_eq_false hb, AluResult.mk.injEq, Bool.eq_iff_iff,
      divOverflow_iff, decide_eq_true_iff]
    exact ⟨rfl, Iff.rfl, rfl⟩

/-! ### Compares -/

theorem ofTest_decide (p : Prop) [Decidable p] : ofTest (decide p) = bit p := by
  simp only [ofTest, bit, decide_eq_true_iff]

theorem alu_cmpeq (a b : Word) : alu a b .cmpeq = .plain (bit (a = b)) := by
  rw [alu, Bool.beq_eq_decide_eq, ofTest_decide]

theorem alu_cmplt (a b : Word) : alu a b .cmplt = .plain (bit (a.toInt < b.toInt)) := by
  rw [alu, ofTest_decide]

theorem alu_cmple (a b : Word) : alu a b .cmple = .plain (bit (a.toInt ≤ b.toInt)) := by
  rw [alu, ofTest_decide]

/-! ### Complemented bitwise operations -/

theorem alu_xnor (a b : Word) : alu a b .xnor = .plain (~~~(a ^^^ b)) := rfl
theorem alu_nand (a b : Word) : alu a b .nand = .plain (~~~(a &&& b)) := rfl
theorem alu_nor (a b : Word) : alu a b .nor = .plain (~~~(a ||| b)) := rfl

/-- No instruction selects NAND or NOR (41_alu.md R129). -/
theorem opAlu_ne_nand_nor (o : Op) : opAlu o ≠ some .nand ∧ opAlu o ≠ some .nor := by
  cases o <;> simp [opAlu]

/-! ### Shifts -/

theorem alu_shl (a b : Word) : alu a b .shl = .plain (a <<< (b.toNat % 32)) := by
  rw [alu, shiftAmount_eq]

theorem alu_shr (a b : Word) : alu a b .shr = .plain (a >>> (b.toNat % 32)) := by
  rw [alu, shiftAmount_eq]

theorem alu_sra (a b : Word) : alu a b .sra = .plain (a.sshiftRight (b.toNat % 32)) := by
  rw [alu, shiftAmount_eq]

end Sys2Proof.Machine

namespace Sys2Proof.Proofs

open Sys2Proof.Machine Sys2Proof.Claims

/-- Settles O9: the sign tests are those of the rules, and they hold when the exact result is out of range. -/
theorem aluAddSubtract : Obligations.AluAddSubtract := fun a b =>
  ⟨rfl, rfl, addOverflow_iff a b (a + b), subOverflow_iff a b (a - b), addOverflow_exact a b,
    subOverflow_exact a b, rfl, rfl⟩

/-- Settles O10: the product is the exact one wrapped, which both readings share. -/
theorem aluMultiply : Obligations.AluMultiply := by
  intro a b
  rw [alu_mul]
  exact ⟨rfl, signed_product_eq_unsigned a b, rfl, rfl⟩

/-- Settles O11: the divisor 0 apart, and the one quotient out of range. -/
theorem aluDivide : Obligations.AluDivide := by
  intro a b
  refine ⟨?_, fun hb => ?_, by decide⟩
  · rintro rfl
    exact alu_div_zero a
  · rw [alu_div_of_ne hb]
    exact ⟨rfl, rfl, decide_eq_true_iff, divOverflow_iff a b⟩

/-- Settles O12: a compare answers 1 or 0 by its test, and sets no flag. -/
theorem aluCompare : Obligations.AluCompare := fun a b =>
  ⟨alu_cmpeq a b, alu_cmplt a b, alu_cmple a b⟩

/-- Settles O14: each operation is the complement of another, which acts on every bit alone. -/
theorem aluComplementedBitwise : Obligations.AluComplementedBitwise := by
  intro a b k hk
  refine ⟨?_, ?_, ?_, opAlu_ne_nand_nor⟩
  · rw [alu_xnor, AluResult.plain_r]
    simp only [BitVec.getLsbD_not, BitVec.getLsbD_xor, hk, decide_true, Bool.true_and]
    cases a.getLsbD k <;> simp
  · simp [alu_nand, hk]
  · simp [alu_nor, hk]

/-- Settles O15: a shift by `n` multiplies or divides by 2^n, and depends on `B[4:0]` alone. -/
theorem aluShift : Obligations.AluShift := by
  intro a b
  refine ⟨?_, ?_, ?_, fun c hc op hop => ?_⟩
  · rw [alu_shl, AluResult.plain_r, BitVec.toNat_shiftLeft, Nat.shiftLeft_eq]
  · rw [alu_shr, AluResult.plain_r, BitVec.toNat_ushiftRight, Nat.shiftRight_eq_div_pow]
  · rw [alu_sra, AluResult.plain_r, BitVec.toInt_sshiftRight, Int.shiftRight_eq_div_pow]
    norm_cast
  · simp only [List.mem_cons, List.not_mem_nil, or_false] at hop
    rcases hop with rfl | rfl | rfl
    · rw [alu_shl, alu_shl, hc]
    · rw [alu_shr, alu_shr, hc]
    · rw [alu_sra, alu_sra, hc]

/-- Settles O16: operation by operation, from what each answers. -/
theorem aluFlagsSummary : Obligations.AluFlagsSummary := by
  intro a b op
  cases op with
  | add => simp [alu_add]
  | sub => simp [alu_sub]
  | mul => simp [alu_mul]
  | div => simp [alu_div]
  | _ => simp [alu, AluResult.plain]

end Sys2Proof.Proofs
end

section
/-! PROOFS. What an instruction that retires does to every field, and the operate instructions
(42_operate.md R135 to R164). -/

namespace Sys2Proof.Machine

open Sys2Proof.Claims

/-! ### The end of Execute -/

@[simp] theorem executed_pc (c : Control) (op : Option AluOp) (f : Fields) (s : State) :
    (executed c op f s).pc = s.pc := by simp [executed]
@[simp] theorem executed_regs (c : Control) (op : Option AluOp) (f : Fields) (s : State) :
    (executed c op f s).regs = s.regs := by simp [executed]
@[simp] theorem executed_mem (c : Control) (op : Option AluOp) (f : Fields) (s : State) :
    (executed c op f s).mem = s.mem := by simp [executed]
@[simp] theorem executed_steps (c : Control) (op : Option AluOp) (f : Fields) (s : State) :
    (executed c op f s).steps = s.steps := by simp [executed]
@[simp] theorem executed_status (c : Control) (op : Option AluOp) (f : Fields) (s : State) :
    (executed c op f s).status = s.status := by simp [executed]
@[simp] theorem executed_offset (c : Control) (op : Option AluOp) (f : Fields) (s : State) :
    (executed c op f s).offset = s.pc := by simp [executed]
@[simp] theorem executed_params (c : Control) (op : Option AluOp) (f : Fields) (s : State) :
    (executed c op f s).params = s.params := by simp [executed]

/-- L.RD2 at the end of Decode. -/
def decodedRd2 (c : Control) (f : Fields) (s : State) : Word :=
  if c.ra2Sel.isSome then readPort2 s (s.signals.ra2Sel.apply c.ra2Sel).value f else s.latches.rd2

/-- The ALU's outputs of an instruction, as Execute computes them from the state at its Fetch. -/
def instrOut (c : Control) (op : Option AluOp) (f : Fields) (s : State) : AluResult :=
  executeOut c op (decodeStage c f (fetchStage s))

@[simp] theorem executed_latches (c : Control) (op : Option AluOp) (f : Fields) (s : State) :
    (executed c op f s).latches = { s.latches with
      pc4 := s.pc + 4, lit := sext32 f.lit, ra := f.ra, rb := f.rb, rc := f.rc, rd1 := s.reg f.ra,
      rd2 := decodedRd2 c f s, aluOut := (instrOut c op f s).r } := rfl

@[simp] theorem executed_signals (c : Control) (op : Option AluOp) (f : Fields) (s : State) :
    (executed c op f s).signals = { s.signals with
      ra2Sel := s.signals.ra2Sel.apply c.ra2Sel, aSel := s.signals.aSel.apply c.aSel,
      bSel := s.signals.bSel.apply c.bSel,
      pcSel := s.signals.pcSel.applyPc (zeroFlag (s.reg f.ra) (decodedRd2 c f s)) c.pcSel } := rfl

@[simp] theorem executed_zero (c : Control) (op : Option AluOp) (f : Fields) (s : State) :
    (executed c op f s).zero = zeroFlag (s.reg f.ra) (decodedRd2 c f s) := rfl
@[simp] theorem executed_overflow (c : Control) (op : Option AluOp) (f : Fields) (s : State) :
    (executed c op f s).overflow = (instrOut c op f s).v := rfl
@[simp] theorem executed_divideByZero (c : Control) (op : Option AluOp) (f : Fields) (s : State) :
    (executed c op f s).divideByZero = (instrOut c op f s).dz := rfl

/-! ### The end of an instruction that retires -/

/-- The state after an instruction that retires. -/
def retired (c : Control) (op : Option AluOp) (f : Fields) (s : State) : State :=
  writeBackStage c (memoryDone c (executed c op f s))

/-- An instruction that makes no access retires. -/
theorem runStages_of_noAccess {c : Control} {op : Option AluOp} {f : Fields} {s : State}
    (hmwr : c.mwr = some false) (hmoe : c.moe = some false) :
    runStages c op f s = retired c op f s :=
  runStages_retires fun h => by simp [accesses, hmwr, hmoe] at h

/-- An instruction whose address is admitted retires. -/
theorem runStages_of_admitted {c : Control} {op : Option AluOp} {f : Fields} {s : State}
    (h : accessFault s.params.memSize (instrOut c op f s).r.toNat = none) :
    runStages c op f s = retired c op f s :=
  runStages_retires fun _ => h

/-- What every instruction that retires does besides its effect. -/
theorem retired_retired (c : Control) (op : Option AluOp) (f : Fields) (s : State) :
    Retired s (retired c op f s) := by
  simp [Retired, retired]

theorem retired_pc (c : Control) (op : Option AluOp) (f : Fields) (s : State) :
    (retired c op f s).pc = nextPc (retired c op f s).latches (retired c op f s).signals.pcSel.value := by
  simp [retired]

theorem retired_mem (c : Control) (op : Option AluOp) (f : Fields) (s : State) :
    (retired c op f s).mem =
      if (s.signals.mwr.apply c.mwr).value then
        s.mem.writeWord s.params.littleEndian (instrOut c op f s).r.toNat (decodedRd2 c f s)
      else s.mem := by
  simp [retired]

theorem retired_latches (c : Control) (op : Option AluOp) (f : Fields) (s : State) :
    (retired c op f s).latches = { s.latches with
      pc4 := s.pc + 4, lit := sext32 f.lit, ra := f.ra, rb := f.rb, rc := f.rc, rd1 := s.reg f.ra,
      rd2 := decodedRd2 c f s, aluOut := (instrOut c op f s).r,
      memData := if (s.signals.moe.apply c.moe).value then
          s.mem.readWord s.params.littleEndian (instrOut c op f s).r.toNat
        else s.latches.memData } := by
  simp [retired]

theorem retired_signals (c : Control) (op : Option AluOp) (f : Fields) (s : State) :
    (retired c op f s).signals =
      { pcSel := s.signals.pcSel.applyPc (zeroFlag (s.reg f.ra) (decodedRd2 c f s)) c.pcSel,
        ra2Sel := s.signals.ra2Sel.apply c.ra2Sel, aSel := s.signals.aSel.apply c.aSel,
        bSel := s.signals.bSel.apply c.bSel, wdSel := s.signals.wdSel.apply c.wdSel,
        mwr := s.signals.mwr.apply c.mwr, moe := s.signals.moe.apply c.moe,
        werf := s.signals.werf.apply c.werf, waSel := s.signals.waSel.apply c.waSel } := by
  simp [retired]

theorem retired_zero (c : Control) (op : Option AluOp) (f : Fields) (s : State) :
    (retired c op f s).zero = decide (s.reg f.ra = decodedRd2 c f s) := by
  simp [retired, zeroFlag_eq]

theorem retired_overflow (c : Control) (op : Option AluOp) (f : Fields) (s : State) :
    (retired c op f s).overflow = (instrOut c op f s).v := by
  simp [retired]

theorem retired_divideByZero (c : Control) (op : Option AluOp) (f : Fields) (s : State) :
    (retired c op f s).divideByZero = (instrOut c op f s).dz := by
  simp [retired]

/-- A row that selects the next address goes on to `pc + 4`. -/
theorem retired_pc_of_pc4 {c : Control} (h : c.pcSel = some (.one .pc4)) (op : Option AluOp) (f : Fields)
    (s : State) : (retired c op f s).pc = s.pc + 4 := by
  rw [retired_pc, retired_signals, retired_latches, h]
  rfl

/-- Memory is the same list when the row does not write it. -/
theorem retired_mem_of_noWrite {c : Control} (h : c.mwr = some false) (op : Option AluOp) (f : Fields)
    (s : State) : (retired c op f s).mem = s.mem := by
  simp [retired_mem, h]

theorem retired_sameMemory {c : Control} (h : c.mwr = some false) (op : Option AluOp) (f : Fields)
    (s : State) : SameMemory s (retired c op f s) := fun a => by
  rw [retired_mem_of_noWrite h]

/-- A row that writes Rc writes the value WDSEL selects there and nothing else. -/
theorem retired_writes {c : Control} (hwerf : c.werf = some true) (hwaSel : c.waSel = some .rc)
    (op : Option AluOp) (f : Fields) (s : State) :
    Writes s (retired c op f s) f.rc
      (writeBackData (retired c op f s).latches (s.signals.wdSel.apply c.wdSel).value) := fun r => by
  rw [retired, retired_reg, writeBackStage_latches, executed_latches]
  simp only [hwerf, hwaSel, Signal.apply_some, writeBackReg, true_and]

/-! ### Operate instructions -/

/-- An OP-format instruction does all of `OperatesReg` with the ALU's outputs for its two registers. -/
theorem operateReg_operates (op : AluOp) (s : State) (ra rb rc : RegIdx) :
    ∃ t, operateReg op ra rb rc s = .next t ∧
      OperatesReg s t ra rb rc (alu (s.reg ra) (s.reg rb) op).r (alu (s.reg ra) (s.reg rb) op).v
        (alu (s.reg ra) (s.reg rb) op).dz := by
  refine ⟨_, congrArg Host.Outcome.next (runStages_of_noAccess rfl rfl),
    ?_, retired_sameMemory rfl _ _ s, retired_pc_of_pc4 rfl _ _ s, retired_retired .., retired_zero ..,
    retired_overflow .., retired_divideByZero .., retired_latches .., retired_signals ..⟩
  have hwrites := retired_writes (c := rowOp) rfl rfl (some op) { lit := 0, ra := ra, rb := rb, rc := rc } s
  rwa [retired_latches] at hwrites

/-- An OPC-format instruction does all of `OperatesLit` with the ALU's outputs for its register and its
sign-extended literal. -/
theorem operateLit_operates (op : AluOp) (s : State) (ra : RegIdx) (lit : Literal) (rc : RegIdx) :
    ∃ t, operateLit op ra lit rc s = .next t ∧
      OperatesLit s t ra lit rc (alu (s.reg ra) (sext32 lit) op).r (alu (s.reg ra) (sext32 lit) op).v
        (alu (s.reg ra) (sext32 lit) op).dz := by
  refine ⟨_, congrArg Host.Outcome.next (runStages_of_noAccess rfl rfl),
    ?_, retired_sameMemory rfl _ _ s, retired_pc_of_pc4 rfl _ _ s, retired_retired .., retired_zero ..,
    retired_overflow .., retired_divideByZero .., retired_latches .., retired_signals ..⟩
  have hwrites := retired_writes (c := rowOpc) rfl rfl (some op) { lit := lit, ra := ra, rb := 31, rc := rc } s
  rwa [retired_latches] at hwrites

/-- An instruction is complete as an OP-format one when its meaning is the ALU operation with these outputs. -/
theorem regForm_of_alu {i : RegIdx → RegIdx → RegIdx → Instr} {op : AluOp} {f : Word → Word → Word}
    {v dz : Word → Word → Bool} (halu : ∀ a b, alu a b op = ⟨f a b, v a b, dz a b⟩)
    (hexec : ∀ ra rb rc s, exec (i ra rb rc) s = operateReg op ra rb rc s) : RegForm i f v dz := by
  intro s ra rb rc
  have h := operateReg_operates op s ra rb rc
  rwa [halu, ← hexec] at h

/-- An instruction is complete as an OPC-format one when its meaning is the ALU operation with these outputs. -/
theorem litForm_of_alu {i : RegIdx → Literal → RegIdx → Instr} {op : AluOp} {f : Word → Word → Word}
    {v dz : Word → Word → Bool} (halu : ∀ a b, alu a b op = ⟨f a b, v a b, dz a b⟩)
    (hexec : ∀ ra lit rc s, exec (i ra lit rc) s = operateLit op ra lit rc s) : LitForm i f v dz := by
  intro s ra lit rc
  have h := operateLit_operates op s ra lit rc
  rwa [halu, ← hexec] at h

end Sys2Proof.Machine

namespace Sys2Proof.Proofs

open Sys2Proof.Machine Sys2Proof.Claims

/-- Settles O17: the stages around the ALU's ADD and SUB. -/
theorem addSubtractInstructions : Obligations.AddSubtractInstructions :=
  ⟨regForm_of_alu alu_add fun _ _ _ _ => rfl, regForm_of_alu alu_sub fun _ _ _ _ => rfl,
    litForm_of_alu alu_add fun _ _ _ _ => rfl, litForm_of_alu alu_sub fun _ _ _ _ => rfl⟩

/-- Settles O18: the stages around the ALU's MUL and DIV. -/
theorem multiplyDivideInstructions : Obligations.MultiplyDivideInstructions :=
  ⟨regForm_of_alu alu_mul fun _ _ _ _ => rfl, regForm_of_alu alu_div fun _ _ _ _ => rfl,
    litForm_of_alu alu_mul fun _ _ _ _ => rfl, litForm_of_alu alu_div fun _ _ _ _ => rfl⟩

/-- Settles O19: the stages around the ALU's compares. -/
theorem compareInstructions : Obligations.CompareInstructions :=
  ⟨regForm_of_alu alu_cmpeq fun _ _ _ _ => rfl, regForm_of_alu alu_cmplt fun _ _ _ _ => rfl,
    regForm_of_alu alu_cmple fun _ _ _ _ => rfl, litForm_of_alu alu_cmpeq fun _ _ _ _ => rfl,
    litForm_of_alu alu_cmplt fun _ _ _ _ => rfl, litForm_of_alu alu_cmple fun _ _ _ _ => rfl⟩

/-- Settles O20: the stages around the ALU's bitwise operations. -/
theorem bitwiseInstructions : Obligations.BitwiseInstructions :=
  ⟨regForm_of_alu alu_and fun _ _ _ _ => rfl, regForm_of_alu alu_or fun _ _ _ _ => rfl,
    regForm_of_alu alu_xor fun _ _ _ _ => rfl, regForm_of_alu alu_xnor fun _ _ _ _ => rfl,
    litForm_of_alu alu_and fun _ _ _ _ => rfl, litForm_of_alu alu_or fun _ _ _ _ => rfl,
    litForm_of_alu alu_xor fun _ _ _ _ => rfl, litForm_of_alu alu_xnor fun _ _ _ _ => rfl⟩

/-- Settles O21: the stages around the ALU's shifts. -/
theorem shiftInstructions : Obligations.ShiftInstructions :=
  ⟨regForm_of_alu alu_shl fun _ _ _ _ => rfl, regForm_of_alu alu_shr fun _ _ _ _ => rfl,
    regForm_of_alu alu_sra fun _ _ _ _ => rfl, litForm_of_alu alu_shl fun _ _ _ _ => rfl,
    litForm_of_alu alu_shr fun _ _ _ _ => rfl, litForm_of_alu alu_sra fun _ _ _ _ => rfl⟩

end Sys2Proof.Proofs
end

section
/-! PROOFS. Words in memory (20_memory.md R57, R58, R60), loads and stores that complete (43_load_store.md),
and control transfer (44_control_transfer.md, 45_halt.md). -/

namespace Sys2Proof.Machine

open Sys2Proof.Claims

/-! ### Words -/

/-- What reading a word at the address of a word write gives, in any two byte orders. -/
theorem Memory.readWord_writeWord {m : Memory} (hm : m.wf = true) (le le' : Bool) (a : Nat) (v : Word) :
    (m.writeWord le a v).readWord le' a =
      wordOfBytes le' (byteOfWord le v 0) (byteOfWord le v 1) (byteOfWord le v 2) (byteOfWord le v 3) := by
  simp [Memory.readWord, Memory.readByte_writeWord hm]

/-- Composing a word from bytes laid out in the other order reverses its bytes. -/
theorem wordOfBytes_byteOfWord_not (le : Bool) (v : Word) :
    wordOfBytes le (byteOfWord (!le) v 0) (byteOfWord (!le) v 1) (byteOfWord (!le) v 2)
        (byteOfWord (!le) v 3) =
      v.extractLsb' 0 8 ++ v.extractLsb' 8 8 ++ v.extractLsb' 16 8 ++ v.extractLsb' 24 8 := by
  cases le <;> rfl

theorem byteOfWord_big {k : Nat} (hk : k < 4) (v : Word) :
    byteOfWord false v k = v.extractLsb' (24 - 8 * k) 8 := by
  rw [show 24 - 8 * k = 8 * (3 - k) by omega]
  rfl

theorem byteOfWord_little (v : Word) (k : Nat) : byteOfWord true v k = v.extractLsb' (8 * k) 8 := rfl

/-- The four bytes of a word write. -/
theorem Memory.readByte_writeWord_inside {m : Memory} (hm : m.wf = true) (le : Bool) (a : Nat) (v : Word)
    {k : Nat} (hk : k < 4) : (m.writeWord le a v).readByte (a + k) = byteOfWord le v k := by
  rw [Memory.readByte_writeWord hm, if_pos (by omega), Nat.add_sub_cancel_left]

/-- The bytes outside a word write. -/
theorem Memory.readByte_writeWord_outside {m : Memory} (hm : m.wf = true) (le : Bool) {a b : Nat}
    (hb : b < a ∨ a + 4 ≤ b) (v : Word) : (m.writeWord le a v).readByte b = m.readByte b := by
  rw [Memory.readByte_writeWord hm, if_neg (by omega)]

/-- A store's byte in the terms of the statements. -/
theorem byteOfWord_eq_storedByte (s : State) (v : Word) {k : Nat} (hk : k < 4) :
    byteOfWord s.params.littleEndian v k = storedByte s v k := by
  cases h : s.params.littleEndian with
  | false => simp [storedByte, h, byteOfWord_big hk]
  | true => simp [storedByte, h, byteOfWord_little]

/-- A word read in the terms of the statements. -/
theorem readWord_eq_wordAt (s : State) (a : Nat) :
    s.mem.readWord s.params.littleEndian a = wordAt s a := rfl

/-- An access is admitted exactly when the test of R60 finds no fault. -/
theorem admitted_iff {s : State} {a : Word} :
    Admitted s a ↔ accessFault s.params.memSize a.toNat = none := by
  rcases accessFault_cases s.params.memSize a.toNat with ⟨h, h1, h2⟩ | ⟨h, h1⟩ | ⟨h, h1, h2⟩
  · simp [h, Admitted, h1, h2]
  · simp [h, Admitted, h1]
  · simp [h, Admitted, h2]

/-- The fault of an access that is not admitted. -/
theorem accessFault_of_not_admitted {s : State} {a : Word} (h : ¬ Admitted s a) :
    accessFault s.params.memSize a.toNat = some (faultKind a) := by
  rcases accessFault_cases s.params.memSize a.toNat with ⟨hf, -⟩ | ⟨hf, h1⟩ | ⟨hf, h1, -⟩
  · exact absurd (admitted_iff.2 hf) h
  · rw [hf, faultKind, if_pos h1]
  · rw [hf, faultKind, if_neg (not_not.2 h1)]

/-! ### Registers and addresses -/

/-- A row that writes no register keeps them all. -/
theorem retired_sameRegs {c : Control} (h : c.werf = some false) (op : Option AluOp) (f : Fields)
    (s : State) : SameRegs s (retired c op f s) := fun r => by
  simp [retired, retired_reg, h]


/-- A sum with 0 is exact. -/
theorem alu_add_zero (a : Word) : alu a 0 .add = .plain a := by
  simp [alu, addOverflow_zero, AluResult.plain]

/-- The sum of a register and a sign-extended literal, with its overflow on the literal's own value. -/
theorem alu_add_literal (a : Word) (lit : Literal) :
    alu a (sext32 lit) .add =
      { r := a + lit.signExtend 32, v := outside32 (a.toInt + lit.toInt), dz := false } := by
  rw [alu_add, sext32_toInt, sext32]

theorem instrOut_rowLd (ra rb rc : RegIdx) (lit : Literal) (s : State) :
    instrOut rowLd (some .add) { lit := lit, ra := ra, rb := rb, rc := rc } s =
      { r := s.reg ra + lit.signExtend 32, v := outside32 ((s.reg ra).toInt + lit.toInt), dz := false } :=
  alu_add_literal (s.reg ra) lit

theorem instrOut_rowSt (ra rb rc : RegIdx) (lit : Literal) (s : State) :
    instrOut rowSt (some .add) { lit := lit, ra := ra, rb := rb, rc := rc } s =
      { r := s.reg ra + lit.signExtend 32, v := outside32 ((s.reg ra).toInt + lit.toInt), dz := false } :=
  alu_add_literal (s.reg ra) lit

theorem instrOut_rowLdr (ra rc : RegIdx) (lit : Literal) (s : State) :
    instrOut rowLdr (some .add) { lit := lit, ra := ra, rb := 31, rc := rc } s =
      .plain (s.pc + 4 + 4 * lit.signExtend 32) := alu_add_zero _

/-- The row of a conditional branch: BEQ's and BNE's differ in the pair of PCSEL alone. -/
def branchRow (ne eq : PcSel) : Control := { rowBeq with pcSel := some (.pair ne eq) }

theorem instrOut_branchRow (ne eq : PcSel) (ra rc : RegIdx) (lit : Literal) (s : State) :
    instrOut (branchRow ne eq) (some .add) { lit := lit, ra := ra, rb := 31, rc := rc } s =
      .plain (s.pc + 4 + 4 * lit.signExtend 32) := alu_add_zero _

/-- JMP's mask rounds an address down to a multiple of 4. -/
theorem and_mask_eq (a : Word) : a &&& 0xFFFFFFFC = BitVec.ofNat 32 (a.toNat / 4 * 4) := by
  have hmask : a &&& (0xFFFFFFFC : Word) = a >>> 2 <<< 2 :=
    (BitVec.shiftLeft_ushiftRight (x := a) (n := 2)).symm
  rw [hmask]
  apply BitVec.eq_of_toNat_eq
  rw [BitVec.toNat_shiftLeft, BitVec.toNat_ushiftRight, Nat.shiftLeft_eq, Nat.shiftRight_eq_div_pow,
    BitVec.toNat_ofNat]

/-! ### Loads -/

/-- A load that retires does all of `Loads` at the address the ALU computes. -/
theorem retired_loads {c : Control} (hpc : c.pcSel = some (.one .pc4)) (hwd : c.wdSel = some .memData)
    (hmwr : c.mwr = some false) (hmoe : c.moe = some true) (hwerf : c.werf = some true)
    (hwaSel : c.waSel = some .rc) {op : Option AluOp} {f : Fields} {s : State}
    (hdz : (instrOut c op f s).dz = false) :
    Loads s (retired c op f s) f.rc (instrOut c op f s).r := by
  refine ⟨?_, retired_sameMemory hmwr op f s, retired_pc_of_pc4 hpc op f s, retired_retired ..,
    (retired_divideByZero ..).trans hdz⟩
  have hwrites := retired_writes hwerf hwaSel op f s
  rwa [retired_latches, hwd, hmoe] at hwrites

/-! ### Control transfer -/

/-- A control transfer that retires does all of `Transfers`, its target being the next pc. -/
theorem retired_transfers {c : Control} (hwd : c.wdSel = some .pc4) (hmwr : c.mwr = some false)
    (hwerf : c.werf = some true) (hwaSel : c.waSel = some .rc) {op : Option AluOp} {f : Fields} {s : State}
    {r : Word} (hout : instrOut c op f s = .plain r) :
    Transfers s (retired c op f s) f.rc (retired c op f s).pc := by
  refine ⟨?_, retired_sameMemory hmwr op f s, rfl, retired_retired .., ?_, ?_⟩
  · have hwrites := retired_writes hwerf hwaSel op f s
    rwa [retired_latches, hwd] at hwrites
  · rw [retired_overflow, hout]
    rfl
  · rw [retired_divideByZero, hout]
    rfl

/-- A conditional branch completes when the pair of PCSEL selects the target exactly when it is taken. -/
theorem branchForm_of_row {i : RegIdx → Literal → RegIdx → Instr} {taken : Word → Bool} {ne eq : PcSel}
    (hsel : ∀ a : Word, (if zeroFlag a 0 then eq else ne) = if taken a then .aluOut else .pc4)
    (hexec : ∀ ra lit rc s, exec (i ra lit rc) s =
      .next (runStages (branchRow ne eq) (some .add) { lit := lit, ra := ra, rb := 31, rc := rc } s)) :
    BranchForm i taken := by
  intro s ra lit rc
  have hout := instrOut_branchRow ne eq ra rc lit s
  have hlatches := retired_latches (branchRow ne eq) (some .add)
    { lit := lit, ra := ra, rb := 31, rc := rc } s
  have hsignals := retired_signals (branchRow ne eq) (some .add)
    { lit := lit, ra := ra, rb := 31, rc := rc } s
  rw [hout] at hlatches
  have hpcSel : (retired (branchRow ne eq) (some .add) { lit := lit, ra := ra, rb := 31, rc := rc }
      s).signals.pcSel = driven (if taken (s.reg ra) then .aluOut else .pc4) := by
    rw [hsignals, ← hsel]
    rfl
  have hpc : (retired (branchRow ne eq) (some .add) { lit := lit, ra := ra, rb := 31, rc := rc } s).pc =
      if taken (s.reg ra) then s.pc + 4 + 4 * lit.signExtend 32 else s.pc + 4 := by
    rw [retired_pc, hpcSel, hlatches]
    cases taken (s.reg ra) <;> rfl
  refine ⟨_, (hexec ra lit rc s).trans (congrArg _ (runStages_of_noAccess rfl rfl)), ?_,
    retired_zero .., hlatches, ?_⟩
  · have htransfers := retired_transfers rfl rfl rfl rfl hout
    rwa [hpc] at htransfers
  · rw [← hpcSel, hsignals]
    rfl

end Sys2Proof.Machine

namespace Sys2Proof.Proofs

open Sys2Proof.Machine Sys2Proof.Claims

/-- Settles O26: the byte law of a word write, composed again in either order. -/
theorem wordWriteThenRead : Obligations.WordWriteThenRead := by
  intro le m a v hm
  refine ⟨?_, ?_, fun k hk => ?_, fun k hk => ?_, fun b hb => ?_⟩
  · rw [Memory.readWord_writeWord hm, wordOfBytes_byteOfWord]
  · rw [Memory.readWord_writeWord hm, wordOfBytes_byteOfWord_not]
  · rw [Memory.readByte_writeWord_inside hm false a v hk, byteOfWord_big hk]
  · rw [Memory.readByte_writeWord_inside hm true a v hk, byteOfWord_little]
  · exact Memory.readByte_writeWord_outside hm le hb v

/-- Settles O22: an admitted load retires, and the ALU's sum is its address. -/
theorem loadWordCompletes : Obligations.LoadWordCompletes := by
  intro s ra lit rc ea hea
  have hout := instrOut_rowLd ra 31 rc lit s
  have hloads := retired_loads (c := rowLd) rfl rfl rfl rfl rfl rfl (congrArg AluResult.dz hout)
  have hlatches := retired_latches rowLd (some .add) { lit := lit, ra := ra, rb := 31, rc := rc } s
  rw [hout] at hloads hlatches
  refine ⟨_, congrArg Host.Outcome.next (runStages_of_admitted ?_), hloads, ?_, retired_zero ..,
    hlatches, retired_signals ..⟩
  · rw [hout]
    exact admitted_iff.1 hea
  · rw [retired_overflow, hout]

/-- Settles O23: as for LD, with the relative target as the address. -/
theorem loadRelativeCompletes : Obligations.LoadRelativeCompletes := by
  intro s ra lit rc ea hea
  have hout := instrOut_rowLdr ra rc lit s
  have hloads := retired_loads (c := rowLdr) rfl rfl rfl rfl rfl rfl (congrArg AluResult.dz hout)
  have hlatches := retired_latches rowLdr (some .add) { lit := lit, ra := ra, rb := 31, rc := rc } s
  rw [hout] at hloads hlatches
  refine ⟨_, congrArg Host.Outcome.next (runStages_of_admitted ?_), hloads, ?_, retired_zero ..,
    hlatches, retired_signals ..⟩
  · rw [hout]
    exact admitted_iff.1 hea
  · rw [retired_overflow, hout]
    rfl

/-- Settles O24: an admitted store retires, and the byte law of a word write gives its memory. -/
theorem storeWordCompletes : Obligations.StoreWordCompletes := by
  intro s rc lit ra ea hwf hea
  have hout := instrOut_rowSt ra 31 rc lit s
  have hmem := retired_mem rowSt (some .add) { lit := lit, ra := ra, rb := 31, rc := rc } s
  have hlatches := retired_latches rowSt (some .add) { lit := lit, ra := ra, rb := 31, rc := rc } s
  rw [hout] at hmem hlatches
  refine ⟨_, congrArg Host.Outcome.next (runStages_of_admitted ?_), fun k hk => ?_, fun b hb => ?_,
    retired_sameRegs rfl _ _ s, retired_pc_of_pc4 rfl _ _ s, retired_retired .., ?_, ?_, retired_zero ..,
    hlatches, retired_signals ..⟩
  · rw [hout]
    exact admitted_iff.1 hea
  · rw [hmem]
    exact (Memory.readByte_writeWord_inside hwf _ ea.toNat (s.reg rc) hk).trans
      (byteOfWord_eq_storedByte s (s.reg rc) hk)
  · rw [hmem]
    exact Memory.readByte_writeWord_outside hwf _ hb (s.reg rc)
  · rw [retired_overflow, hout]
  · rw [retired_divideByZero, hout]

/-- Settles O28: BEQ's pair selects the target when Z is true, BNE's when it is false, and Z tests `x[Ra]`
against R31. -/
theorem conditionalBranches : Obligations.ConditionalBranches := by
  refine ⟨branchForm_of_row (ne := .pc4) (eq := .aluOut) (fun a => ?_) fun _ _ _ _ => rfl,
    branchForm_of_row (ne := .aluOut) (eq := .pc4) (fun a => ?_) fun _ _ _ _ => rfl⟩
  · rw [zeroFlag_eq]
  · by_cases h : a = 0 <;> simp [zeroFlag_eq, h]

/-- Settles O29: the ALU does not run, and the next pc is the masked register. -/
theorem jumpCompletes : Obligations.JumpCompletes := by
  intro s ra rc
  have htransfers := retired_transfers (c := rowJmp) (op := none) (s := s)
    (f := { lit := 0, ra := ra, rb := 31, rc := rc }) rfl rfl rfl rfl rfl
  have hpc : (retired rowJmp none { lit := 0, ra := ra, rb := 31, rc := rc } s).pc =
      BitVec.ofNat 32 ((s.reg ra).toNat / 4 * 4) := by
    rw [← and_mask_eq, retired_pc, retired_latches, retired_signals]
    rfl
  rw [hpc] at htransfers
  exact ⟨_, congrArg Host.Outcome.next (runStages_of_noAccess rfl rfl), htransfers, retired_zero ..,
    retired_latches .., retired_signals ..⟩

/-- Settles O30: HALT's stop, field by field. -/
theorem haltStopsTheRun : Obligations.HaltStopsTheRun := fun s =>
  ⟨haltStage s, rfl, haltStage_status s, State.reg_congr (haltStage_regs s), fun a => by rw [haltStage_mem],
    haltStage_pc s, haltStage_trace s, haltStage_steps s, haltStage_signals s, haltStage_zero s,
    haltStage_overflow s, haltStage_divideByZero s, haltStage_stage s, haltStage_params s,
    haltStage_offset s, haltStage_latches s⟩

end Sys2Proof.Proofs
end

section
/-! PROOFS. What holds of every instruction: its Frames (40_pipeline.md R108, R109, 60_exceptions.md R186),
the register and the memory it writes (R104, R107), and the stage in which each signal changes
(10_state.md R37). -/

namespace Sys2Proof.Machine

open Sys2Proof.Claims

/-! ### The Frames of Fetch, Decode and Execute -/

/-- The Frame of Fetch. -/
def fetchFrame (s : State) : Frame := s.openInstr.frame .fetch false

/-- The Frame of Decode, from the state at Fetch. -/
def decodeFrame (c : Control) (f : Fields) (s : State) : Frame :=
  (decodeUpdate c f (fetchStage s)).frame .decode false

/-- The Frame of Execute, from the state at Fetch. -/
def executeFrame (c : Control) (op : Option AluOp) (f : Fields) (s : State) : Frame :=
  (executeUpdate c op (decodeStage c f (fetchStage s))).frame .execute false

theorem executed_trace (c : Control) (op : Option AluOp) (f : Fields) (s : State) :
    (executed c op f s).trace = s.trace ++ [fetchFrame s, decodeFrame c f s, executeFrame c op f s] := by
  simp [executed, fetchFrame, decodeFrame, executeFrame]

theorem fetchFrame_showsRegs (s : State) : ShowsRegs (fetchFrame s) s :=
  State.frame_showsRegs rfl _ _

theorem decodeFrame_showsRegs (c : Control) (f : Fields) (s : State) : ShowsRegs (decodeFrame c f s) s :=
  State.frame_showsRegs (by simp) _ _

theorem executeFrame_showsRegs (c : Control) (op : Option AluOp) (f : Fields) (s : State) :
    ShowsRegs (executeFrame c op f s) s :=
  State.frame_showsRegs (by simp) _ _

/-! ### An instruction that a MemoryFault stops -/

/-- The state after a MemoryFault of the given kind. -/
def faulted (c : Control) (op : Option AluOp) (f : Fields) (kind : AccessKind) (s : State) : State :=
  (memorySignals c (executed c op f s)).takeFault .memory (.memoryFault kind (executed c op f s).latches.aluOut)

@[simp] theorem faulted_regs (c : Control) (op : Option AluOp) (f : Fields) (kind : AccessKind) (s : State) :
    (faulted c op f kind s).regs = s.regs := by simp [faulted]
@[simp] theorem faulted_pc (c : Control) (op : Option AluOp) (f : Fields) (kind : AccessKind) (s : State) :
    (faulted c op f kind s).pc = s.pc := by simp [faulted]
@[simp] theorem faulted_mem (c : Control) (op : Option AluOp) (f : Fields) (kind : AccessKind) (s : State) :
    (faulted c op f kind s).mem = s.mem := by simp [faulted]
@[simp] theorem faulted_steps (c : Control) (op : Option AluOp) (f : Fields) (kind : AccessKind) (s : State) :
    (faulted c op f kind s).steps = s.steps := by simp [faulted]
@[simp] theorem faulted_stage (c : Control) (op : Option AluOp) (f : Fields) (kind : AccessKind) (s : State) :
    (faulted c op f kind s).stage = .memory := by simp [faulted, executed]
@[simp] theorem faulted_offset (c : Control) (op : Option AluOp) (f : Fields) (kind : AccessKind) (s : State) :
    (faulted c op f kind s).offset = s.pc := by simp [faulted]
@[simp] theorem faulted_params (c : Control) (op : Option AluOp) (f : Fields) (kind : AccessKind) (s : State) :
    (faulted c op f kind s).params = s.params := by simp [faulted]
@[simp] theorem faulted_status (c : Control) (op : Option AluOp) (f : Fields) (kind : AccessKind) (s : State) :
    (faulted c op f kind s).status = .stopped (.memoryFault kind (instrOut c op f s).r) := by simp [faulted]
@[simp] theorem faulted_latches (c : Control) (op : Option AluOp) (f : Fields) (kind : AccessKind) (s : State) :
    (faulted c op f kind s).latches = (executed c op f s).latches := by simp [faulted]
@[simp] theorem faulted_signals (c : Control) (op : Option AluOp) (f : Fields) (kind : AccessKind) (s : State) :
    (faulted c op f kind s).signals = (memorySignals c (executed c op f s)).signals := by simp [faulted]
@[simp] theorem faulted_zero (c : Control) (op : Option AluOp) (f : Fields) (kind : AccessKind) (s : State) :
    (faulted c op f kind s).zero = zeroFlag (s.reg f.ra) (decodedRd2 c f s) := by simp [faulted]
@[simp] theorem faulted_overflow (c : Control) (op : Option AluOp) (f : Fields) (kind : AccessKind) (s : State) :
    (faulted c op f kind s).overflow = (instrOut c op f s).v := by simp [faulted]
@[simp] theorem faulted_divideByZero (c : Control) (op : Option AluOp) (f : Fields) (kind : AccessKind) (s : State) :
    (faulted c op f kind s).divideByZero = (instrOut c op f s).dz := by simp [faulted]

/-- The marked Frame of Memory at a fault. -/
def faultFrame (c : Control) (op : Option AluOp) (f : Fields) (s : State) : Frame :=
  (memorySignals c (executed c op f s)).frame .memory true

theorem faulted_trace (c : Control) (op : Option AluOp) (f : Fields) (kind : AccessKind) (s : State) :
    (faulted c op f kind s).trace =
      s.trace ++ [fetchFrame s, decodeFrame c f s, executeFrame c op f s, faultFrame c op f s] := by
  simp [faulted, faultFrame, executed_trace]

theorem faultFrame_showsRegs (c : Control) (op : Option AluOp) (f : Fields) (s : State) :
    ShowsRegs (faultFrame c op f s) s :=
  State.frame_showsRegs (by simp) _ _

/-- Each of the four Frames of a MemoryFault shows the state at the end of its stage. -/
theorem faulted_frames (c : Control) (op : Option AluOp) (f : Fields) (kind : AccessKind) (s : State) :
    FaultFrames s (faulted c op f kind s) (fetchFrame s) (decodeFrame c f s) (executeFrame c op f s)
      (faultFrame c op f s) := by
  refine ⟨rfl, rfl, rfl, ?_, ?_, ?_, ?_, rfl, ?_, ?_, ?_, rfl, rfl, rfl, rfl⟩
  · simp only [List.mem_cons, List.not_mem_nil, or_false, forall_eq_or_imp, forall_eq,
      fetchFrame_showsRegs, decodeFrame_showsRegs, executeFrame_showsRegs, faultFrame_showsRegs]
    simp [fetchFrame, decodeFrame, executeFrame, faultFrame]
  all_goals simp [fetchFrame, decodeFrame, executeFrame, faultFrame, faulted, executed]

/-- An instruction that accesses an address that is not admitted does all of `MemoryFaults`, with the latches at
the end of Execute and the signals after Memory's defaults. -/
theorem runStages_memoryFaults {c : Control} {op : Option AluOp} {f : Fields} {s : State}
    (haccess : accesses c (executed c op f s) = true) (hdz : (instrOut c op f s).dz = false)
    (h : ¬ Admitted s (instrOut c op f s).r) :
    MemoryFaults s (runStages c op f s) (executed c op f s).latches
      (memorySignals c (executed c op f s)).signals (instrOut c op f s).v := by
  have hrun : runStages c op f s = faulted c op f (faultKind (instrOut c op f s).r) s :=
    runStages_faults haccess (accessFault_of_not_admitted h)
  rw [hrun]
  refine ⟨?_, State.reg_congr (faulted_regs ..), fun a => by rw [faulted_mem], faulted_pc .., faulted_offset ..,
    faulted_steps .., faulted_params .., faulted_latches .., faulted_signals .., ?_, faulted_overflow ..,
    (faulted_divideByZero ..).trans hdz, _, _, _, _, faulted_trace .., faulted_frames ..⟩
  · rw [faulted_status, executed_latches]
  · rw [faulted_zero, zeroFlag_eq, executed_latches]

/-! ### An instruction that retires -/

/-- The Frame of Memory when it goes on. -/
def memoryFrame (c : Control) (op : Option AluOp) (f : Fields) (s : State) : Frame :=
  (memoryAccess (s.signals.mwr.apply c.mwr).value (s.signals.moe.apply c.moe).value
    (memorySignals c (executed c op f s))).frame .memory false

/-- The Frame of WriteBack. -/
def writeBackFrame (c : Control) (op : Option AluOp) (f : Fields) (s : State) : Frame :=
  (advancePc (registerWrite (writeBackSignals c (memoryDone c (executed c op f s))))).frame .writeBack false

theorem retired_trace (c : Control) (op : Option AluOp) (f : Fields) (s : State) :
    (retired c op f s).trace =
      s.trace ++ [fetchFrame s, decodeFrame c f s, executeFrame c op f s, memoryFrame c op f s,
        writeBackFrame c op f s] := by
  simp [retired, executed_trace, memoryFrame, writeBackFrame]

theorem memoryFrame_showsRegs (c : Control) (op : Option AluOp) (f : Fields) (s : State) :
    ShowsRegs (memoryFrame c op f s) s :=
  State.frame_showsRegs (by simp) _ _

theorem writeBackFrame_showsRegs (c : Control) (op : Option AluOp) (f : Fields) (s : State) :
    ShowsRegs (writeBackFrame c op f s) (retired c op f s) :=
  State.frame_showsRegs (by simp [retired]) _ _

/-- Each of the five Frames of an instruction that retires shows the state at the end of its stage. -/
theorem retired_frames (c : Control) (op : Option AluOp) (f : Fields) (s : State) :
    FiveFrames s (retired c op f s) (fetchFrame s) (decodeFrame c f s) (executeFrame c op f s)
      (memoryFrame c op f s) (writeBackFrame c op f s) := by
  refine ⟨rfl, ?_, ?_, ⟨fetchFrame_showsRegs s, decodeFrame_showsRegs c f s, executeFrame_showsRegs c op f s,
    memoryFrame_showsRegs c op f s, writeBackFrame_showsRegs c op f s⟩, ?_, ?_, ?_, ?_, ?_, rfl, ?_, ?_, ?_,
    ?_, rfl, rfl, rfl, rfl, rfl⟩
  all_goals
    simp [fetchFrame, decodeFrame, executeFrame, memoryFrame, writeBackFrame, retired, executed]

/-! ### Every instruction's outcome -/

/-- Everything an instruction can do: HALT's stop, a stop by a MemoryFault at an address that is not admitted,
or it retires. -/
theorem exec_cases {i : Instr} {s t : State} (h : exec i s = .next t) :
    (i = .halt ∧ t = haltStage s) ∨
    (i.op ≠ .halt ∧ ∃ kind, t = faulted (opControl i.op) (opAlu i.op) i.fields kind s) ∨
    (i.op ≠ .halt ∧ t = retired (opControl i.op) (opAlu i.op) i.fields s) := by
  rw [exec_eq] at h
  injection h with h
  by_cases hi : i.op = .halt
  · rw [if_pos hi] at h
    exact .inl ⟨Instr.eq_halt_of_op hi, h.symm⟩
  · rw [if_neg hi] at h
    rcases runStages_cases (opControl i.op) (opAlu i.op) i.fields s with ⟨kind, -, -, hstop⟩ | ⟨-, hretire⟩
    · exact .inr (.inl ⟨hi, kind, h.symm.trans hstop⟩)
    · exact .inr (.inr ⟨hi, h.symm.trans hretire⟩)

/-- A row of the table writes Rc or nothing, when WASEL selected Rc before. -/
theorem retired_reg_of_ne {o : Op} (ho : o ≠ .halt) {s : State} (hwaSel : s.signals.waSel.value = .rc)
    (op : Option AluOp) {f : Fields} {r : RegIdx} (hr : r ≠ f.rc) :
    (retired (opControl o) op f s).reg r = s.reg r := by
  rw [retired, retired_reg, if_neg]
  rintro ⟨-, hdst, -⟩
  rw [waSel_stays_rc ho hwaSel, executed_latches] at hdst
  exact hr hdst

/-- A row of the table keeps WASEL selecting Rc. -/
theorem retired_waSel {o : Op} (ho : o ≠ .halt) {s : State} (hwaSel : s.signals.waSel.value = .rc)
    (op : Option AluOp) (f : Fields) :
    (retired (opControl o) op f s).signals.waSel.value = .rc := by
  rw [retired_signals]
  exact waSel_stays_rc ho hwaSel

/-! ### Signals -/

/-- PCSEL's default with its pair resolved by the two register reads. -/
def resolvedPc (rd1 rd2 : Word) : Option PcDefault → Option PcSel
  | some (.one v) => some v
  | some (.pair ne eq) => some (if rd1 = rd2 then eq else ne)
  | none => none

/-- PCSEL's default with its pair resolved is an ordinary default. -/
theorem Signal.applyPc_eq_afterDefault (g : Signal PcSel) (rd1 rd2 : Word) (d : Option PcDefault) :
    g.applyPc (zeroFlag rd1 rd2) d =
      afterDefault (resolvedPc rd1 rd2 d) g := by
  rw [zeroFlag_eq]
  match d with
  | none => rfl
  | some (.one v) => rfl
  | some (.pair ne eq) => simp [afterDefault, resolvedPc]

/-- Memory applies the defaults of its two signals, whether it goes on or stops. -/
theorem memoryStage_signals {c : Control} {s t : State}
    (h : memoryStage c s = .done t ∨ memoryStage c s = .stopped t) :
    t.signals = { s.signals with
      mwr := afterDefault c.mwr s.signals.mwr, moe := afterDefault c.moe s.signals.moe } := by
  rcases h with hdone | hstop
  · rw [eq_memoryDone_of_done hdone, memoryDone_signals, memorySignals_signals,
      Signal.apply_eq_afterDefault, Signal.apply_eq_afterDefault]
  · obtain ⟨kind, rfl⟩ := eq_takeFault_of_stopped hstop
    rw [State.takeFault_signals, memorySignals_signals, Signal.apply_eq_afterDefault,
      Signal.apply_eq_afterDefault]

end Sys2Proof.Machine

namespace Sys2Proof.Proofs

open Sys2Proof.Machine Sys2Proof.Claims

/-- Settles O25: Memory makes the access LD's, ST's and LDR's rows ask for, and its address is the ALU's sum. -/
theorem unadmittedAccessFaults : Obligations.UnadmittedAccessFaults := by
  intro s ra lit rc latched selected
  constructor
  · intro ea v hea
    have hld := instrOut_rowLd ra 31 rc lit s
    have hst := instrOut_rowSt ra 31 rc lit s
    have hldFaults := runStages_memoryFaults (c := rowLd) rfl (congrArg AluResult.dz hld) (by rwa [hld])
    have hstFaults := runStages_memoryFaults (c := rowSt) rfl (congrArg AluResult.dz hst) (by rwa [hst])
    rw [executed_latches, hld] at hldFaults
    rw [executed_latches, hst] at hstFaults
    exact ⟨⟨_, rfl, hldFaults⟩, _, rfl, hstFaults⟩
  · intro ea hea
    have hldr := instrOut_rowLdr ra rc lit s
    have hldrFaults := runStages_memoryFaults (c := rowLdr) rfl (congrArg AluResult.dz hldr) (by rwa [hldr])
    rw [executed_latches, hldr] at hldrFaults
    exact ⟨_, rfl, hldrFaults⟩

/-- Settles O31: WriteBack is the only stage that writes a register, and its destination is Rc. -/
theorem onlyRcIsWritten : Obligations.OnlyRcIsWritten := by
  intro i s t h hwaSel
  rcases exec_cases h with ⟨-, rfl⟩ | ⟨hi, kind, rfl⟩ | ⟨hi, rfl⟩
  · exact ⟨fun r _ => State.reg_congr (haltStage_regs s) r, rfl, hwaSel⟩
  · exact ⟨fun r _ => State.reg_congr (faulted_regs ..) r, rfl, hwaSel⟩
  · exact ⟨fun r hr => retired_reg_of_ne hi hwaSel _ hr, rfl, retired_waSel hi hwaSel ..⟩

/-- Settles O32: MWR's default is 1 in ST's row alone. -/
theorem onlyStoreWritesMemory : Obligations.OnlyStoreWritesMemory := by
  intro i s t h hst
  rcases exec_cases h with ⟨-, rfl⟩ | ⟨hi, kind, rfl⟩ | ⟨hi, rfl⟩
  · exact haltStage_mem s
  · exact faulted_mem ..
  · have hmwr := (opControl_cases hi).2.2.1
    rw [decide_eq_false hst] at hmwr
    exact retired_mem_of_noWrite hmwr ..

/-- Settles O34: only an instruction that retires counts a step. -/
theorem retiringInstructionFrames : Obligations.RetiringInstructionFrames := by
  intro i s t h hsteps
  rcases exec_cases h with ⟨-, rfl⟩ | ⟨hi, kind, rfl⟩ | ⟨hi, rfl⟩
  · rw [haltStage_steps] at hsteps
    omega
  · rw [faulted_steps] at hsteps
    omega
  · exact ⟨_, _, _, _, _, retired_trace .., retired_frames ..⟩

/-- Settles O36: each stage applies the defaults of the signals it owns. -/
theorem signalsChangeInTheirStageAlone : Obligations.SignalsChangeInTheirStageAlone := by
  intro c op f s
  refine ⟨fetchStage_signals s, ?_, ?_, fun _ => memoryStage_signals,
    writeBackStage_signals_eq_afterDefault c s⟩
  · rw [decodeStage_signals, decodeUpdate_signals, Signal.apply_eq_afterDefault]
  · rw [executeStage_signals, executeUpdate_signals, Signal.apply_eq_afterDefault,
      Signal.apply_eq_afterDefault, Signal.applyPc_eq_afterDefault]
    rfl

end Sys2Proof.Proofs
end

section
/-! PROOFS. Steps (40_pipeline.md R101, R111, 60_exceptions.md R186 to R190, R200): what a step at Fetch does
case by case, and the controller run one stage at a time (10_state.md R43). -/

namespace Sys2Proof.Machine

open Sys2Proof.Claims

/-! ### Fetch -/

/-- An admitted fetch of a word that decodes reads the instruction and latches the word. -/
theorem fetchInstr_of_ok {s : State} {i : Instr} (hsteps : s.steps ≠ s.params.maxStep)
    (hpc : Admitted s s.pc) (hi : decodeWord (wordAt s s.pc.toNat) = .ok i) :
    fetchInstr s = .instr i (s.latchIr (wordAt s s.pc.toNat)) := by
  rw [← readWord_eq_wordAt] at hi
  simp only [fetchInstr, if_neg hsteps, admitted_iff.1 hpc, hi]
  rfl

/-- An admitted fetch of a word that does not decode stops with one marked Frame. -/
theorem fetchInstr_of_error {s : State} {e : DecodeError} (hsteps : s.steps ≠ s.params.maxStep)
    (hpc : Admitted s s.pc) (he : decodeWord (wordAt s s.pc.toNat) = .error e) :
    fetchInstr s = .stopped ((s.latchIr (wordAt s s.pc.toNat)).openInstr.takeFault .fetch
      (.illegalOpcode s.pc (wordAt s s.pc.toNat))) := by
  rw [← readWord_eq_wordAt] at he
  simp only [fetchInstr, if_neg hsteps, admitted_iff.1 hpc, he]
  rfl

/-- A fetch that is not admitted stops with one marked Frame. -/
theorem fetchInstr_of_not_admitted {s : State} (hsteps : s.steps ≠ s.params.maxStep)
    (hpc : ¬ Admitted s s.pc) :
    fetchInstr s = .stopped (s.setOffset.takeFault .fetch (.fetchFault s.pc)) := by
  simp only [fetchInstr, if_neg hsteps, accessFault_of_not_admitted hpc]

/-- At its step limit a run stops before the fetch. -/
theorem fetchInstr_of_limit {s : State} (hsteps : s.steps = s.params.maxStep) :
    fetchInstr s = .stopped (s.raise (.stepLimit s.steps)) := if_pos hsteps

theorem step_of_stopped {s t : State} (hs : AtFetch s) (h : fetchInstr s = .stopped t) :
    step s = .next t := by
  rw [step_atFetch hs.1 hs.2, h]

theorem step_of_instr {s t : State} {i : Instr} (hs : AtFetch s) (h : fetchInstr s = .instr i t) :
    step s = exec i t := by
  rw [step_atFetch hs.1 hs.2, h]

/-! ### A step at Fetch -/

/-- What every stop leaves as it was: the registers, memory, pc, the step count, the run parameters and WASEL;
the trace grows by the Frames of the stop (60_exceptions.md R190). -/
structure StopsPrecisely (s t : State) (stop : Stop) : Prop where
  status : t.status = .stopped stop
  regs : t.regs = s.regs
  mem : t.mem = s.mem
  pc : t.pc = s.pc
  steps : t.steps = s.steps
  params : t.params = s.params
  waSel : t.signals.waSel = s.signals.waSel
  trace : t.trace.length = s.trace.length + stop.frames

theorem faulted_stopsPrecisely (c : Control) (op : Option AluOp) (f : Fields) (kind : AccessKind)
    (s : State) :
    StopsPrecisely s (faulted c op f kind s) (.memoryFault kind (instrOut c op f s).r) where
  status := faulted_status ..
  regs := faulted_regs ..
  mem := faulted_mem ..
  pc := faulted_pc ..
  steps := faulted_steps ..
  params := faulted_params ..
  waSel := by simp
  trace := by simp [faulted_trace, Stop.frames]

/-- A step at Fetch stops the run precisely, or retires the instruction it read, whose access is admitted. -/
theorem step_stops_or_retires {s t : State} (hs : AtFetch s) (h : step s = .next t) :
    (∃ stop, StopsPrecisely s t stop) ∨
    s.steps ≠ s.params.maxStep ∧ ∃ (i : Instr) (w : Word), i.op ≠ .halt ∧
      (accesses (opControl i.op) (executed (opControl i.op) (opAlu i.op) i.fields (s.latchIr w)) = true →
        accessFault s.params.memSize
          (instrOut (opControl i.op) (opAlu i.op) i.fields (s.latchIr w)).r.toNat = none) ∧
      t = retired (opControl i.op) (opAlu i.op) i.fields (s.latchIr w) := by
  rcases step_cases hs.1 hs.2 h with
    ⟨-, rfl⟩ | ⟨-, -, rfl⟩ | ⟨hsteps, -, w, -, ⟨e, -, rfl⟩ | ⟨-, rfl⟩ | ⟨i, hi, -, rfl⟩⟩
  · exact .inl ⟨_, ⟨rfl, rfl, rfl, rfl, rfl, rfl, rfl, rfl⟩⟩
  · exact .inl ⟨_, rfl, rfl, rfl, rfl, rfl, rfl, rfl, by simp [Stop.frames]⟩
  · exact .inl ⟨_, rfl, rfl, rfl, rfl, rfl, rfl, rfl, by simp [Stop.frames]⟩
  · exact .inl ⟨_, ⟨rfl, rfl, rfl, rfl, rfl, rfl, rfl, rfl⟩⟩
  · rcases runStages_cases (opControl i.op) (opAlu i.op) i.fields (s.latchIr w) with
      ⟨kind, -, -, hstop⟩ | ⟨hadmitted, hretire⟩
    · rw [hstop]
      obtain ⟨h1, h2, h3, h4, h5, h6, h7, h8⟩ := faulted_stopsPrecisely (opControl i.op) (opAlu i.op)
        i.fields kind (s.latchIr w)
      exact .inl ⟨_, h1, h2, h3, h4, h5, h6, h7, h8⟩
    · exact .inr ⟨hsteps, i, w, hi, hadmitted, hretire⟩

/-! ### One stage at a time -/

/-- A tick that ends an instruction or the run ends the ticks. -/
theorem ticks_of_end {s t : State} (h : tick s = .next t) (ht : t.stage = .fetch ∨ t.status ≠ .running)
    (n : Nat) : ticks (n + 1) s = .next t := by
  simp only [ticks, h, if_pos ht]

/-- A tick in the middle of an instruction goes on to the next. -/
theorem ticks_of_middle {s t : State} (h : tick s = .next t) (hstage : t.stage ≠ .fetch)
    (hstatus : t.status = .running) (n : Nat) : ticks (n + 1) s = ticks n t := by
  simp only [ticks, h, if_neg (not_or.2 ⟨hstage, not_not.2 hstatus⟩)]

/-- Past Fetch, a tick runs the stage of the instruction L.IR holds. -/
theorem tick_of_inFlight {s : State} {i : Instr} (hr : s.status = .running) (hs : s.stage ≠ .fetch)
    (hd : decodeWord s.latches.ir = .ok i) (hi : i.op ≠ .halt) : tick s = .next (runStage i s) := by
  rcases tick_cases hr with ⟨hf, -⟩ | ⟨-, j, hj, htick⟩ | ⟨-, hnone, -⟩
  · exact absurd hf hs
  · rw [inFlight_eq hd hi] at hj
    cases hj
    exact htick
  · rw [inFlight_eq hd hi] at hnone
    cases hnone

/-- The last two stages, one at a time. -/
theorem ticks_memory {s : State} {i : Instr} (hr : s.status = .running) (hs : s.stage = .memory)
    (hd : decodeWord s.latches.ir = .ok i) (hi : i.op ≠ .halt) :
    ticks 2 s = .next (finishInstr (opControl i.op) s) := by
  have htick := tick_of_inFlight hr (by simp [hs]) hd hi
  rcases memoryStage_cases (opControl i.op) s with ⟨kind, -, -, hstop⟩ | ⟨-, hdone⟩
  · simp only [runStage, hs, hstop] at htick
    rw [ticks_of_end htick (by simp) 1, finishInstr, hstop]
  · simp only [runStage, hs, hdone] at htick
    have htick' := tick_of_inFlight (s := memoryDone (opControl i.op) s) (i := i) (by simpa using hr)
      (by simp) (by simpa using hd) hi
    simp only [runStage, memoryDone_stage] at htick'
    rw [ticks_of_middle htick (by simp) (by simpa using hr) 1, ticks_of_end htick' (by simp) 0,
      finishInstr, hdone]

/-- The four stages after Fetch, one at a time, are the rest of `runStages`. -/
theorem ticks_afterFetch {s : State} {i : Instr} (hr : s.status = .running)
    (hd : decodeWord s.latches.ir = .ok i) (hi : i.op ≠ .halt) :
    ticks 4 (fetchStage s) = .next (runStages (opControl i.op) (opAlu i.op) i.fields s) := by
  have hdecode := tick_of_inFlight (s := fetchStage s) (i := i) (by simpa using hr) (by simp)
    (by simpa using hd) hi
  have hexecute := tick_of_inFlight (s := decodeStage (opControl i.op) i.fields (fetchStage s)) (i := i)
    (by simpa using hr) (by simp) (by simpa using hd) hi
  simp only [runStage, fetchStage_stage] at hdecode
  simp only [runStage, decodeStage_stage] at hexecute
  rw [ticks_of_middle hdecode (by simp) (by simpa using hr) 3,
    ticks_of_middle hexecute (by simp) (by simpa using hr) 2,
    ticks_memory (by simpa using hr) (by simp) (by simpa using hd) hi, runStages]

/-- What Fetch leaves when it stops. -/
theorem fetchInstr_stopped {s t : State} (h : fetchInstr s = .stopped t) : t.status ≠ .running := by
  rcases fetchInstr_cases s with
    ⟨-, hlimit⟩ | ⟨-, -, hfault⟩ | ⟨-, -, w, -, ⟨e, -, hillegal⟩ | ⟨j, -, hread⟩⟩
  · rw [hlimit] at h
    cases h
    simp
  · rw [hfault] at h
    cases h
    simp
  · rw [hillegal] at h
    cases h
    simp
  · rw [hread] at h
    cases h

/-- What Fetch leaves when it reads an instruction: the word is latched and nothing else has changed. -/
theorem fetchInstr_instr {s t : State} {i : Instr} (h : fetchInstr s = .instr i t) :
    ∃ w, t = s.latchIr w ∧ decodeWord w = .ok i := by
  rcases fetchInstr_cases s with
    ⟨-, hlimit⟩ | ⟨-, -, hfault⟩ | ⟨-, -, w, -, ⟨e, -, hillegal⟩ | ⟨j, hj, hread⟩⟩
  · rw [hlimit] at h
    cases h
  · rw [hfault] at h
    cases h
  · rw [hillegal] at h
    cases h
  · rw [hread] at h
    cases h
    exact ⟨w, rfl, hj⟩

/-- A tick at Fetch. -/
theorem tick_atFetch {s : State} (hs : AtFetch s) : tick s = .next (fetchTick s) := by
  simp only [tick, hs.1, hs.2, if_true]

/-- Five stages one at a time do what a step at Fetch does. -/
theorem ticks_five_eq_step {s : State} (hs : AtFetch s) : ticks 5 s = step s := by
  have htick := tick_atFetch hs
  cases h : fetchInstr s with
  | stopped t =>
    simp only [fetchTick, h] at htick
    rw [step_of_stopped hs h, ticks_of_end htick (.inr (fetchInstr_stopped h))]
  | instr i t =>
    obtain ⟨w, rfl, hw⟩ := fetchInstr_instr h
    rw [step_of_instr hs h, exec_eq]
    by_cases hi : i.op = .halt
    · simp only [fetchTick, h, if_pos hi] at htick
      rw [if_pos hi, ticks_of_end htick (by simp)]
    · simp only [fetchTick, h, if_neg hi] at htick
      rw [if_neg hi, ticks_of_middle htick (by simp) hs.1, ticks_afterFetch (s := s.latchIr w) hs.1 hw hi]

/-! ### Earlier Frames and run parameters -/

/-- `t` has all of `s`'s Frames, in front, and its run parameters. -/
def Extends (s t : State) : Prop := s.trace <+: t.trace ∧ t.params = s.params

theorem Extends.refl (s : State) : Extends s s := ⟨⟨[], List.append_nil _⟩, rfl⟩

theorem Extends.trans {s t u : State} (h : Extends s t) (h' : Extends t u) : Extends s u :=
  ⟨h.1.trans h'.1, h'.2.trans h.2⟩

/-- Fetch appends its Frame, or none at the step limit and for HALT. -/
theorem fetchTick_extends (s : State) : Extends s (fetchTick s) := by
  rcases fetchInstr_cases s with
    ⟨-, hlimit⟩ | ⟨-, -, hfault⟩ | ⟨-, -, w, -, ⟨e, -, hillegal⟩ | ⟨i, -, hread⟩⟩
  · simp [Extends, fetchTick, hlimit]
  · simp [Extends, fetchTick, hfault]
  · simp [Extends, fetchTick, hillegal]
  · by_cases hi : i.op = .halt
    · simp [Extends, fetchTick, hread, hi]
    · simp [Extends, fetchTick, hread, hi]

/-- Each stage appends its Frame. -/
theorem runStage_extends (i : Instr) (s : State) : Extends s (runStage i s) := by
  cases h : s.stage with
  | fetch => simp [Extends, runStage, h]
  | decode => simp [Extends, runStage, h]
  | execute => simp [Extends, runStage, h]
  | memory =>
    rcases memoryStage_cases (opControl i.op) s with ⟨kind, -, -, hstop⟩ | ⟨-, hdone⟩
    · simp [Extends, runStage, h, hstop]
    · simp [Extends, runStage, h, hdone]
  | writeBack => simp [Extends, runStage, h]

theorem tick_extends {s t : State} (h : tick s = .next t) : Extends s t := by
  cases hr : s.status with
  | stopped stop => simp [tick, hr] at h
  | running =>
    rcases tick_cases hr with ⟨-, htick⟩ | ⟨-, i, -, htick⟩ | ⟨-, -, htick⟩
    · rw [htick] at h
      cases h
      exact fetchTick_extends s
    · rw [htick] at h
      cases h
      exact runStage_extends i s
    · rw [htick] at h
      cases h

theorem ticks_extends {n : Nat} {s t : State} (h : ticks n s = .next t) : Extends s t := by
  induction n generalizing s with
  | zero =>
    cases h
    exact .refl _
  | succ n ih =>
    cases htick : tick s with
    | next u =>
      have hu := tick_extends htick
      simp only [ticks, htick] at h
      split at h
      · cases h
        exact hu
      · exact hu.trans (ih h)
    | fault e => simp [ticks, htick] at h
    | refused e => simp [ticks, htick] at h

/-- A step of a run is some number of ticks, from Fetch or from the middle of an instruction. -/
theorem step_eq_ticks {s : State} (hr : s.status = .running) : ∃ n, step s = ticks n s := by
  by_cases hf : s.stage = .fetch
  · exact ⟨5, (ticks_five_eq_step ⟨hr, hf⟩).symm⟩
  · exact ⟨4, by simp [step, hr, hf]⟩

/-- A stopped run answers the fault that names its stop. -/
theorem step_of_ended {s : State} {stop : Stop} (h : s.status = .stopped stop) :
    step s = .fault (.runEnded stop) := by
  simp [step, h]

end Sys2Proof.Machine

namespace Sys2Proof.Proofs

open Sys2Proof.Machine Sys2Proof.Claims

/-- Settles O54: Fetch's tick, then the stages of the instruction its word decodes to. -/
theorem stagesRefineSteps : Obligations.StagesRefineSteps := fun _ => ticks_five_eq_step

/-- Settles O46: every step is a number of ticks, and each tick only appends Frames. -/
theorem stepsKeepTraceAndParameters : Obligations.StepsKeepTraceAndParameters := by
  intro s t h
  cases hr : s.status with
  | stopped stop => simp [step_of_ended hr] at h
  | running =>
    obtain ⟨n, hn⟩ := step_eq_ticks hr
    obtain ⟨⟨fs, hfs⟩, hparams⟩ := ticks_extends (hn.symm.trans h)
    exact ⟨⟨fs, hfs.symm⟩, hparams⟩

/-- Settles O45: an instruction that retires keeps the run status, so a stop is one of the precise ones. -/
theorem stopsArePrecise : Obligations.StopsArePrecise := by
  intro s t stop hs h hstop
  rcases step_stops_or_retires hs h with ⟨stop', hprecise⟩ | ⟨-, i, w, -, -, rfl⟩
  · obtain rfl : stop' = stop := RunStatus.stopped.inj (hprecise.status.symm.trans hstop)
    exact ⟨State.reg_congr hprecise.regs, hprecise.mem, hprecise.pc, hprecise.steps, hprecise.trace⟩
  · obtain ⟨-, -, hstatus, -⟩ := retired_retired (opControl i.op) (opAlu i.op) i.fields (s.latchIr w)
    rw [hstop, State.latchIr_status, hs.1] at hstatus
    cases hstatus

/-- Settles O40: Fetch reads the instruction at pc. -/
theorem stepRunsDecodedInstruction : Obligations.StepRunsDecodedInstruction := by
  intro s i hs hsteps hpc hi
  rw [step_of_instr hs (fetchInstr_of_ok hsteps hpc hi)]
  rfl

/-- Settles O27: after the store the run is at Fetch again, at the address stored to. -/
theorem storedWordIsFetchedNext : Obligations.StoredWordIsFetchedNext := by
  intro s rc lit ra i ea hwf hs hea hnext hsteps hi
  have hout := instrOut_rowSt ra 31 rc lit s
  have hmem := retired_mem rowSt (some .add) { lit := lit, ra := ra, rb := 31, rc := rc } s
  rw [hout] at hmem
  obtain ⟨hcount, hstage, hstatus, hparams, -⟩ :=
    retired_retired rowSt (some .add) { lit := lit, ra := ra, rb := 31, rc := rc } s
  have hpc := retired_pc_of_pc4 (c := rowSt) rfl (some .add) { lit := lit, ra := ra, rb := 31, rc := rc } s
  rw [← hnext] at hpc
  refine ⟨_, congrArg Host.Outcome.next (runStages_of_admitted ?_), ?_⟩
  · rw [hout]
    exact admitted_iff.1 hea
  · have hword : wordAt (retired rowSt (some .add) { lit := lit, ra := ra, rb := 31, rc := rc } s)
        (retired rowSt (some .add) { lit := lit, ra := ra, rb := 31, rc := rc } s).pc.toNat = s.reg rc := by
      rw [← readWord_eq_wordAt, hpc, hmem, hparams]
      exact (Memory.readWord_writeWord hwf _ _ ea.toNat (s.reg rc)).trans (wordOfBytes_byteOfWord ..)
    rw [step_of_instr ⟨hstatus.trans hs.1, hstage⟩ (fetchInstr_of_ok ?_ ?_ (hword ▸ hi)), hword]
    · rwa [hcount, hparams]
    · rw [Admitted, hpc, hparams]
      exact hea

/-- Settles O41: the step limit is tested before the fetch. -/
theorem stepLimitStops : Obligations.StepLimitStops := fun _ hs hsteps =>
  step_of_stopped hs (fetchInstr_of_limit hsteps)

/-- Settles O42: the fetch's fault, field by field. -/
theorem fetchFaultStops : Obligations.FetchFaultStops := by
  intro s hs hsteps hpc
  refine ⟨_, s.setOffset.frame .fetch true, step_of_stopped hs (fetchInstr_of_not_admitted hsteps hpc),
    State.takeFault_status .., State.takeFault_trace .., rfl, rfl, rfl, rfl, rfl,
    State.frame_showsRegs (State.setOffset_regs s).symm _ _, rfl, State.reg_congr ?_, fun a => ?_, ?_⟩
  all_goals simp

/-- Settles O43: the fault of a word that does not decode, field by field. -/
theorem illegalOpcodeStops : Obligations.IllegalOpcodeStops := by
  intro s e hs hsteps hpc he
  refine ⟨_, _, step_of_stopped hs (fetchInstr_of_error hsteps hpc he), State.takeFault_status ..,
    State.takeFault_trace .., rfl, rfl, rfl, rfl, rfl, rfl, rfl, State.frame_showsRegs rfl _ _, rfl,
    State.reg_congr ?_, fun a => ?_, ?_⟩
  all_goals simp

/-- Settles O44: both look at the run status first. -/
theorem stoppedRunStaysStopped : Obligations.StoppedRunStaysStopped := fun s stop h =>
  ⟨step_of_ended h, by simp [tick, h]⟩

end Sys2Proof.Proofs
end

section
/-! PROOFS. The invariant (10_state.md R21, R32, R43, R44, R46, 40_pipeline.md R107, R111, R112), runs
(40_pipeline.md R96, 70_reset_and_hazards.md R201, R203), and what a program cannot see (10_state.md R35). -/

namespace Sys2Proof.Machine

open Sys2Proof.Claims

/-! ### The invariant over an instruction that retires -/

/-- The array's bound and the canonical form outlive an instruction whose access is admitted. -/
theorem retired_memoryOk {c : Control} {op : Option AluOp} {f : Fields} {s : State} (hs : s.memoryOk)
    (h : accesses c (executed c op f s) = true →
      accessFault s.params.memSize (instrOut c op f s).r.toNat = none) :
    (retired c op f s).memoryOk := by
  obtain ⟨hwf, hwithin⟩ := hs
  obtain ⟨-, -, -, hparams, -⟩ := retired_retired c op f s
  rw [State.memoryOk, retired_mem, hparams]
  split
  · next hmwr =>
    have hadmitted : Admitted s (instrOut c op f s).r :=
      admitted_iff.2 (h (by rw [accesses, executed_signals, hmwr, Bool.true_or]))
    exact ⟨Memory.writeWord_wf hwf .., Memory.writeWord_within hwithin hadmitted.2 ..⟩
  · exact ⟨hwf, hwithin⟩

theorem retired_zeroSlotOk {s : State} (hs : s.zeroSlotOk) (c : Control) (op : Option AluOp) (f : Fields) :
    (retired c op f s).zeroSlotOk := by
  rw [State.zeroSlotOk, retired, writeBackStage_zeroSlot]
  simpa only [State.zeroSlotOk, memoryDone_regs, executed_regs] using hs

/-- A run in progress is at Fetch. -/
theorem State.Inv.atFetch {s : State} (hs : s.Inv) (hr : s.status = .running) : AtFetch s :=
  ⟨hr, hs.counts.1 hr⟩

/-- A precise stop of a run in progress keeps the invariant. -/
theorem StopsPrecisely.inv {s t : State} {stop : Stop} (h : StopsPrecisely s t stop) (hs : s.Inv)
    (hr : s.status = .running) : t.Inv where
  memory := by simpa only [State.memoryOk, h.mem, h.params] using hs.memory
  zeroSlot := by simpa only [State.zeroSlotOk, h.regs] using hs.zeroSlot
  counts := by
    obtain ⟨-, hsteps, htrace⟩ := hs.counts
    refine ⟨fun hrun => ?_, ?_, ?_⟩
    · rw [h.status] at hrun
      cases hrun
    · rwa [h.steps, h.params]
    · rw [h.trace, htrace, h.steps, h.status, hr]
      rfl
  waSel := by simpa only [State.waSelOk, h.waSel] using hs.waSel

/-- An instruction that retires below the step limit keeps the invariant. -/
theorem retired_inv {o : Op} {op : Option AluOp} {f : Fields} {s : State} (ho : o ≠ .halt) (hs : s.Inv)
    (hr : s.status = .running) (hlimit : s.steps ≠ s.params.maxStep)
    (h : accesses (opControl o) (executed (opControl o) op f s) = true →
      accessFault s.params.memSize (instrOut (opControl o) op f s).r.toNat = none) :
    (retired (opControl o) op f s).Inv where
  memory := retired_memoryOk hs.memory h
  zeroSlot := retired_zeroSlotOk hs.zeroSlot ..
  counts := by
    obtain ⟨-, hsteps, htrace⟩ := hs.counts
    obtain ⟨hcount, hstage, hstatus, hparams, -⟩ := retired_retired (opControl o) op f s
    refine ⟨fun _ => hstage, ?_, ?_⟩
    · rw [hcount, hparams]
      omega
    · rw [hr] at htrace
      rw [retired_trace, hcount, hstatus, hr, List.length_append, htrace]
      simp only [RunStatus.frames, List.length_cons, List.length_nil]
      omega
  waSel := retired_waSel ho hs.waSel ..

/-- Latching the word read keeps the invariant. -/
theorem State.Inv.latchIr {s : State} (hs : s.Inv) (w : Word) : (s.latchIr w).Inv where
  memory := hs.memory
  zeroSlot := hs.zeroSlot
  counts := hs.counts
  waSel := hs.waSel

/-- A step of a run under the invariant keeps it, and it stops the run or retires one instruction. -/
theorem State.Inv.step {s t : State} (hs : s.Inv) (hr : s.status = .running) (h : step s = .next t) :
    t.Inv ∧ t.params = s.params ∧
      ((∃ stop, t.status = .stopped stop) ∨ t.steps = s.steps + 1) := by
  rcases step_stops_or_retires (hs.atFetch hr) h with ⟨stop, hstop⟩ | ⟨hlimit, i, w, hi, hadmitted, rfl⟩
  · exact ⟨hstop.inv hs hr, hstop.params, .inl ⟨stop, hstop.status⟩⟩
  · obtain ⟨hcount, -, -, hparams, -⟩ :=
      retired_retired (opControl i.op) (opAlu i.op) i.fields (s.latchIr w)
    exact ⟨retired_inv hi (hs.latchIr w) hr hlimit hadmitted, hparams, .inr hcount⟩

/-! ### The alignment of pc -/

/-- What the rows of the table say of PCSEL: the next address, a register, or a branch's pair. -/
theorem opControl_pcSel_cases (i : Instr) (hi : i.op ≠ .halt) :
    (opControl i.op).pcSel = some (.one .pc4) ∨ (opControl i.op).pcSel = some (.one .rd1) ∨
    ∃ ne eq ra lit rc, opControl i.op = branchRow ne eq ∧ opAlu i.op = some .add ∧
      i.fields = { lit := lit, ra := ra, rb := 31, rc := rc } := by
  cases i with
  | halt => exact absurd rfl hi
  | jmp ra rc => exact .inr (.inl rfl)
  | beq ra lit rc => exact .inr (.inr ⟨.pc4, .aluOut, ra, lit, rc, rfl, rfl, rfl⟩)
  | bne ra lit rc => exact .inr (.inr ⟨.aluOut, .pc4, ra, lit, rc, rfl, rfl, rfl⟩)
  | _ => exact .inl rfl

/-- The next address of an aligned one, a masked register and a relative target are all aligned. -/
theorem nextPc_aligned {l : Latches} (hpc4 : l.pc4.toNat % 4 = 0) {sel : PcSel}
    (hout : sel = .aluOut → l.aluOut.toNat % 4 = 0) : (nextPc l sel).toNat % 4 = 0 := by
  cases sel with
  | pc4 => exact hpc4
  | aluOut => exact hout rfl
  | rd1 =>
    rw [nextPc, and_mask_eq, BitVec.toNat_ofNat]
    omega

theorem add_four_aligned {a : Word} (ha : a.toNat % 4 = 0) : (a + 4).toNat % 4 = 0 := by
  simp only [BitVec.toNat_add, BitVec.ofNat_eq_ofNat, BitVec.toNat_ofNat]
  omega

theorem relativeTarget_aligned {a : Word} (ha : a.toNat % 4 = 0) (lit : Word) :
    (relativeTarget a lit).toNat % 4 = 0 := by
  simp only [relativeTarget, BitVec.toNat_add, BitVec.toNat_mul, BitVec.ofNat_eq_ofNat,
    BitVec.toNat_ofNat]
  omega

/-- Every instruction that retires takes an aligned pc to an aligned one. -/
theorem retired_pcAligned (i : Instr) (hi : i.op ≠ .halt) {s : State} (hs : s.pcAligned) :
    (retired (opControl i.op) (opAlu i.op) i.fields s).pcAligned := by
  have hpc4 := add_four_aligned hs
  rw [State.pcAligned, retired_pc, retired_latches, retired_signals]
  refine nextPc_aligned hpc4 fun hsel => ?_
  rcases opControl_pcSel_cases i hi with h | h | ⟨ne, eq, ra, lit, rc, hrow, hop, hfields⟩
  · simp [h] at hsel
  · simp [h] at hsel
  · simp only [hrow, hop, hfields, instrOut_branchRow, AluResult.plain_r]
    exact relativeTarget_aligned hpc4 _

/-! ### Runs -/

theorem runLoop_of_stopped {s : State} {stop : Stop} (h : s.status = .stopped stop) (n : Nat) :
    runLoop n s = .next s := by
  cases n with
  | zero => rfl
  | succ n => simp only [runLoop, h]

theorem runLoop_of_running {s t : State} (hr : s.status = .running) (h : step s = .next t) (n : Nat) :
    runLoop (n + 1) s = runLoop n t := by
  simp only [runLoop, hr, h]

/-- More passes of the loop than there are instructions left below the step limit stop the run. -/
theorem runLoop_stops {n : Nat} {s : State} (hs : s.Inv) (hn : s.params.maxStep - s.steps < n) :
    ∃ t stop, runLoop n s = .next t ∧ t.status = .stopped stop ∧ t.Inv ∧ t.params = s.params := by
  induction n generalizing s with
  | zero => omega
  | succ n ih =>
    cases hr : s.status with
    | stopped stop => exact ⟨s, stop, runLoop_of_stopped hr _, hr, hs, rfl⟩
    | running =>
      obtain ⟨t, ht⟩ := step_atFetch_next hr (hs.atFetch hr).2
      rw [runLoop_of_running hr ht]
      obtain ⟨hinv, hparams, ⟨stop, hstop⟩ | hsteps⟩ := hs.step hr ht
      · exact ⟨t, stop, runLoop_of_stopped hstop n, hstop, hinv, hparams⟩
      · have hle : t.steps ≤ t.params.maxStep := hinv.counts.2.1
        rw [hparams, hsteps] at hle
        obtain ⟨u, stop, hrun, hstop, hu, hparams'⟩ := ih hinv (by rw [hparams, hsteps]; omega)
        exact ⟨u, stop, hrun, hstop, hu, hparams'.trans hparams⟩

/-! ### Starts -/

/-- The registers of a start: INIT_REGS wrapped, and R31 zero. -/
theorem resetWith_reg (mem : Memory) (params : RunParams) (pc : Int) (regs : List Int) (r : RegIdx) :
    (State.resetWith mem params pc regs).reg r =
      if r = 31 then 0 else BitVec.ofInt 32 (regs.getD r.toNat 0) := by
  by_cases hr : r = 31
  · rw [State.reg, if_pos hr, if_pos hr]
  · have hne : r.toNat ≠ 31 := fun h => hr (BitVec.eq_of_toNat_eq h)
    rw [State.reg, if_neg hr, if_neg hr]
    simp [State.resetWith, initialRegs, hne]

/-- A start with canonical memory inside the array meets the invariant. -/
theorem resetWith_inv {mem : Memory} {params : RunParams} (hwf : mem.wf = true)
    (hwithin : mem.within params.memSize = true) (pc : Int) (regs : List Int) :
    (State.resetWith mem params pc regs).Inv where
  memory := ⟨hwf, hwithin⟩
  zeroSlot := by simp [State.zeroSlotOk, State.resetWith, initialRegs]
  counts := ⟨fun _ => rfl, Nat.zero_le _, rfl⟩
  waSel := rfl

/-- The start of a run from well-formed inputs. -/
def startState (i : RunInputs) : State :=
  State.resetWith (Memory.ofBytes i.mem)
    { memSize := i.mem.length, littleEndian := i.littleEndian, maxStep := i.maxStep } i.initPc i.initRegs

theorem start_of_length {i : RunInputs} (h : i.initRegs.length = 32) :
    State.start i = .next (startState i) := by
  rw [State.start, if_pos (by simpa [RunInputs.wellFormed] using h), startState]

theorem start_of_badLength {i : RunInputs} (h : i.initRegs.length ≠ 32) :
    State.start i = .refused (.badInitRegs i.initRegs.length) := by
  rw [State.start, if_neg (by simpa [RunInputs.wellFormed] using h)]

theorem startState_inv (i : RunInputs) : (startState i).Inv :=
  resetWith_inv (Memory.ofBytes_wf _) (Memory.ofBytes_within _) _ _

end Sys2Proof.Machine

namespace Sys2Proof.Proofs

open Sys2Proof.Machine Sys2Proof.Claims

/-- Settles O48: a precise stop and an instruction that retires both keep the invariant. -/
theorem invariantKept : Obligations.InvariantKept := by
  intro s t hs h
  cases hr : s.status with
  | stopped stop => simp [step_of_ended hr] at h
  | running => exact (hs.step hr h).1

/-- Settles O52: each pass of the loop stops the run or comes one step nearer to its limit. -/
theorem everyRunStops : Obligations.EveryRunStops := by
  intro s hs
  obtain ⟨t, stop, hrun, hstop, hinv, hparams⟩ := runLoop_stops hs (Nat.lt_succ_self _)
  exact ⟨t, stop, hrun, hstop, hinv, hparams ▸ hinv.counts.2.1⟩

/-- Settles O53: the run from the start state stops, and the invariant of its end counts the Frames. -/
theorem simulateEndsWithItsTrace : Obligations.SimulateEndsWithItsTrace := by
  intro inp hlen
  obtain ⟨t, stop, hrun, hstop, hinv, hparams⟩ :=
    runLoop_stops (startState_inv inp) (n := inp.maxStep + 1) (Nat.lt_succ_of_le (Nat.sub_le ..))
  obtain ⟨-, hsteps, htrace⟩ := hinv.counts
  rw [hparams] at hsteps
  rw [hstop] at htrace
  refine ⟨t, stop, ?_, hstop, hsteps, htrace⟩
  simp only [simulate, start_of_length hlen, hrun]

/-- Settles O49: a stop keeps pc, and an instruction that retires keeps it aligned. -/
theorem pcStaysAligned : Obligations.PcStaysAligned := by
  intro s t hs hpc h
  cases hr : s.status with
  | stopped stop => simp [step_of_ended hr] at h
  | running =>
    rcases step_stops_or_retires (hs.atFetch hr) h with ⟨stop, hstop⟩ | ⟨-, i, w, hi, -, rfl⟩
    · rwa [State.pcAligned, hstop.pc]
    · exact retired_pcAligned i hi (s := s.latchIr w) hpc

/-- Settles O51: the start state, field by field. -/
theorem startOfARun : Obligations.StartOfARun := by
  intro inp
  refine ⟨start_of_badLength, fun hlen => ⟨startState inp, start_of_length hlen, ?_, rfl, fun a ha => ?_,
    rfl, rfl, rfl, rfl, rfl, rfl, rfl, rfl, rfl, rfl, rfl, rfl, startState_inv inp⟩⟩
  · exact fun r => resetWith_reg _ _ _ _ r
  · exact (Memory.readByte_ofBytes inp.mem a).trans (List.getD_eq_getElem _ _ ha)

/-- Settles O47: the reset state lists no memory and starts at address 0. -/
theorem invariantAtReset : Obligations.InvariantAtReset := ⟨resetWith_inv rfl rfl _ _, rfl⟩

/-- Settles O50: the default inputs wrap to 0, and every other value is `State.resetWith`'s own. -/
theorem resetValues : Obligations.ResetValues := by
  refine ⟨fun r => ?_, (resetWith_inv rfl rfl _ _).zeroSlot, rfl, rfl, rfl, rfl, rfl, rfl, rfl, rfl, rfl, rfl,
    rfl, rfl⟩
  rw [State.reset, resetWith_reg, Config.defaultInitRegs]
  by_cases hr : r = 31
  · rw [if_pos hr]
  · rw [if_neg hr, List.getD_replicate _ r.isLt]
    rfl

end Sys2Proof.Proofs
end

section
/-! PROOFS. What a program cannot see (10_state.md R35, 70_reset_and_hazards.md R208): every row of the control
table drives the latches and signals that its effect reads. -/

namespace Sys2Proof.Machine

open Sys2Proof.Claims

/-! ### Rows drive what they read -/

/-- A row and its ALU operation read no held value on the way to a register, memory or pc: a register write, an
access and the next pc are selected by signals the row sets, from latches the instruction itself writes. -/
structure DrivesWhatItReads (c : Control) (op : Option AluOp) : Prop where
  mwr : c.mwr.isSome
  moe : c.moe.isSome
  werf : c.werf.isSome
  operands : op.isSome → c.aSel.isSome ∧ c.bSel.isSome ∧ (c.bSel = some .rd2 → c.ra2Sel.isSome)
  address : c.mwr = some true ∨ c.moe = some true → op.isSome
  storeData : c.mwr = some true → c.ra2Sel.isSome
  next : c.pcSel = some (.one .pc4) ∨ c.pcSel = some (.one .rd1) ∨
    ∃ ne eq, c.pcSel = some (.pair ne eq) ∧ c.ra2Sel.isSome ∧ op.isSome
  result : c.werf = some true → c.waSel.isSome ∧
    (c.wdSel = some .pc4 ∨ c.wdSel = some .aluOut ∧ op.isSome ∨
      c.wdSel = some .memData ∧ c.moe = some true)

/-- Every row but HALT's drives what it reads. -/
theorem opControl_drivesWhatItReads {o : Op} (h : o ≠ .halt) :
    DrivesWhatItReads (opControl o) (opAlu o) := by
  cases o with
  | halt => exact absurd rfl h
  | beq => exact ⟨rfl, rfl, rfl, by decide, by decide, by decide, .inr (.inr ⟨_, _, rfl, rfl, rfl⟩), by decide⟩
  | bne => exact ⟨rfl, rfl, rfl, by decide, by decide, by decide, .inr (.inr ⟨_, _, rfl, rfl, rfl⟩), by decide⟩
  | jmp => exact ⟨rfl, rfl, rfl, by decide, by decide, by decide, .inr (.inl rfl), by decide⟩
  | _ => exact ⟨rfl, rfl, rfl, by decide, by decide, by decide, .inl rfl, by decide⟩

/-- A set signal does not depend on the value it held. -/
theorem Signal.apply_value_of_isSome {α : Type} {d : Option α} (h : d.isSome) (g g' : Signal α) :
    (g.apply d).value = (g'.apply d).value := by
  obtain ⟨v, rfl⟩ := Option.isSome_iff_exists.1 h
  rfl

/-! ### Two states that agree for programs -/

section
variable {s s' : State} {c : Control} {op : Option AluOp} {f : Fields}

theorem decodedRd2_agree (h : AgreeForPrograms s s') (hra2 : c.ra2Sel.isSome) :
    decodedRd2 c f s = decodedRd2 c f s' := by
  obtain ⟨sel, hsel⟩ := Option.isSome_iff_exists.1 hra2
  obtain ⟨hreg, -⟩ := h
  cases sel <;> simp [decodedRd2, hsel, readPort2, hreg]

/-- The ALU's outputs agree when it runs, and its inputs are driven. -/
theorem instrOut_agree (hc : DrivesWhatItReads c op) (h : AgreeForPrograms s s') (hop : op.isSome) :
    instrOut c op f s = instrOut c op f s' := by
  obtain ⟨ha, hb, hrd2⟩ := hc.operands hop
  obtain ⟨o, rfl⟩ := Option.isSome_iff_exists.1 hop
  obtain ⟨a, ha⟩ := Option.isSome_iff_exists.1 ha
  obtain ⟨b, hb⟩ := Option.isSome_iff_exists.1 hb
  have hA : aluInputA (decodeStage c f (fetchStage s)).latches a =
      aluInputA (decodeStage c f (fetchStage s')).latches a := by
    obtain ⟨hreg, hpc, -⟩ := h
    cases a <;> simp [aluInputA, hreg, hpc]
  have hB : aluInputB (decodeStage c f (fetchStage s)).latches b =
      aluInputB (decodeStage c f (fetchStage s')).latches b := by
    cases b with
    | rd2 => exact show decodedRd2 c f s = decodedRd2 c f s' from decodedRd2_agree h (hrd2 hb)
    | lit => rfl
  simp only [instrOut, executeOut, ha, hb, Signal.apply_some, runAlu, hA, hB]

theorem accesses_agree (hc : DrivesWhatItReads c op) :
    accesses c (executed c op f s) = accesses c (executed c op f s') := by
  simp only [accesses, Signal.apply_value_of_isSome hc.mwr _ (executed c op f s').signals.mwr,
    Signal.apply_value_of_isSome hc.moe _ (executed c op f s').signals.moe]

/-- An access is made under an ALU operation. -/
theorem op_isSome_of_accesses (hc : DrivesWhatItReads c op) (h : accesses c (executed c op f s) = true) :
    op.isSome := by
  apply hc.address
  obtain ⟨w, hw⟩ := Option.isSome_iff_exists.1 hc.mwr
  obtain ⟨r, hr⟩ := Option.isSome_iff_exists.1 hc.moe
  simpa [accesses, hw, hr] using h

theorem retired_mem_agree (hc : DrivesWhatItReads c op) (h : AgreeForPrograms s s') :
    (retired c op f s).mem = (retired c op f s').mem := by
  have hmem : s.mem = s'.mem := h.2.2.1
  have hparams : s.params = s'.params := h.2.2.2.2.2.2
  obtain ⟨w, hw⟩ := Option.isSome_iff_exists.1 hc.mwr
  rw [retired_mem, retired_mem, hw]
  cases w with
  | false => exact hmem
  | true =>
    simp only [Signal.apply_some, if_true, hmem, hparams, decodedRd2_agree h (hc.storeData hw),
      instrOut_agree hc h (hc.address (.inl hw))]

theorem retired_pc_agree (hc : DrivesWhatItReads c op) (h : AgreeForPrograms s s') :
    (retired c op f s).pc = (retired c op f s').pc := by
  have hreg : ∀ r, s.reg r = s'.reg r := h.1
  have hpc : s.pc = s'.pc := h.2.1
  rw [retired_pc, retired_pc, retired_latches, retired_latches, retired_signals, retired_signals]
  rcases hc.next with hsel | hsel | ⟨ne, eq, hsel, hra2, hop⟩
  · simp only [hsel, Signal.applyPc_one, nextPc, hpc]
  · simp only [hsel, Signal.applyPc_one, nextPc, hreg]
  · simp only [hsel, Signal.applyPc_pair, decodedRd2_agree h hra2, instrOut_agree hc h hop, hreg, hpc]
    cases (if zeroFlag (s'.reg f.ra) (decodedRd2 c f s') then eq else ne) <;> rfl

theorem retired_reg_agree (hc : DrivesWhatItReads c op) (h : AgreeForPrograms s s') (r : RegIdx) :
    (retired c op f s).reg r = (retired c op f s').reg r := by
  obtain ⟨hreg, hpc, hmem, -, -, -, hparams⟩ := id h
  obtain ⟨werf, hwerf⟩ := Option.isSome_iff_exists.1 hc.werf
  rw [retired, retired, retired_reg, retired_reg, hwerf, hreg]
  cases werf with
  | false => rfl
  | true =>
    obtain ⟨hwa, hresult⟩ := hc.result hwerf
    obtain ⟨wa, hwa⟩ := Option.isSome_iff_exists.1 hwa
    have hdst : writeBackReg (executed c op f s).latches wa = writeBackReg (executed c op f s').latches wa := by
      cases wa <;> rfl
    simp only [hwa, Signal.apply_some, hdst]
    congr 1
    rcases hresult with hwd | ⟨hwd, hop⟩ | ⟨hwd, hmoe⟩
    · simp [hwd, writeBackData, hpc]
    · simp [hwd, writeBackData, instrOut_agree hc h hop]
    · simp [hwd, hmoe, writeBackData, hmem, hparams, instrOut_agree hc h (hc.address (.inr hmoe))]

/-- The stages take states that agree for programs to states that do. -/
theorem runStages_agree (hc : DrivesWhatItReads c op) (h : AgreeForPrograms s s') :
    AgreeForPrograms (runStages c op f s) (runStages c op f s') := by
  obtain ⟨-, hpc, hmem, hsteps, hstatus, -, hparams⟩ := id h
  have haccess := accesses_agree (s := s) (s' := s') (f := f) hc
  rcases runStages_cases c op f s with ⟨kind, hmade, hfault, hstop⟩ | ⟨hadmitted, hretire⟩
  · have hout := instrOut_agree (f := f) hc h (op_isSome_of_accesses hc hmade)
    have hfault' : accessFault s'.params.memSize (executed c op f s').latches.aluOut.toNat = some kind := by
      rwa [executed_latches, ← hout, ← hparams]
    have hfaulted : runStages c op f s = faulted c op f kind s := hstop
    have hfaulted' : runStages c op f s' = faulted c op f kind s' :=
      runStages_faults (haccess ▸ hmade) hfault'
    rw [hfaulted, hfaulted']
    have hreg : ∀ r, (faulted c op f kind s).reg r = (faulted c op f kind s').reg r := fun r => by
      rw [State.reg_congr (faulted_regs c op f kind s), State.reg_congr (faulted_regs c op f kind s'), h.1]
    exact ⟨hreg, by simp [hpc], by simp [hmem], by simp [hsteps], by simp [hout], by simp, by simp [hparams]⟩
  · have hretired : runStages c op f s = retired c op f s := hretire
    have hretired' : runStages c op f s' = retired c op f s' := by
      refine runStages_retires fun hmade => ?_
      have hmade' := haccess.trans hmade
      rw [executed_latches, ← instrOut_agree hc h (op_isSome_of_accesses hc hmade'), ← hparams]
      exact hadmitted hmade'
    obtain ⟨hcount, hstage, hkept, hparams₁, -⟩ := retired_retired c op f s
    obtain ⟨hcount', hstage', hkept', hparams₂, -⟩ := retired_retired c op f s'
    rw [hretired, hretired']
    exact ⟨retired_reg_agree hc h, retired_pc_agree hc h, retired_mem_agree hc h,
      by rw [hcount, hcount', hsteps], by rw [hkept, hkept', hstatus], by rw [hstage, hstage'],
      by rw [hparams₁, hparams₂, hparams]⟩

/-- A stop of states that agree for programs leaves them so. -/
theorem raise_agree (h : AgreeForPrograms s s') (stop : Stop) :
    AgreeForPrograms (s.raise stop) (s'.raise stop) := by
  obtain ⟨hreg, hpc, hmem, hsteps, -, hstage, hparams⟩ := h
  exact ⟨hreg, hpc, hmem, hsteps, rfl, hstage, hparams⟩

theorem wordAt_agree (h : AgreeForPrograms s s') (a : Nat) : wordAt s a = wordAt s' a := by
  obtain ⟨-, -, hmem, -, -, -, hparams⟩ := h
  rw [← readWord_eq_wordAt, ← readWord_eq_wordAt, hmem, hparams]

/-- Steps at Fetch take states that agree for programs to states that do: they make the same tests on the same
word, and run the same instruction. -/
theorem step_agree (hs : AtFetch s) (h : AgreeForPrograms s s') :
    ∃ t t', step s = .next t ∧ step s' = .next t' ∧ AgreeForPrograms t t' := by
  obtain ⟨-, hpc, -, hsteps, hstatus, hstage, hparams⟩ := id h
  have hs' : AtFetch s' := ⟨hstatus ▸ hs.1, hstage ▸ hs.2⟩
  by_cases hlimit : s.steps = s.params.maxStep
  · have hlimit' : s'.steps = s'.params.maxStep := by rwa [← hsteps, ← hparams]
    refine ⟨_, _, step_of_stopped hs (fetchInstr_of_limit hlimit),
      step_of_stopped hs' (fetchInstr_of_limit hlimit'), ?_⟩
    rw [hsteps]
    exact raise_agree h _
  have hlimit' : s'.steps ≠ s'.params.maxStep := by rwa [← hsteps, ← hparams]
  by_cases hadmitted : Admitted s s.pc
  · have hadmitted' : Admitted s' s'.pc := by rwa [Admitted, ← hpc, ← hparams]
    have hword : wordAt s s.pc.toNat = wordAt s' s'.pc.toNat := by rw [← hpc, wordAt_agree h]
    cases hi : decodeWord (wordAt s s.pc.toNat) with
    | error e =>
      refine ⟨_, _, step_of_stopped hs (fetchInstr_of_error hlimit hadmitted hi),
        step_of_stopped hs' (fetchInstr_of_error hlimit' hadmitted' (hword ▸ hi)), ?_⟩
      rw [hword, hpc]
      exact raise_agree h _
    | ok i =>
      refine ⟨_, _, (step_of_instr hs (fetchInstr_of_ok hlimit hadmitted hi)).trans (exec_eq ..),
        (step_of_instr hs' (fetchInstr_of_ok hlimit' hadmitted' (hword ▸ hi))).trans (exec_eq ..), ?_⟩
      by_cases hop : i.op = .halt
      · rw [if_pos hop, if_pos hop, haltStage, haltStage, State.latchIr_pc, State.latchIr_pc, hpc]
        exact raise_agree h _
      · rw [if_neg hop, if_neg hop]
        exact runStages_agree (opControl_drivesWhatItReads hop) h
  · have hadmitted' : ¬ Admitted s' s'.pc := by rwa [Admitted, ← hpc, ← hparams]
    refine ⟨_, _, step_of_stopped hs (fetchInstr_of_not_admitted hlimit hadmitted),
      step_of_stopped hs' (fetchInstr_of_not_admitted hlimit' hadmitted'), ?_⟩
    rw [hpc]
    exact raise_agree h _

end

end Sys2Proof.Machine

namespace Sys2Proof.Proofs

open Sys2Proof.Machine Sys2Proof.Claims

/-- Settles O55: a stopped run answers its stop, and a running one the step of `step_agree`. -/
theorem heldValuesAreInvisible : Obligations.HeldValuesAreInvisible := by
  intro s s' hstage h
  cases hr : s.status with
  | stopped stop =>
    have hr' : s'.status = .stopped stop := by
      obtain ⟨-, -, -, -, hstatus, -⟩ := h
      rw [← hstatus, hr]
    rw [step_of_ended hr, step_of_ended hr']
    exact ⟨fun t ht => (by cases ht), fun e he => he⟩
  | running =>
    obtain ⟨u, u', hu, hu', hagree⟩ := step_agree ⟨hr, hstage⟩ h
    rw [hu]
    refine ⟨fun t ht => ?_, fun e he => by cases he⟩
    cases ht
    exact ⟨u', hu', hagree⟩

end Sys2Proof.Proofs
end

section
/-! PROOFS. The assembler (30_encoding.md R88 to R95): which statements are at fault, the error that names the
fault, and the fields of a statement that is not. -/

namespace Sys2Proof.Machine

open Sys2Proof.Claims

/-! ### Spellings in the terms of the statements -/

/-- The statements' list of mnemonics is the assembler's, row by row. -/
theorem mnemonics_eq : mnemonics = Op.all.map fun o => (opMnemonic o, o) := rfl

/-- A mnemonic names a row exactly when the lookup finds the row. -/
theorem names_iff {m : String} {o : Op} : Names m o ↔ opOfMnemonic m = some o := by
  rw [opOfMnemonic_eq_some, Names, mnemonics_eq]
  constructor
  · rintro ⟨e, he, hspelling, rfl⟩
    obtain ⟨p, -, rfl⟩ := List.mem_map.1 he
    exact hspelling
  · exact fun h => ⟨_, List.mem_map.2 ⟨o, mem_all o, rfl⟩, h, rfl⟩

/-- A symbol spells a register exactly when the lookup finds the register. -/
theorem spells_iff {symbol : String} {r : RegIdx} :
    Spells symbol r ↔ registerOfSymbol symbol = some r := by
  have hnumber : (foldCase symbol, r) ∈ (List.range 32).map (fun n => ('R' :: Nat.toDigits 10 n,
      BitVec.ofNat 5 n)) ↔ foldCase symbol = 'R' :: Nat.toDigits 10 r.toNat := by
    simp only [List.mem_map, List.mem_range, Prod.mk.injEq]
    constructor
    · rintro ⟨n, hn, hspelling, rfl⟩
      rw [← hspelling, BitVec.toNat_ofNat, Nat.mod_eq_of_lt hn]
    · exact fun h => ⟨r.toNat, r.isLt, h.symm, by simp⟩
  rw [registerOfSymbol_eq_some, registerSymbols, List.mem_append, hnumber]
  simp only [List.mem_cons, List.not_mem_nil, or_false, Prod.mk.injEq]
  rfl

/-! ### Faults of one argument -/

/-- An argument is at fault for its digit: a literal out of range, or of the wrong type (30_encoding.md R90). -/
def ArgumentAtFault (d : Role) (a : Arg) : Prop := OutOfRange d a ∨ WrongType d a

/-- Binding fails on an argument at fault, with the error of its fault. -/
theorem bindArg_error_names {m : String} {k : Nat} {d : Role} {a : Arg} {f : Fields} {e : AsmError}
    (h : bindArg m k d a f = .error e) :
    e.mnemonic = m ∧ e.argument = k ∧
      ((e.kind = .rangeError ∧ OutOfRange d a) ∨ (e.kind = .operandTypeError ∧ WrongType d a)) := by
  obtain ⟨hm, hk, hkind⟩ := bindArg_error h
  refine ⟨hm, hk, ?_⟩
  rcases hkind with ⟨hkind, hrange⟩ | ⟨hkind, ⟨hd, s, rfl⟩ | ⟨hd, n, rfl⟩ | ⟨s, rfl, hs⟩⟩
  · exact .inl ⟨hkind, hrange⟩
  · exact .inr ⟨hkind, .inl hd⟩
  · exact .inr ⟨hkind, hd⟩
  · refine .inr ⟨hkind, .inr fun r hr => ?_⟩
    rw [spells_iff, hs] at hr
    cases hr

/-- An argument that gives its role a value is not at fault. -/
theorem not_argumentAtFault_of_gives {f : Fields} {d : Role} {a : Arg} (h : Gives f d a) :
    ¬ ArgumentAtFault d a := by
  rcases h with ⟨rfl, n, rfl, hlow, hhigh, -⟩ | ⟨hd, s, r, rfl, hr, -⟩
  · rintro (⟨-, n', hn, hout⟩ | htype)
    · cases hn
      omega
    · exact htype rfl
  · rintro (⟨hlit, -⟩ | hlit | hnone)
    · exact hd hlit
    · exact hd hlit
    · exact hnone r (spells_iff.2 hr)

/-! ### Faults of a statement -/

/-- The error of a statement names its fault. -/
theorem encodeStatement_error_names {st : Statement} {e : AsmError} (h : encodeStatement st = .error e) :
    NamesFault st e := by
  rcases encodeStatement_cases st with ⟨hnone, herror⟩ | ⟨o, ho, ⟨f, -, hok⟩ | ⟨e', hfields, herror⟩⟩
  · rw [herror] at h
    cases h
    refine ⟨rfl, .inl ⟨rfl, fun o hname => ?_⟩⟩
    rw [names_iff, hnone] at hname
    cases hname
  · rw [hok] at h
    cases h
  · rw [herror] at h
    cases h
    rcases statementFields_cases o st with
      ⟨f, hok, -⟩ | ⟨hlen, e', he, hkind, hm⟩ | ⟨hlen, e', k, d, a, f, he, hd, ha, hb⟩
    · rw [hfields] at hok
      cases hok
    · rw [hfields] at he
      cases he
      exact ⟨hm, .inr ⟨o, names_iff.2 ho, .inl ⟨hkind, hlen⟩⟩⟩
    · rw [hfields] at he
      cases he
      obtain ⟨hm, rfl, hkind⟩ := bindArg_error_names hb
      exact ⟨hm, .inr ⟨o, names_iff.2 ho, .inr ⟨hlen, d, a, hd, ha, hkind⟩⟩⟩

/-- A statement an error names is at fault. -/
theorem atFault_of_namesFault {st : Statement} {e : AsmError} (h : NamesFault st e) : AtFault st := by
  obtain ⟨-, ⟨-, hnone⟩ | ⟨o, ho, ⟨-, hlen⟩ | ⟨-, d, a, hd, ha, hkind⟩⟩⟩ := h
  · exact .inl hnone
  · exact .inr ⟨o, ho, .inl hlen⟩
  · exact .inr ⟨o, ho, .inr ⟨_, d, a, hd, ha, hkind.imp And.right And.right⟩⟩

/-- A statement of a named row whose arguments all give their roles a value is not at fault. -/
theorem not_atFault_of_gives {st : Statement} {o : Op} {f : Fields} (ho : opOfMnemonic st.mnemonic = some o)
    (hlen : st.args.length = o.af.length)
    (hgives : ∀ (k : Nat) (d : Role) (a : Arg), o.af[k]? = some d → st.args[k]? = some a → Gives f d a) :
    ¬ AtFault st := by
  rintro (hnone | ⟨p, hp, hfault⟩)
  · exact hnone o (names_iff.2 ho)
  · obtain rfl : o = p := Option.some.inj (ho.symm.trans (names_iff.1 hp))
    rcases hfault with hne | ⟨k, d, a, hd, ha, hfault⟩
    · exact hne hlen
    · exact not_argumentAtFault_of_gives (hgives k d a hd ha) hfault

/-- Everything a statement's word can be: it is at fault and has an error, or it is not and its word packs the
fields its arguments give. -/
theorem encodeStatement_atFault_cases (st : Statement) :
    (AtFault st ∧ ∃ e, encodeStatement st = .error e) ∨
    ¬ AtFault st ∧ ∃ o f, opOfMnemonic st.mnemonic = some o ∧ encodeStatement st = .ok (encodeFields o f) ∧
      (∀ (k : Nat) (d : Role) (a : Arg), o.af[k]? = some d → st.args[k]? = some a → Gives f d a) ∧
      ∀ d ∉ o.af, f.value d = Fields.absent.value d := by
  rcases encodeStatement_cases st with ⟨-, herror⟩ | ⟨o, ho, ⟨f, hfields, hok⟩ | ⟨e, -, herror⟩⟩
  · exact .inl ⟨atFault_of_namesFault (encodeStatement_error_names herror), _, herror⟩
  · rcases statementFields_cases o st with
      ⟨g, hg, hlen, hgives, habsent⟩ | ⟨-, e, he, -⟩ | ⟨-, e, k, d, a, g, he, -⟩
    · rw [hfields] at hg
      cases hg
      exact .inr ⟨not_atFault_of_gives ho hlen hgives, o, f, ho, hok, hgives, habsent⟩
    · rw [hfields] at he
      cases he
    · rw [hfields] at he
      cases he
  · exact .inl ⟨atFault_of_namesFault (encodeStatement_error_names herror), e, herror⟩

theorem exists_error_of_atFault {st : Statement} (h : AtFault st) : ∃ e, encodeStatement st = .error e := by
  rcases encodeStatement_atFault_cases st with ⟨-, he⟩ | ⟨hnot, -⟩
  · exact he
  · exact absurd h hnot

theorem exists_word_of_not_atFault {st : Statement} (h : ¬ AtFault st) : ∃ w, encodeStatement st = .ok w := by
  rcases encodeStatement_atFault_cases st with ⟨hfault, -⟩ | ⟨-, o, f, -, hok, -⟩
  · exact absurd hfault h
  · exact ⟨_, hok⟩

theorem not_atFault_of_word {st : Statement} {w : Word} (h : encodeStatement st = .ok w) : ¬ AtFault st := by
  intro hfault
  obtain ⟨e, he⟩ := exists_error_of_atFault hfault
  rw [h] at he
  cases he

/-! ### Programs -/

/-- The first error aborts the program. -/
theorem encodeProgram_error_of_first {before rest : List Statement} {st : Statement} {e : AsmError}
    (hbefore : ∀ p ∈ before, ∃ w, encodeStatement p = .ok w) (h : encodeStatement st = .error e) :
    encodeProgram (before ++ st :: rest) = .error e := by
  induction before with
  | nil => simp [encodeProgram, h]
  | cons p before ih =>
    obtain ⟨w, hw⟩ := hbefore p (by simp)
    simp [encodeProgram, hw, ih fun q hq => hbefore q (by simp [hq])]

theorem encodeProgram_cons_eq_ok {st : Statement} {src : List Statement} {ws : List Word} :
    encodeProgram (st :: src) = .ok ws ↔
      ∃ w ws', encodeStatement st = .ok w ∧ encodeProgram src = .ok ws' ∧ ws = w :: ws' := by
  cases hst : encodeStatement st with
  | error e => simp [encodeProgram, hst]
  | ok w =>
    cases hsrc : encodeProgram src with
    | error e => simp [encodeProgram, hst, hsrc]
    | ok ws' => simp [encodeProgram, hst, hsrc, eq_comm]

/-- A program's words are those of its statements, one by one. -/
theorem encodeProgram_eq_ok {src : List Statement} {ws : List Word} :
    encodeProgram src = .ok ws ↔ List.Forall₂ (fun st w => encodeStatement st = .ok w) src ws := by
  induction src generalizing ws with
  | nil => simp [encodeProgram, eq_comm]
  | cons st src ih => simp only [encodeProgram_cons_eq_ok, List.forall₂_cons_left_iff, ih]

/-! ### The fields of a statement -/

theorem zeroExtend_injective {n : Nat} (hn : n ≤ 32) {a b : BitVec n}
    (h : a.zeroExtend 32 = b.zeroExtend 32) : a = b := by
  apply BitVec.eq_of_toNat_eq
  simpa [BitVec.toNat_setWidth_of_le hn] using congrArg BitVec.toNat h

/-- Fields that give an argument's value hold it. -/
theorem holds_of_gives {f : Fields} {d : Role} {a : Arg} (h : Gives f d a) : Holds f d a := by
  rcases h with ⟨rfl, n, rfl, -, -, hvalue⟩ | ⟨hd, s, r, rfl, hr, hvalue⟩
  · exact zeroExtend_injective (by decide) hvalue
  · have hspells := spells_iff.2 hr
    cases d with
    | literal => exact absurd rfl hd
    | ra | rb | rc =>
      rw [← zeroExtend_injective (by decide) hvalue] at hspells
      exact hspells

/-- Every role of a row's arguments has a field in its format. -/
theorem mem_mf_of_mem_af (o : Op) : ∀ d ∈ o.af, d ∈ o.mf := by cases o <;> decide

/-- The roles a format lacks are at their defaults. -/
theorem fields_wellFormed_iff {mf : List Role} {f : Fields} :
    f.wellFormed mf = true ↔
      (Role.literal ∉ mf → f.lit = 0) ∧ (Role.ra ∉ mf → f.ra = 31) ∧ (Role.rb ∉ mf → f.rb = 31) ∧
        (Role.rc ∉ mf → f.rc = 31) := by
  simp [Fields.wellFormed, or_iff_not_imp_left, and_assoc]

/-- Fields whose roles outside a list have the default values hold the defaults there. -/
theorem defaults_of_value {roles : List Role} {f : Fields}
    (h : ∀ d ∉ roles, f.value d = Fields.absent.value d) :
    (Role.literal ∉ roles → f.lit = 0) ∧ (Role.ra ∉ roles → f.ra = 31) ∧ (Role.rb ∉ roles → f.rb = 31) ∧
      (Role.rc ∉ roles → f.rc = 31) :=
  ⟨fun hd => zeroExtend_injective (by decide) (h _ hd), fun hd => zeroExtend_injective (by decide) (h _ hd),
    fun hd => zeroExtend_injective (by decide) (h _ hd), fun hd => zeroExtend_injective (by decide) (h _ hd)⟩

end Sys2Proof.Machine

namespace Sys2Proof.Proofs

open Sys2Proof.Machine Sys2Proof.Claims

/-- Settles O56: the word packs the fields the arguments give, and decoding reads them back. -/
theorem assembledStatementDecodes : Obligations.AssembledStatementDecodes := by
  intro st o ho hfault
  rcases encodeStatement_atFault_cases st with ⟨hat, -⟩ | ⟨-, p, f, hp, hok, hgives, habsent⟩
  · exact absurd hat hfault
  · obtain rfl : p = o := Option.some.inj (hp.symm.trans (names_iff.1 ho))
    have hformed : f.wellFormed p.mf = true := fields_wellFormed_iff.2
      (defaults_of_value fun d hd => habsent d fun hmem => hd (mem_mf_of_mem_af p d hmem))
    exact ⟨_, f, hok, opcodeField_encodeFields p f, decodeWord_encodeFields hformed,
      fun k d a hd ha => holds_of_gives (hgives k d a hd ha), defaults_of_value habsent⟩

/-- Settles O59: a statement has an error exactly when it is at fault, and the first error is the program's. -/
theorem assemblerErrorsNameTheirStatement : Obligations.AssemblerErrorsNameTheirStatement := by
  refine ⟨fun src e h => ?_, fun before st rest hbefore hst => ?_⟩
  · rcases encodeProgram_cases src with ⟨ws, hok, -⟩ | ⟨e', before, st, rest, herror, hsrc, hbefore, hst⟩
    · rw [hok] at h
      cases h
    · rw [herror] at h
      cases h
      have hnames := encodeStatement_error_names hst
      refine ⟨before, st, rest, hsrc, fun p hp => ?_, atFault_of_namesFault hnames, hnames⟩
      obtain ⟨w, hw⟩ := hbefore p hp
      exact not_atFault_of_word hw
  · obtain ⟨e, he⟩ := exists_error_of_atFault hst
    have herror : encodeProgram (before ++ st :: rest) = .error e :=
      encodeProgram_error_of_first (fun p hp => exists_word_of_not_atFault (hbefore p hp)) he
    exact ⟨e, herror, encodeStatement_error_names he, assemble_error herror⟩

/-- Settles O60: the words stand one by one for the statements. -/
theorem programEncodesEachStatement : Obligations.ProgramEncodesEachStatement := by
  intro src ws
  rw [encodeProgram_eq_ok, List.forall₂_iff_get, eq_comm]
  rfl

end Sys2Proof.Proofs
end
